-- ==== Sys2Proof/Word.lean ====
section
/-! DEFINITION. The two word types of the block: a byte of a stream (20_memory.md R67) and a 32-bit register
(10_state.md section 4). Nothing else stands here: every function on them is in a file a repair may mend. -/

namespace Sys2Proof

/-- One byte of a stream or buffer; bit 7 is its most significant bit (00_scope.md R9). -/
abbrev Byte := BitVec 8

/-- One host-visible register, 32 bits (10_state.md R31 to R37). -/
abbrev Word := BitVec 32

end Sys2Proof
end

