-- ==== Sys2Proof/Syntax.lean ====
section
/-! DEFINITION. The syntax: one constructor per row of spec/opcode_table.json. The stream's instructions are the
header, the flag byte, the tokens, the trailer and the padding (30_encoding.md R80); the command words are the
instructions the host writes to CMD (30_encoding.md R95). -/

namespace Sys2Proof

/-- The format variant (10_state.md R26 `VARIANT`). -/
inductive Variant where
  | v10
  | v11
  deriving DecidableEq, Repr

/-- A token (00_scope.md R12): `Literal(v)`, or `Match(len, disp)` with `disp` the positive distance behind the write
position. -/
inductive Token where
  | literal (v : Byte)
  | matchRef (len disp : Nat)
  deriving DecidableEq, Repr

/-- How many output bytes a token produces: n(t) of 40_tokenizer.md R121. -/
def Token.count : Token → Nat
  | .literal _ => 1
  | .matchRef len _ => len

/-- The instructions, operands as the encoding's raw fields. -/
inductive Instr where
  /-- `F-HDR`, tag 0x10 (30_encoding.md R81). -/
  | hdr10 (size : BitVec 24)
  /-- `F-HDR`, tag 0x11 (30_encoding.md R81). -/
  | hdr11 (size : BitVec 24)
  /-- `F-FLAG` (30_encoding.md R82). -/
  | flag (f : Byte)
  /-- `F-LIT` (30_encoding.md R83). -/
  | lit (v : Byte)
  /-- `F-M10` (30_encoding.md R84): `l` = sh[15:12], `d` = sh[11:0]. -/
  | m10 (l : BitVec 4) (d : BitVec 12)
  /-- `F-M11E8`, tier 0 (30_encoding.md R86). -/
  | m11e8 (n : BitVec 8) (d : BitVec 12)
  /-- `F-M11E16`, tier 1 (30_encoding.md R87). -/
  | m11e16 (n : BitVec 16) (d : BitVec 12)
  /-- `F-M11S`, tier 2 (30_encoding.md R85): `i` is the indicator, 2 to 15. -/
  | m11s (i : BitVec 4) (d : BitVec 12)
  /-- `F-TRL` (30_encoding.md R88). -/
  | trl (endDelta : BitVec 24) (padding : BitVec 8) (startDelta : BitVec 32)
  /-- `F-PAD` (30_encoding.md R89): 0 to 3 bytes 0xFF. -/
  | pad (count : Fin 4)
  /-- `F-CMD`, OP 0x0, reserved (30_encoding.md R95); `ovl` is CMD[4], as in the rows below. -/
  | cmdReserved0 (ovl : Bool)
  | cmdDecode
  | cmdDecodeRaw10 (ovl : Bool)
  | cmdDecodeRaw11
  | cmdOverlay
  | cmdEncode10
  | cmdEncode11
  | cmdVerify
  | cmdReserved8 (ovl : Bool)
  | cmdReserved9 (ovl : Bool)
  | cmdReservedA (ovl : Bool)
  | cmdReservedB (ovl : Bool)
  | cmdReservedC (ovl : Bool)
  | cmdReservedD (ovl : Bool)
  | cmdReservedE (ovl : Bool)
  | cmdReservedF (ovl : Bool)
  /-- OVL = 1 with an opcode other than `DECODE_RAW10` (46_commands.md R261); `op` is CMD[3:0]. -/
  | cmdIllegalOvl (op : BitVec 4)
  /-- A nonzero reserved bit CMD[31:5] (46_commands.md R261). -/
  | cmdIllegalRsvd (rsvd : BitVec 27) (ovl : Bool) (op : BitVec 4)
  deriving DecidableEq, Repr

end Sys2Proof
end

