-- ==== Sys2Proof/WellFormed.lean ====
section
/-! DEFINITION. Which terms of `Instr` are instructions: those whose fields the encoding admits, each word having one
instruction (spec/opcode_table.json; assumption 5 for the rows whose words overlap). -/

namespace Sys2Proof

/-- Well-formedness, per row. A tier-2 indicator is 2 to 15 (30_encoding.md R85); a word with OVL = 1 and a reserved
opcode is the row `CMD.ILLEGAL_OVL`'s (assumption 5), whose opcode is any but `DECODE_RAW10` (46_commands.md R261);
the row `CMD.ILLEGAL_RSVD` has a reserved bit set. -/
def Instr.wf : Instr → Bool
  | .hdr10 _ => true
  | .hdr11 _ => true
  | .flag _ => true
  | .lit _ => true
  | .m10 _ _ => true
  | .m11e8 _ _ => true
  | .m11e16 _ _ => true
  | .m11s i _ => decide (2 ≤ i.toNat)
  | .trl _ _ _ => true
  | .pad _ => true
  | .cmdReserved0 ovl => !ovl
  | .cmdDecode => true
  | .cmdDecodeRaw10 _ => true
  | .cmdDecodeRaw11 => true
  | .cmdOverlay => true
  | .cmdEncode10 => true
  | .cmdEncode11 => true
  | .cmdVerify => true
  | .cmdReserved8 ovl => !ovl
  | .cmdReserved9 ovl => !ovl
  | .cmdReservedA ovl => !ovl
  | .cmdReservedB ovl => !ovl
  | .cmdReservedC ovl => !ovl
  | .cmdReservedD ovl => !ovl
  | .cmdReservedE ovl => !ovl
  | .cmdReservedF ovl => !ovl
  | .cmdIllegalOvl op => decide (op ≠ 0x2#4)
  | .cmdIllegalRsvd rsvd _ _ => decide (rsvd ≠ 0#27)

/-- The proposition form of `Instr.wf`, decidable by unfolding. -/
abbrev Instr.WellFormed (i : Instr) : Prop := i.wf = true

end Sys2Proof
end

