-- ==== Sys2Proof/Decode.lean ====
section
/-! DEFINITION. The decoder, total on any bytes and rejecting by name, and after it the encoder. Which format the next
bytes have is never in the bytes alone (30_encoding.md R96), so the decoder takes the place they stand in, `Slot`. -/

namespace Sys2Proof

/-- The place an instruction stands in, which selects its format (30_encoding.md R80, R96). -/
inductive Slot where
  /-- the first 4 bytes of a `DECODE` or `VERIFY` input -/
  | header
  /-- a token step with FCNT = 0 -/
  | flag
  /-- a token whose flag bit is 0 -/
  | literal
  /-- a token whose flag bit is 1, VARIANT = 10 -/
  | match10
  /-- a token whose flag bit is 1, VARIANT = 11 -/
  | match11
  /-- the last 8 bytes of an `OVERLAY` input -/
  | trailer
  /-- the end of an encoder's output -/
  | padding
  /-- the word written to CMD, its bytes in register order (20_memory.md R64) -/
  | command
  deriving DecidableEq, Repr

/-- Why bytes are no instruction in their slot. -/
inductive DecodeError where
  /-- fewer bytes than the format has (30_encoding.md R91) -/
  | short
  /-- a header tag other than 0x10 and 0x11 (30_encoding.md R92) -/
  | badTag (tag : Byte)
  /-- bytes that are not 0 to 3 times 0xFF (30_encoding.md R89) -/
  | notPadding
  deriving DecidableEq, Repr

/-- The result of decoding: the instruction and the bytes after it. -/
abbrev Decoded := Except DecodeError (Instr × List Byte)

/-- b[7:4] of a byte. -/
def hiNibble (b : Byte) : BitVec 4 := b.extractLsb' 4 4

/-- b[3:0] of a byte. -/
def loNibble (b : Byte) : BitVec 4 := b.extractLsb' 0 4

/-- LE32 of 00_scope.md R9. -/
def le32 (b0 b1 b2 b3 : Byte) : Word := b3 ++ b2 ++ b1 ++ b0

/-- The three size bytes of a header, little-endian (20_memory.md R60). -/
def le24 (b0 b1 b2 : Byte) : BitVec 24 := b2 ++ b1 ++ b0

/-- Byte k of a word in little-endian order. -/
def byteOf {w : Nat} (v : BitVec w) (k : Nat) : Byte := v.extractLsb' (8 * k) 8

/-- The four bytes of a register word, little-endian (20_memory.md R64). -/
def wordBytes (w : Word) : List Byte := [byteOf w 0, byteOf w 1, byteOf w 2, byteOf w 3]

/-- The row of an opcode in a command word with no reserved bit (30_encoding.md R95). -/
def decodeOp (ovl : Bool) (op : BitVec 4) : Instr :=
  if op = 0x0#4 then .cmdReserved0 ovl
  else if op = 0x1#4 then .cmdDecode
  else if op = 0x2#4 then .cmdDecodeRaw10 ovl
  else if op = 0x3#4 then .cmdDecodeRaw11
  else if op = 0x4#4 then .cmdOverlay
  else if op = 0x5#4 then .cmdEncode10
  else if op = 0x6#4 then .cmdEncode11
  else if op = 0x7#4 then .cmdVerify
  else if op = 0x8#4 then .cmdReserved8 ovl
  else if op = 0x9#4 then .cmdReserved9 ovl
  else if op = 0xA#4 then .cmdReservedA ovl
  else if op = 0xB#4 then .cmdReservedB ovl
  else if op = 0xC#4 then .cmdReservedC ovl
  else if op = 0xD#4 then .cmdReservedD ovl
  else if op = 0xE#4 then .cmdReservedE ovl
  else .cmdReservedF ovl

/-- `F-CMD` (30_encoding.md R95, 46_commands.md R261): a reserved bit first, then OVL with an opcode that does not
allow it, then the opcode. Total: every word is a row of the table. -/
def decodeCmd (w : Word) : Instr :=
  if w.extractLsb' 5 27 ≠ 0#27 then
    .cmdIllegalRsvd (w.extractLsb' 5 27) (w.getLsbD 4) (w.extractLsb' 0 4)
  else if w.getLsbD 4 = true ∧ w.extractLsb' 0 4 ≠ 0x2#4 then .cmdIllegalOvl (w.extractLsb' 0 4)
  else decodeOp (w.getLsbD 4) (w.extractLsb' 0 4)

/-- `F-HDR` (30_encoding.md R81): a header cut short is short whatever its first byte (60_exceptions.md R298). -/
def decodeHeader : List Byte → Decoded
  | tag :: s0 :: s1 :: s2 :: rest =>
    if tag = 0x10#8 then .ok (.hdr10 (le24 s0 s1 s2), rest)
    else if tag = 0x11#8 then .ok (.hdr11 (le24 s0 s1 s2), rest)
    else .error (.badTag tag)
  | _ => .error .short

/-- `F-FLAG` (30_encoding.md R82). -/
def decodeFlag : List Byte → Decoded
  | f :: rest => .ok (.flag f, rest)
  | [] => .error .short

/-- `F-LIT` (30_encoding.md R83). -/
def decodeLiteral : List Byte → Decoded
  | v :: rest => .ok (.lit v, rest)
  | [] => .error .short

/-- `F-M10` (30_encoding.md R84), big-endian (20_memory.md R61). -/
def decodeMatch10 : List Byte → Decoded
  | b0 :: b1 :: rest => .ok (.m10 (hiNibble b0) (loNibble b0 ++ b1), rest)
  | _ => .error .short

/-- The bytes of a tier-0 match after the first (30_encoding.md R86). -/
def decodeE8 (b0 : Byte) : List Byte → Decoded
  | b1 :: b2 :: rest => .ok (.m11e8 (loNibble b0 ++ hiNibble b1) (loNibble b1 ++ b2), rest)
  | _ => .error .short

/-- The bytes of a tier-1 match after the first (30_encoding.md R87). -/
def decodeE16 (b0 : Byte) : List Byte → Decoded
  | b1 :: b2 :: b3 :: rest =>
    .ok (.m11e16 (loNibble b0 ++ b1 ++ hiNibble b2) (loNibble b2 ++ b3), rest)
  | _ => .error .short

/-- The bytes of a tier-2 match after the first (30_encoding.md R85). -/
def decodeS (b0 : Byte) : List Byte → Decoded
  | b1 :: rest => .ok (.m11s (hiNibble b0) (loNibble b0 ++ b1), rest)
  | [] => .error .short

/-- A variant-11 match: the tier is the first byte's high nibble (30_encoding.md R91, 40_tokenizer.md R121). -/
def decodeMatch11 : List Byte → Decoded
  | b0 :: rest =>
    if hiNibble b0 = 0x0#4 then decodeE8 b0 rest
    else if hiNibble b0 = 0x1#4 then decodeE16 b0 rest
    else decodeS b0 rest
  | [] => .error .short

/-- `F-TRL` (30_encoding.md R88). -/
def decodeTrailer : List Byte → Decoded
  | e0 :: e1 :: e2 :: p :: s0 :: s1 :: s2 :: s3 :: rest =>
    .ok (.trl (le24 e0 e1 e2) p (le32 s0 s1 s2 s3), rest)
  | _ => .error .short

/-- `F-PAD` (30_encoding.md R89): all that is left of an encoder's output. -/
def decodePadding : List Byte → Decoded
  | [] => .ok (.pad 0, [])
  | [a] => if a = 0xFF#8 then .ok (.pad 1, []) else .error .notPadding
  | [a, b] => if a = 0xFF#8 ∧ b = 0xFF#8 then .ok (.pad 2, []) else .error .notPadding
  | [a, b, c] =>
    if a = 0xFF#8 ∧ b = 0xFF#8 ∧ c = 0xFF#8 then .ok (.pad 3, []) else .error .notPadding
  | _ => .error .notPadding

/-- `F-CMD` from the four bytes of the register. -/
def decodeCommand : List Byte → Decoded
  | b0 :: b1 :: b2 :: b3 :: rest => .ok (decodeCmd (le32 b0 b1 b2 b3), rest)
  | _ => .error .short

/-- The decoder: the instruction at the head of the bytes, in its slot. -/
def decode : Slot → List Byte → Decoded
  | .header => decodeHeader
  | .flag => decodeFlag
  | .literal => decodeLiteral
  | .match10 => decodeMatch10
  | .match11 => decodeMatch11
  | .trailer => decodeTrailer
  | .padding => decodePadding
  | .command => decodeCommand

/-! The encoder, from the same diagrams of 30_encoding.md. -/

/-- The word of an `F-CMD` (30_encoding.md R95). -/
def cmdWord (rsvd : BitVec 27) (ovl : Bool) (op : BitVec 4) : Word :=
  rsvd ++ BitVec.ofBool ovl ++ op

/-- d[11:8] of a displacement field. -/
def dispHi (d : BitVec 12) : BitVec 4 := d.extractLsb' 8 4

/-- d[7:0] of a displacement field. -/
def dispLo (d : BitVec 12) : Byte := d.extractLsb' 0 8

/-- The slot each instruction stands in (30_encoding.md R80). -/
def Instr.slot : Instr → Slot
  | .hdr10 _ => .header
  | .hdr11 _ => .header
  | .flag _ => .flag
  | .lit _ => .literal
  | .m10 _ _ => .match10
  | .m11e8 _ _ => .match11
  | .m11e16 _ _ => .match11
  | .m11s _ _ => .match11
  | .trl _ _ _ => .trailer
  | .pad _ => .padding
  | .cmdReserved0 _ => .command
  | .cmdDecode => .command
  | .cmdDecodeRaw10 _ => .command
  | .cmdDecodeRaw11 => .command
  | .cmdOverlay => .command
  | .cmdEncode10 => .command
  | .cmdEncode11 => .command
  | .cmdVerify => .command
  | .cmdReserved8 _ => .command
  | .cmdReserved9 _ => .command
  | .cmdReservedA _ => .command
  | .cmdReservedB _ => .command
  | .cmdReservedC _ => .command
  | .cmdReservedD _ => .command
  | .cmdReservedE _ => .command
  | .cmdReservedF _ => .command
  | .cmdIllegalOvl _ => .command
  | .cmdIllegalRsvd _ _ _ => .command

/-- The bytes of an instruction, first byte read first (30_encoding.md R81 to R89, R95). -/
def encode : Instr → List Byte
  | .hdr10 size => [0x10#8, byteOf size 0, byteOf size 1, byteOf size 2]
  | .hdr11 size => [0x11#8, byteOf size 0, byteOf size 1, byteOf size 2]
  | .flag f => [f]
  | .lit v => [v]
  | .m10 l d => [l ++ dispHi d, dispLo d]
  | .m11e8 n d => [0x0#4 ++ n.extractLsb' 4 4, n.extractLsb' 0 4 ++ dispHi d, dispLo d]
  | .m11e16 n d =>
    [0x1#4 ++ n.extractLsb' 12 4, n.extractLsb' 4 8, n.extractLsb' 0 4 ++ dispHi d, dispLo d]
  | .m11s i d => [i ++ dispHi d, dispLo d]
  | .trl e p s =>
    [byteOf e 0, byteOf e 1, byteOf e 2, p, byteOf s 0, byteOf s 1, byteOf s 2, byteOf s 3]
  | .pad count => List.replicate count.val 0xFF#8
  | .cmdReserved0 ovl => wordBytes (cmdWord 0 ovl 0x0#4)
  | .cmdDecode => wordBytes (cmdWord 0 false 0x1#4)
  | .cmdDecodeRaw10 ovl => wordBytes (cmdWord 0 ovl 0x2#4)
  | .cmdDecodeRaw11 => wordBytes (cmdWord 0 false 0x3#4)
  | .cmdOverlay => wordBytes (cmdWord 0 false 0x4#4)
  | .cmdEncode10 => wordBytes (cmdWord 0 false 0x5#4)
  | .cmdEncode11 => wordBytes (cmdWord 0 false 0x6#4)
  | .cmdVerify => wordBytes (cmdWord 0 false 0x7#4)
  | .cmdReserved8 ovl => wordBytes (cmdWord 0 ovl 0x8#4)
  | .cmdReserved9 ovl => wordBytes (cmdWord 0 ovl 0x9#4)
  | .cmdReservedA ovl => wordBytes (cmdWord 0 ovl 0xA#4)
  | .cmdReservedB ovl => wordBytes (cmdWord 0 ovl 0xB#4)
  | .cmdReservedC ovl => wordBytes (cmdWord 0 ovl 0xC#4)
  | .cmdReservedD ovl => wordBytes (cmdWord 0 ovl 0xD#4)
  | .cmdReservedE ovl => wordBytes (cmdWord 0 ovl 0xE#4)
  | .cmdReservedF ovl => wordBytes (cmdWord 0 ovl 0xF#4)
  | .cmdIllegalOvl op => wordBytes (cmdWord 0 true op)
  | .cmdIllegalRsvd rsvd ovl op => wordBytes (cmdWord rsvd ovl op)

/-! The opcode table's numbering of an instruction's bits (byte k is bits 8k+7 to 8k). -/

/-- Which slot a table word stands in. The table has no context, and the formats overlap (30_encoding.md R96), so the
length and, for 8, 16 and 24 bits, the first byte choose: DESIGN CHOICE, assumption 6. -/
def tableSlot (nbits w : Nat) : Option Slot :=
  let b0 := w % 256
  if nbits = 0 then some .padding
  else if nbits = 8 then
    if b0 = 0x10 ∨ b0 = 0x11 then some .header
    else if b0 = 0xFF then some .padding
    else if b0 < 0x20 then some .match11
    else some .flag
  else if nbits = 16 then if b0 < 0x20 then some .match10 else some .match11
  else if nbits = 24 then if w = 0xFFFFFF then some .padding else some .match11
  else if nbits = 32 then some .command
  else if nbits = 64 then some .trailer
  else none

/-- The `n` bytes of a table word, the first byte from the least significant bits. -/
def tableBytes : Nat → Nat → List Byte
  | 0, _ => []
  | n + 1, w => BitVec.ofNat 8 w :: tableBytes n (w / 256)

/-- The bytes the decoder is given for a table word: the padding has exactly the bytes the table gives; every other
format is read from the word's bytes with zero bytes after them, 8 in all, the longest instruction's length. -/
def tableStream (slot : Slot) (nbits w : Nat) : List Byte :=
  if slot = .padding then tableBytes (nbits / 8) w else tableBytes 8 (w % 2 ^ nbits)

/-- The instruction the decoder reads from a table word. -/
def decodeTableWord (nbits w : Nat) : Option Instr :=
  match tableSlot nbits w with
  | none => none
  | some slot =>
    match decode slot (tableStream slot nbits w) with
    | .ok (i, _) => some i
    | .error _ => none

end Sys2Proof
end

