-- ==== Sys2Proof/Config.lean ====
section
/-! DEFINITION. The parameters the spec leaves to an implementation (00_scope.md R7) and the one free value of the
model. A `Config` stands in State and no step changes it, so a statement about every state is a statement about
every choice of the parameters (assumption 1). -/

namespace Sys2Proof

/-- Which displacement wins a length tie in the match finder (00_scope.md R7 `ENC_TIE`, 43_match_finder.md R194). -/
inductive TieOrder where
  | nearest
  | farthest
  deriving DecidableEq, Repr

/-- The open parameters of 00_scope.md R7. `none` is the spec's "unbounded". -/
structure Config where
  maxIn   : Option Nat
  maxOut  : Option Nat
  encTie  : TieOrder
  encDmin : Nat
  deriving DecidableEq, Repr

/-- The defaults of 00_scope.md R7: both capacities open, `NEAREST`, smallest displacement 1. -/
def Config.standard : Config :=
  { maxIn := none, maxOut := none, encTie := .nearest, encDmin := 1 }

/-- The ranges of 00_scope.md R7. -/
def Config.wf (c : Config) : Bool :=
  (match c.maxIn with
    | none => true
    | some m => decide (1 ≤ m) && decide (m < 4294967296)) &&
  (match c.maxOut with
    | none => true
    | some m => decide (16777216 ≤ m) && decide (m < 4294967296)) &&
  decide (1 ≤ c.encDmin) && decide (c.encDmin ≤ 4096)

/-- FREE VALUE (DESIGN CHOICE, assumption 3). What a 32-bit register holds after a store of a count that does not fit
it: 00_scope.md R8 says the rules keep such a store from happening, but with an unbounded capacity they do not, and
no value is stated. No body: nothing can be proved of it. -/
opaque Config.freeWord : Nat → Word

end Sys2Proof
end

