-- ==== Sys2Proof/Machine/State.lean ====
section
/-! DEFINITION. The state of the block, whole, as plain data: the host-visible registers and the engine registers of
10_state.md, the four buffers of 10_state.md R39, the input port, and the host's pending actions (46_commands.md
R270). INVENTORY.md lists every field with its rule and reset value. -/

namespace Sys2Proof.Machine

/-- A byte-addressed storage: pairs (address, byte) with addresses strictly rising and no zero byte listed, a zero
byte being what an unlisted address reads as (assumption 4). It holds `WIN` (10_state.md R28). -/
abbrev Memory := List Host.Cell

/-- Where in the running command the engine is; the state a multi-step command implies. -/
inductive Phase where
  /-- `DECODE`, `VERIFY`: the 4 header bytes are due (41_decoder.md R155, 45_verifier.md R241). -/
  | header
  /-- `OVERLAY`, `ENCODE10`, `ENCODE11`: reading the whole input up to `EOI` (46_commands.md R268). -/
  | gather
  /-- `OVERLAY`: the trailer is due (42_overlay.md R171). -/
  | trailer
  /-- A token step is due (40_tokenizer.md R121). -/
  | tokens
  /-- `ENCODE10`, `ENCODE11`: a match-finder step is due (43_match_finder.md R195). -/
  | search
  /-- `ENCODE10`, `ENCODE11`: the padding is due (44_encoder.md R225). -/
  | pad
  /-- `ENCODE10`, `ENCODE11`: the last line of 44_encoder.md R215 is due. -/
  | finish
  deriving DecidableEq, Repr

/-- `STATE` (10_state.md R30), `BUSY` with the engine's place in the command. -/
inductive RunState where
  | idle
  | busy (phase : Phase)
  | done
  | error
  deriving DecidableEq, Repr

/-- The errors of 60_exceptions.md R281. -/
inductive ErrCode where
  | decodeShortStream
  | decodeOverrun
  | decodeDispRange
  | encodeDispRange
  | encodeLengthRange
  | encodeSizeRange
  | verifyDispNonpositive
  | verifyDispBeforeStart
  | verifyLengthMismatch
  | verifyBadTag
  | verifyShortHeader
  | formatBadTag
  | formatShortHeader
  | formatBadTrailer
  | formatCapacity
  | commandIllegal
  deriving DecidableEq, Repr

/-- One answer of the host to an input request: a byte, or end of input (46_commands.md R268). -/
inductive InAnswer where
  | byte (b : Byte)
  | eoi
  deriving DecidableEq, Repr

/-- One action of the host (46_commands.md R270, R271). `width` is the access width in bytes. -/
inductive HostAction where
  /-- A write to the register space (10_state.md R31 to R38). -/
  | writeReg (off width : Nat) (val : Word)
  /-- A read of the register space; the value lands in `hostData`. -/
  | readReg (off width : Nat)
  /-- An answer to an input request. -/
  | offer (a : InAnswer)
  /-- A read of `count` bytes of the output port from index `start`; they land in `hostBytes` (46_commands.md R269). -/
  | readOut (start count : Nat)
  /-- A change of an input byte already offered (20_memory.md R74). -/
  | alterInput (index : Nat) (b : Byte)
  /-- Reset (70_reset_and_hazards.md R310). -/
  | reset
  deriving DecidableEq, Repr

/-- A host action and how many engine steps may still pass before it; an engine that waits lets it pass at once. The
order of host actions and engine steps is data, so every interleaving is some state (70_reset_and_hazards.md R319). -/
structure HostTurn where
  delay : Nat
  act   : HostAction
  deriving DecidableEq, Repr

/-- A token in the packer's chunk with the input index it starts at, which an encoder error records (44_encoder.md
R228). -/
structure ChunkEntry where
  tok   : Token
  start : Nat
  deriving DecidableEq, Repr

/-- Why the machine stops with a fault. -/
inductive Fault where
  /-- A match copy read `OUT` at an index not below its length, which 00_scope.md R11 leaves without a value. Raised by
  the decode of a match; the test of 41_decoder.md R152 before the copy keeps it from happening. Safe. -/
  | outReadBeyondEnd
  deriving DecidableEq, Repr

/-- Why the model gives no meaning. -/
inductive Refusal where
  /-- An instruction rejected by name. Raised by no arm of this model. Safe. -/
  | notModelled (mnemonic : String)
  /-- A register access that is not a whole aligned 32-bit word (20_memory.md R67, 93 V4: "the model refuses it").
  Raised by a host action, never by an instruction. Safe. -/
  | registerAccess (off width : Nat)
  /-- The host changed input bytes of the running command (20_memory.md R74, 93 X2: "the model gives the run no
  meaning"). Raised by a host action, never by an instruction. Safe. -/
  | inputAltered
  deriving DecidableEq, Repr

/-- The state. Offsets, lengths and counts are exact naturals (00_scope.md R8, 92_eei_decisions.md D16); the fields the
format or the host reads as bits are bit vectors. -/
structure State where
  /-- `STATE` and the engine's place (10_state.md R30). -/
  st         : RunState
  /-- `ERRKIND` (10_state.md R34). -/
  errKind    : BitVec 4
  /-- `ERRSUB` (10_state.md R34). -/
  errSub     : BitVec 4
  /-- `RAWSIZE`[23:0] (10_state.md R33). -/
  rawsize    : BitVec 24
  /-- `RESULT` (10_state.md R35). -/
  result     : Word
  /-- `ERROFF` (10_state.md R36). -/
  erroff     : Word
  /-- `ERRFOFF` (10_state.md R37). -/
  errfoff    : Word
  /-- `OP` (10_state.md R26). -/
  op         : BitVec 4
  /-- `VARIANT` (10_state.md R26). -/
  variant    : Variant
  /-- `OVL` (10_state.md R26). -/
  ovl        : Bool
  /-- `DISP_EXTRA`, 1 or 3 (10_state.md R26). -/
  dispExtra  : Nat
  /-- `SIZE` (10_state.md R26). -/
  size       : Nat
  /-- `IP` (10_state.md R22). -/
  ip         : Nat
  /-- `FLAGS` (10_state.md R23). -/
  flags      : BitVec 8
  /-- `FCNT`, 0 to 8 (10_state.md R23). -/
  fcnt       : Nat
  /-- `FPOS`; `none` is NONE (10_state.md R23). -/
  fpos       : Option Nat
  /-- `TPOS` (10_state.md R25). -/
  tpos       : Nat
  /-- `TOTAL` (10_state.md R24). -/
  total      : Nat
  /-- `OUT` (10_state.md R27). -/
  out        : List Byte
  /-- `IN`, where a command holds it (10_state.md R29, R39). -/
  inp        : List Byte
  /-- `POS` (10_state.md R28). -/
  pos        : Nat
  /-- `WIN`, input byte i at address i mod 4096 (10_state.md R28). -/
  win        : Memory
  /-- `WFILL` (10_state.md R28). -/
  wfill      : Nat
  /-- `CHUNK` (10_state.md R28). -/
  chunk      : List ChunkEntry
  /-- `CCNT` (10_state.md R28). -/
  ccnt       : Nat
  /-- `L` (10_state.md R29). -/
  len        : Nat
  /-- `END_FIELD` (10_state.md R29). -/
  endField   : BitVec 32
  /-- `START_DELTA` (10_state.md R29). -/
  startDelta : BitVec 32
  /-- `PADDING` (10_state.md R29). -/
  padding    : BitVec 8
  /-- `END_DELTA` (10_state.md R29). -/
  endDelta   : BitVec 24
  /-- `SRC` (10_state.md R29). -/
  src        : List Byte
  /-- The input port: answers the host has given and the engine has not taken (46_commands.md R268). -/
  inPort     : List InAnswer
  /-- The host's pending actions, next first (46_commands.md R270). The model's own field. -/
  hostQ      : List HostTurn
  /-- The value of the host's last register read. The model's own field. -/
  hostData   : Word
  /-- The bytes of the host's last output read. The model's own field. -/
  hostBytes  : List Byte
  /-- The parameters of 00_scope.md R7; no step changes them. The model's own field. -/
  config     : Config
  /-- How many free values have been drawn (assumption 3). The model's own field. -/
  freeIx     : Nat
  deriving DecidableEq, Repr

/-- The outcome of an instruction or step. -/
abbrev Out := Host.Outcome State Fault Refusal

/-- The machine after reset (70_reset_and_hazards.md R310, 10_state.md R42). `FLAGS`, `VARIANT`, `DISP_EXTRA` and the
contents of `WIN` are the model's choice (DESIGN CHOICE, assumption 4). -/
def State.reset : State :=
  { st := .idle
    errKind := 0
    errSub := 0
    rawsize := 0
    result := 0
    erroff := 0
    errfoff := 0xFFFFFFFF
    op := 0
    variant := .v10
    ovl := false
    dispExtra := 1
    size := 0
    ip := 0
    flags := 0
    fcnt := 0
    fpos := none
    tpos := 0
    total := 0
    out := []
    inp := []
    pos := 0
    win := []
    wfill := 0
    chunk := []
    ccnt := 0
    len := 0
    endField := 0
    startDelta := 0
    padding := 0
    endDelta := 0
    src := []
    inPort := []
    hostQ := []
    hostData := 0
    hostBytes := []
    config := Config.standard
    freeIx := 0 }

end Sys2Proof.Machine
end

