-- ==== Sys2Proof/Machine/Operands.lean ====
section
/-! DEFINITION. The operand forms: how each format's fields assemble to a token (30_encoding.md R84 to R90), and the
fixed numbers of 00_scope.md R6. Every operand is zero-extended. -/

namespace Sys2Proof.Machine

/-- `FLAG_GROUP` (00_scope.md R6). -/
def flagGroup : Nat := 8

/-- `WINDOW` (00_scope.md R6). -/
def windowSize : Nat := 4096

/-- `MATCH_MIN` (00_scope.md R6). -/
def matchMin : Nat := 3

/-- `MATCH_MAX10` and `MATCH_MAX11` (00_scope.md R6). -/
def matchMax : Variant → Nat
  | .v10 => 18
  | .v11 => 65808

/-- `SIZE_MAX` (00_scope.md R6). -/
def sizeMax : Nat := 0xFFFFFF

/-- `TRAILER_LEN` (00_scope.md R6). -/
def trailerLen : Nat := 8

/-- `HDR_LEN` (00_scope.md R6). -/
def headerLen : Nat := 4

/-- `PAD_BYTE` (00_scope.md R6). -/
def padByte : Byte := 0xFF#8

/-- The header tag of a variant (00_scope.md R6 `TAG10`, `TAG11`). -/
def tagOf : Variant → Byte
  | .v10 => 0x10#8
  | .v11 => 0x11#8

/-- `F-M10` (30_encoding.md R84): len = l + 3, disp = D + DISP_EXTRA. -/
def m10Token (dispExtra : Nat) (l : BitVec 4) (d : BitVec 12) : Token :=
  .matchRef (l.toNat + 3) (d.toNat + dispExtra)

/-- `F-M11S` (30_encoding.md R85): len = i + 1, disp = D + 1. -/
def m11sToken (i : BitVec 4) (d : BitVec 12) : Token :=
  .matchRef (i.toNat + 1) (d.toNat + 1)

/-- `F-M11E8` (30_encoding.md R86): len = n + 0x11, disp = D + 1. -/
def m11e8Token (n : BitVec 8) (d : BitVec 12) : Token :=
  .matchRef (n.toNat + 0x11) (d.toNat + 1)

/-- `F-M11E16` (30_encoding.md R87): len = n + 0x111, disp = D + 1. -/
def m11e16Token (n : BitVec 16) (d : BitVec 12) : Token :=
  .matchRef (n.toNat + 0x111) (d.toNat + 1)

/-- `decompressed_size = start_delta + end_delta`, exact (42_overlay.md R171). -/
def trailerSize (endDelta : BitVec 24) (startDelta : BitVec 32) : Nat :=
  startDelta.toNat + endDelta.toNat

/-- `END_FIELD`, of which the padding is the top byte and `end_delta` the rest (30_encoding.md R88). -/
def trailerEndField (endDelta : BitVec 24) (padding : BitVec 8) : BitVec 32 := padding ++ endDelta

/-- The padding an output of `t` bytes gets (30_encoding.md R89, 44_encoder.md R225). -/
def padCount (t : Nat) : Fin 4 := Fin.ofNat 4 (4 - t % 4)

end Sys2Proof.Machine
end

