-- ==== Sys2Proof/Machine/Ops.lean ====
section
/-! DEFINITION. The shared operations: the window storage, the error entry and the command start that leaves it, the
ends of a command, the input port, and the output buffer. -/

namespace Sys2Proof.Machine

/-! ## The window storage -/

/-- What an unlisted address of a `Memory` reads as (DESIGN CHOICE, assumption 4: 10_state.md R28 leaves the contents
of `WIN` unspecified). -/
def Memory.unlisted : Byte := 0x00#8

/-- The byte at an address. -/
def Memory.read : Memory → Nat → Byte
  | [], _ => Memory.unlisted
  | c :: m, a => if c.1 = a then c.2 else Memory.read m a

/-- The memory with one byte written, in canonical form. -/
def Memory.write : Memory → Nat → Byte → Memory
  | [], a, b => if b = Memory.unlisted then [] else [(a, b)]
  | c :: m, a, b =>
    if a < c.1 then (if b = Memory.unlisted then c :: m else (a, b) :: c :: m)
    else if a = c.1 then (if b = Memory.unlisted then m else (a, b) :: m)
    else c :: Memory.write m a b

/-- Addresses at least `lo` and strictly rising, no entry equal to what an unlisted address reads as. -/
def Memory.wfFrom : Nat → Memory → Bool
  | _, [] => true
  | lo, c :: m => decide (lo ≤ c.1) && decide (c.2 ≠ Memory.unlisted) && Memory.wfFrom (c.1 + 1) m

/-- The canonical form. -/
def Memory.wf (m : Memory) : Bool := Memory.wfFrom 0 m

/-! ## Registers -/

/-- `NONE` in a 32-bit register (60_exceptions.md R281). -/
def noneWord : Word := 0xFFFFFFFF#32

/-- The value a 32-bit register holds after a store of the exact count `n`: `n` where it fits; where it does not, no
rule states the value and it is free (00_scope.md R8; DESIGN CHOICE, assumption 3). -/
def wide32 (k n : Nat) : Word :=
  if n < 4294967296 then BitVec.ofNat 32 n else Config.freeWord k

/-- The opcodes of 30_encoding.md R95. -/
def opDecode : BitVec 4 := 0x1#4
def opDecodeRaw10 : BitVec 4 := 0x2#4
def opDecodeRaw11 : BitVec 4 := 0x3#4
def opOverlay : BitVec 4 := 0x4#4
def opEncode10 : BitVec 4 := 0x5#4
def opEncode11 : BitVec 4 := 0x6#4
def opVerify : BitVec 4 := 0x7#4

/-- `STATE = BUSY`. -/
def State.busy (s : State) : Bool :=
  match s.st with
  | .busy _ => true
  | _ => false

/-- Whether an output of `n` bytes would pass `MAX_OUT` (60_exceptions.md R296). -/
def State.overOut (s : State) (n : Nat) : Bool :=
  match s.config.maxOut with
  | none => false
  | some m => decide (m < n)

/-! ## Error entry, and leaving it -/

/-- The kind number (60_exceptions.md R281). -/
def ErrCode.kind : ErrCode → BitVec 4
  | .decodeShortStream => 1
  | .decodeOverrun => 1
  | .decodeDispRange => 1
  | .encodeDispRange => 2
  | .encodeLengthRange => 2
  | .encodeSizeRange => 2
  | .verifyDispNonpositive => 3
  | .verifyDispBeforeStart => 3
  | .verifyLengthMismatch => 3
  | .verifyBadTag => 3
  | .verifyShortHeader => 3
  | .formatBadTag => 4
  | .formatShortHeader => 4
  | .formatBadTrailer => 4
  | .formatCapacity => 4
  | .commandIllegal => 5

/-- The sub-cause number (60_exceptions.md R281). -/
def ErrCode.sub : ErrCode → BitVec 4
  | .decodeShortStream => 1
  | .decodeOverrun => 2
  | .decodeDispRange => 3
  | .encodeDispRange => 1
  | .encodeLengthRange => 2
  | .encodeSizeRange => 3
  | .verifyDispNonpositive => 1
  | .verifyDispBeforeStart => 2
  | .verifyLengthMismatch => 3
  | .verifyBadTag => 4
  | .verifyShortHeader => 5
  | .formatBadTag => 1
  | .formatShortHeader => 2
  | .formatBadTrailer => 3
  | .formatCapacity => 4
  | .commandIllegal => 1

/-- The count `RESULT` takes at the error (60_exceptions.md R299): `TOTAL` for a tokenizer-driven error, the token's
input index (the recorded offset) for the packer's range errors, 0 otherwise. -/
def ErrCode.resultAt (e : ErrCode) (total off : Nat) : Nat :=
  match e with
  | .decodeShortStream => total
  | .decodeOverrun => total
  | .decodeDispRange => total
  | .encodeDispRange => off
  | .encodeLengthRange => off
  | .encodeSizeRange => 0
  | .verifyDispNonpositive => total
  | .verifyDispBeforeStart => total
  | .verifyLengthMismatch => total
  | .verifyBadTag => 0
  | .verifyShortHeader => 0
  | .formatBadTag => 0
  | .formatShortHeader => 0
  | .formatBadTrailer => 0
  | .formatCapacity => 0
  | .commandIllegal => 0

/-- A flag-byte offset in a 32-bit register, NONE when there is none (10_state.md R37). -/
def offsetWord (k : Nat) : Option Nat → Word
  | none => noneWord
  | some f => wide32 k f

/-- Error entry, `raise E(off, foff)` (60_exceptions.md R299): the command ends, its output is discarded, and so are the
answers left in the port (46_commands.md R268). -/
def raise (e : ErrCode) (off : Nat) (foff : Option Nat) (s : State) : State :=
  { s with
    st := .error
    errKind := e.kind
    errSub := e.sub
    erroff := wide32 s.freeIx off
    errfoff := offsetWord (s.freeIx + 1) foff
    result := wide32 (s.freeIx + 2) (e.resultAt s.total off)
    out := []
    inPort := []
    freeIx := s.freeIx + 3 }

/-- `VARIANT` at command start (46_commands.md R262): `DECODE` and `VERIFY` leave it to the header. -/
def startVariant (op : BitVec 4) (old : Variant) : Variant :=
  if op = opDecodeRaw10 ∨ op = opEncode10 ∨ op = opOverlay then .v10
  else if op = opDecodeRaw11 ∨ op = opEncode11 then .v11
  else old

/-- `DISP_EXTRA` at command start (46_commands.md R262). -/
def startDispExtra (op : BitVec 4) (ovl : Bool) : Nat :=
  if (op = opDecodeRaw10 ∧ ovl = true) ∨ op = opOverlay then 3 else 1

/-- `SIZE` at command start (46_commands.md R262, R267). -/
def startSize (op : BitVec 4) (rawsize : BitVec 24) : Nat :=
  if op = opDecodeRaw10 ∨ op = opDecodeRaw11 then rawsize.toNat else 0

/-- The state every command, legal or not, starts from (46_commands.md R262). Writing it is also the only way out of
`ERROR` besides reset: there is no return from an error (60_exceptions.md R300). The port's stream starts afresh
(46_commands.md R268). -/
def commandInit (op : BitVec 4) (ovl : Bool) (s : State) : State :=
  { s with
    op := op
    ovl := ovl
    variant := startVariant op s.variant
    dispExtra := startDispExtra op ovl
    size := startSize op s.rawsize
    ip := 0
    fcnt := 0
    fpos := none
    tpos := 0
    total := 0
    inp := []
    out := []
    pos := 0
    wfill := 0
    chunk := []
    ccnt := 0
    len := 0
    endField := 0
    startDelta := 0
    padding := 0
    endDelta := 0
    src := []
    result := 0
    errKind := 0
    errSub := 0
    erroff := 0
    errfoff := noneWord
    inPort := [] }

/-! ## The other ends of a command -/

/-- `RESULT <- n; STATE <- DONE` (46_commands.md R264). -/
def finish (n : Nat) (s : State) : State :=
  { s with
    st := .done
    result := wide32 s.freeIx n
    inPort := []
    freeIx := s.freeIx + 1 }

/-- The effect of `CTRL.ABORT` on a running command (46_commands.md R265). -/
def abort (s : State) : State :=
  { s with
    st := .idle
    out := []
    result := 0
    errKind := 0
    errSub := 0
    erroff := 0
    errfoff := noneWord
    inPort := [] }

/-- Reset as an action of the host (70_reset_and_hazards.md R310): every piece of the block's state takes its reset
value; the parameters, the host's own pending actions and latches, and the count of free values are not the block's. -/
def hostReset (s : State) : State :=
  { State.reset with
    hostQ := s.hostQ
    hostData := s.hostData
    hostBytes := s.hostBytes
    config := s.config
    freeIx := s.freeIx }

/-! ## The input port -/

/-- What follows the bytes that can be read now: nothing yet (the engine waits), end of input, or a byte that would
pass `MAX_IN`. -/
inductive Stop where
  | wait
  | eoi
  | full
  deriving DecidableEq, Repr

/-- The bytes the engine can read now, in order, and what follows them. -/
structure View where
  bytes : List Byte
  stop  : Stop
  deriving DecidableEq, Repr

/-- The bytes answered so far, and whether end of input follows them (46_commands.md R268: nothing is read after
`EOI`). -/
def portView : List InAnswer → View
  | [] => { bytes := [], stop := .wait }
  | .eoi :: _ => { bytes := [], stop := .eoi }
  | .byte b :: rest => { bytes := b :: (portView rest).bytes, stop := (portView rest).stop }

/-- The view cut where the next byte would pass `MAX_IN`, `room` bytes on (60_exceptions.md R296). -/
def View.capped (room : Option Nat) (v : View) : View :=
  match room with
  | none => v
  | some n => if v.bytes.length ≤ n then v else { bytes := v.bytes.take n, stop := .full }

/-- Whether the tokenizer reads `SRC` and not the port (42_overlay.md R176). -/
def State.readsSrc (s : State) : Bool := s.op == opOverlay && s.st == .busy .tokens

/-- What `InByte()` can deliver now, as many bytes as there are (00_scope.md R11, 46_commands.md R268); in `SRC` the
end of the buffer is `EOI` (42_overlay.md R176). -/
def State.view (s : State) : View :=
  if s.readsSrc then { bytes := s.src.drop s.ip, stop := .eoi }
  else (portView s.inPort).capped (s.config.maxIn.map (fun m => m - s.ip))

/-- `n` calls of `InByte()` that deliver: `IP` advances by `n` and the port loses the bytes (10_state.md R22). -/
def consume (n : Nat) (s : State) : State :=
  { s with
    ip := s.ip + n
    inPort := if s.readsSrc then s.inPort else s.inPort.drop n }

/-! ## The output buffer -/

/-- `Append` of several bytes in order (44_encoder.md R217), `none` when one of them would pass `MAX_OUT`
(60_exceptions.md R296). -/
def appendChecked (bs : List Byte) (s : State) : Option State :=
  if s.overOut (s.out.length + bs.length) then none else some { s with out := s.out ++ bs }

/-- The copy of 41_decoder.md R152, byte by byte in increasing order: byte k is read at `WP0 - disp + k`, which is
`disp` behind the write position at that moment, and so may be one this match has written (20_memory.md R71). -/
def copyMatch (disp : Nat) : Nat → List Byte → Option (List Byte)
  | 0, out => some out
  | k + 1, out =>
    match out[out.length - disp]? with
    | some b => copyMatch disp k (out ++ [b])
    | none => none

/-- `s[a .. b)` (00_scope.md R10). -/
def slice (l : List Byte) (a b : Nat) : List Byte := (l.take b).drop a

/-- The bytes the host may read at the output port: `OUT` when `DONE`, the empty sequence otherwise (46_commands.md
R269, 20_memory.md R74). -/
def State.visibleOut (s : State) : List Byte :=
  match s.st with
  | .done => s.out
  | _ => []

end Sys2Proof.Machine
end

