-- ==== Sys2Proof/Machine/Framing.lean ====
section
/-! DEFINITION. The framing units: the header on a decoder's or verifier's input (41_decoder.md R155, 45_verifier.md
R241), the overlay trailer (42_overlay.md R171 to R176) and the encoder's padding (44_encoder.md R225). -/

namespace Sys2Proof.Machine

/-- The first lines of `Decode` (41_decoder.md R150) for the `SIZE` the state holds; `IP` goes on from where it is. -/
def startDecode (s : State) : State :=
  let s1 := { s with out := [], total := 0, fcnt := 0, fpos := none }
  if s1.overOut s1.size then raise .formatCapacity 0 none s1 else { s1 with st := .busy .tokens }

/-- The verifier's start after its header (45_verifier.md R240): no capacity test, no output. -/
def startVerify (s : State) : State :=
  { s with total := 0, fcnt := 0, fpos := none, st := .busy .tokens }

/-- A legal header's effect: variant, size, standalone mode, then the running command's start. -/
def acceptHeader (v : Variant) (size : BitVec 24) (s : State) : Out :=
  let s1 := { consume headerLen s with variant := v, size := size.toNat, dispExtra := 1 }
  .next (if s1.op = opVerify then startVerify s1 else startDecode s1)

/-- HDR10 (41_decoder.md R155, 45_verifier.md R241). -/
def execHdr10 (size : BitVec 24) (s : State) : Out := acceptHeader .v10 size s

/-- HDR11 (41_decoder.md R155, 45_verifier.md R241). -/
def execHdr11 (size : BitVec 24) (s : State) : Out := acceptHeader .v11 size s

/-- `ParseTrailer`'s writes (42_overlay.md R171). -/
def loadTrailer (e : BitVec 24) (p : BitVec 8) (sd : BitVec 32) (s : State) : State :=
  { s with
    endField := trailerEndField e p
    startDelta := sd
    padding := p
    endDelta := e
    size := trailerSize e sd }

/-- The compressed region (42_overlay.md R174). -/
def overlayRegion (s : State) : List Byte :=
  slice s.inp (s.len - s.endDelta.toNat) (s.len - s.padding.toNat)

/-- The inner decode's start over the reversed region (42_overlay.md R175, R176). -/
def startOverlay (s : State) : State :=
  { s with
    src := (overlayRegion s).reverse
    variant := .v10
    dispExtra := 3
    out := []
    total := 0
    fcnt := 0
    fpos := none
    ip := 0
    st := .busy .tokens }

/-- TRL (42_overlay.md R170 to R176): the fields, the trailer's validity, the capacity test, the reversed region. -/
def execTrl (e : BitVec 24) (p : BitVec 8) (sd : BitVec 32) (s : State) : Out :=
  let s1 := loadTrailer e p sd s
  if s1.len < e.toNat ∨ e.toNat < p.toNat then
    .next (raise .formatBadTrailer (s1.len - trailerLen) none s1)
  else if s1.overOut (s1.len - e.toNat + s1.size) then .next (raise .formatCapacity 0 none s1)
  else .next (startOverlay s1)

/-- PAD (44_encoder.md R225): the filler bytes; the command's last line is due after it. -/
def execPad (count : Fin 4) (s : State) : Out :=
  match appendChecked (List.replicate count.val padByte) s with
  | none => .next (raise .formatCapacity 0 none s)
  | some s1 => .next { s1 with st := .busy .finish }

end Sys2Proof.Machine
end

