-- ==== Sys2Proof/Machine/Commands.lean ====
section
/-! DEFINITION. The command words: a host write to CMD (46_commands.md R260 to R263). A write while BUSY is ignored
(R266); a legal word starts its command; an illegal one ends at once in the error entry (60_exceptions.md R297). -/

namespace Sys2Proof.Machine

/-- `WriteCMD` of a legal word (46_commands.md R260); `start` is what `Dispatch` begins with. -/
def issue (op : BitVec 4) (ovl : Bool) (start : State → State) (s : State) : Out :=
  if s.busy then .next s else .next (start (commandInit op ovl s))

/-- `WriteCMD` of an illegal word (46_commands.md R260, R261). -/
def issueIllegal (op : BitVec 4) (ovl : Bool) (s : State) : Out :=
  if s.busy then .next s else .next (raise .commandIllegal 0 none (commandInit op ovl s))

/-- The engine is to read a header first (41_decoder.md R155, 45_verifier.md R240). -/
def awaitHeader (s : State) : State := { s with st := .busy .header }

/-- The engine is to read the whole input first (46_commands.md R268). -/
def awaitInput (s : State) : State := { s with st := .busy .gather }

/-- CMD.DECODE (41_decoder.md R155). -/
def execCmdDecode (s : State) : Out := issue opDecode false awaitHeader s

/-- CMD.DECODE_RAW10 (41_decoder.md R150), either mode. -/
def execCmdDecodeRaw10 (ovl : Bool) (s : State) : Out := issue opDecodeRaw10 ovl startDecode s

/-- CMD.DECODE_RAW11 (41_decoder.md R150). -/
def execCmdDecodeRaw11 (s : State) : Out := issue opDecodeRaw11 false startDecode s

/-- CMD.OVERLAY (42_overlay.md R170). -/
def execCmdOverlay (s : State) : Out := issue opOverlay false awaitInput s

/-- CMD.ENCODE10 (44_encoder.md R215). -/
def execCmdEncode10 (s : State) : Out := issue opEncode10 false awaitInput s

/-- CMD.ENCODE11 (44_encoder.md R215). -/
def execCmdEncode11 (s : State) : Out := issue opEncode11 false awaitInput s

/-- CMD.VERIFY (45_verifier.md R240). -/
def execCmdVerify (s : State) : Out := issue opVerify false awaitHeader s

/-- CMD.RESERVED_0 (60_exceptions.md R297). -/
def execCmdReserved0 (ovl : Bool) (s : State) : Out := issueIllegal 0x0#4 ovl s

/-- CMD.RESERVED_8 (60_exceptions.md R297). -/
def execCmdReserved8 (ovl : Bool) (s : State) : Out := issueIllegal 0x8#4 ovl s

/-- CMD.RESERVED_9 (60_exceptions.md R297). -/
def execCmdReserved9 (ovl : Bool) (s : State) : Out := issueIllegal 0x9#4 ovl s

/-- CMD.RESERVED_A (60_exceptions.md R297). -/
def execCmdReservedA (ovl : Bool) (s : State) : Out := issueIllegal 0xA#4 ovl s

/-- CMD.RESERVED_B (60_exceptions.md R297). -/
def execCmdReservedB (ovl : Bool) (s : State) : Out := issueIllegal 0xB#4 ovl s

/-- CMD.RESERVED_C (60_exceptions.md R297). -/
def execCmdReservedC (ovl : Bool) (s : State) : Out := issueIllegal 0xC#4 ovl s

/-- CMD.RESERVED_D (60_exceptions.md R297). -/
def execCmdReservedD (ovl : Bool) (s : State) : Out := issueIllegal 0xD#4 ovl s

/-- CMD.RESERVED_E (60_exceptions.md R297). -/
def execCmdReservedE (ovl : Bool) (s : State) : Out := issueIllegal 0xE#4 ovl s

/-- CMD.RESERVED_F (60_exceptions.md R297). -/
def execCmdReservedF (ovl : Bool) (s : State) : Out := issueIllegal 0xF#4 ovl s

/-- CMD.ILLEGAL_OVL (46_commands.md R261). -/
def execCmdIllegalOvl (op : BitVec 4) (s : State) : Out := issueIllegal op true s

/-- CMD.ILLEGAL_RSVD (46_commands.md R261); the reserved bits leave no trace. -/
def execCmdIllegalRsvd (_rsvd : BitVec 27) (ovl : Bool) (op : BitVec 4) (s : State) : Out :=
  issueIllegal op ovl s

end Sys2Proof.Machine
end

