-- ==== Sys2Proof/Machine/Flags.lean ====
section
/-! DEFINITION. The flag byte's registers (10_state.md R23) and the STATUS word (10_state.md R34): every flag of the
block. -/

namespace Sys2Proof.Machine

/-- `FLAGS <- f; FCNT <- 8; FPOS <- IP - 1`, where `IP` has passed the flag byte (40_tokenizer.md R122). -/
def loadFlags (f : Byte) (s : State) : State :=
  { s with flags := f, fcnt := 8, fpos := some (s.ip - 1) }

/-- The token step takes one flag bit and notes where the token starts (40_tokenizer.md R121). -/
def takeFlagBit (s : State) : State :=
  { s with flags := s.flags <<< 1, fcnt := s.fcnt - 1, tpos := s.ip }

/-- The slot of the next unit of a token step (40_tokenizer.md R121, 30_encoding.md R91). -/
def State.tokenSlot (s : State) : Slot :=
  if s.fcnt = 0 then .flag
  else if s.flags.getLsbD 7 = false then .literal
  else
    match s.variant with
    | .v10 => .match10
    | .v11 => .match11

/-- The two-bit code of `STATE` (10_state.md R30). -/
def RunState.code : RunState → BitVec 4
  | .idle => 0
  | .busy _ => 1
  | .done => 2
  | .error => 3

/-- `STATUS` (10_state.md R34): STATE in bits 1:0, ERRKIND in 7:4, ERRSUB in 11:8, the rest 0. -/
def State.status (s : State) : Word := 0#20 ++ s.errSub ++ s.errKind ++ s.st.code

end Sys2Proof.Machine
end

