-- ==== Sys2Proof/Machine/Tokens.lean ====
section
/-! DEFINITION. The stream's own instructions: the flag byte, the literal and the four matches (40_tokenizer.md R122 to
R127), over the consumers of the decoder (41_decoder.md R151, R152) and of the verifier (45_verifier.md R242), and the
end checks. -/

namespace Sys2Proof.Machine

/-- The decoder's consumer of a match (41_decoder.md R152): displacement, then overrun, then the copy; `TOTAL` as
`Emit` advances it (40_tokenizer.md R121). -/
def decodeMatch (len disp : Nat) (s : State) : Out :=
  if disp < 1 ∨ s.out.length < disp then .next (raise .decodeDispRange s.tpos s.fpos s)
  else if s.size < s.out.length + len then .next (raise .decodeOverrun s.tpos s.fpos s)
  else
    match copyMatch disp len s.out with
    | some o => .next { s with out := o, total := s.total + len }
    | none => .fault .outReadBeyondEnd

/-- The decoder's consumer (41_decoder.md R151, R152). -/
def decodeToken (t : Token) (s : State) : Out :=
  match t with
  | .literal v => .next { s with out := s.out ++ [v], total := s.total + 1 }
  | .matchRef len disp => decodeMatch len disp s

/-- The verifier's consumer (45_verifier.md R242); nothing is written to `OUT`. -/
def verifyToken (t : Token) (s : State) : Out :=
  match t with
  | .literal _ => .next { s with total := s.total + 1 }
  | .matchRef len disp =>
    if disp ≤ 0 then .next (raise .verifyDispNonpositive s.tpos s.fpos s)
    else if s.total < disp then .next (raise .verifyDispBeforeStart s.tpos s.fpos s)
    else .next { s with total := s.total + len }

/-- `Emit(t)` to the running command's consumer (40_tokenizer.md R121). -/
def emit (t : Token) (s : State) : Out :=
  if s.op = opVerify then verifyToken t s else decodeToken t s

/-- FETCHFLAG (40_tokenizer.md R122). -/
def execFlag (f : Byte) (s : State) : Out := .next (loadFlags f (consume 1 s))

/-- LIT (40_tokenizer.md R123). -/
def execLit (v : Byte) (s : State) : Out := emit (.literal v) (consume 1 s)

/-- M10 (40_tokenizer.md R124). -/
def execM10 (l : BitVec 4) (d : BitVec 12) (s : State) : Out :=
  emit (m10Token s.dispExtra l d) (consume 2 s)

/-- M11S (40_tokenizer.md R125). -/
def execM11s (i : BitVec 4) (d : BitVec 12) (s : State) : Out :=
  emit (m11sToken i d) (consume 2 s)

/-- M11E8 (40_tokenizer.md R126). -/
def execM11e8 (n : BitVec 8) (d : BitVec 12) (s : State) : Out :=
  emit (m11e8Token n d) (consume 3 s)

/-- M11E16 (40_tokenizer.md R127). -/
def execM11e16 (n : BitVec 16) (d : BitVec 12) (s : State) : Out :=
  emit (m11e16Token n d) (consume 4 s)

/-- The overlay's splice (42_overlay.md R177): the untouched prefix, then the decoded bytes back in file order. -/
def spliceOverlay (s : State) : List Byte :=
  slice s.inp 0 (s.len - s.endDelta.toNat) ++ s.out.reverse

/-- The decoder's end check (41_decoder.md R154), and the splice for `OVERLAY` (42_overlay.md R170). -/
def endDecode (eoi : Bool) (s : State) : State :=
  if eoi then raise .decodeShortStream s.ip s.fpos s
  else if s.op = opOverlay then
    let s1 := { s with out := spliceOverlay s }
    finish s1.out.length s1
  else finish s.out.length s

/-- The verifier's final length check (45_verifier.md R243). -/
def endVerify (s : State) : State :=
  if s.total ≠ s.size then raise .verifyLengthMismatch s.ip s.fpos s else finish s.size s

/-- END of the tokenizer, `eoi` telling which (40_tokenizer.md R128). -/
def endTokens (eoi : Bool) (s : State) : Out :=
  .next (if s.op = opVerify then endVerify s else endDecode eoi s)

end Sys2Proof.Machine
end

