-- ==== Sys2Proof/Machine/Dispatch.lean ====
section
/-! DEFINITION. The dispatch: one arm per constructor of Instr, each one direct call of its meaning. -/

namespace Sys2Proof.Machine

def exec (i : Instr) (s : State) : Host.Outcome State Fault Refusal :=
  match i with
  | .hdr10 size => Sys2Proof.Machine.execHdr10 size s
  | .hdr11 size => Sys2Proof.Machine.execHdr11 size s
  | .flag f => Sys2Proof.Machine.execFlag f s
  | .lit v => Sys2Proof.Machine.execLit v s
  | .m10 l d => Sys2Proof.Machine.execM10 l d s
  | .m11e8 n d => Sys2Proof.Machine.execM11e8 n d s
  | .m11e16 n d => Sys2Proof.Machine.execM11e16 n d s
  | .m11s ind d => Sys2Proof.Machine.execM11s ind d s
  | .trl e p sd => Sys2Proof.Machine.execTrl e p sd s
  | .pad count => Sys2Proof.Machine.execPad count s
  | .cmdReserved0 ovl => Sys2Proof.Machine.execCmdReserved0 ovl s
  | .cmdDecode => Sys2Proof.Machine.execCmdDecode s
  | .cmdDecodeRaw10 ovl => Sys2Proof.Machine.execCmdDecodeRaw10 ovl s
  | .cmdDecodeRaw11 => Sys2Proof.Machine.execCmdDecodeRaw11 s
  | .cmdOverlay => Sys2Proof.Machine.execCmdOverlay s
  | .cmdEncode10 => Sys2Proof.Machine.execCmdEncode10 s
  | .cmdEncode11 => Sys2Proof.Machine.execCmdEncode11 s
  | .cmdVerify => Sys2Proof.Machine.execCmdVerify s
  | .cmdReserved8 ovl => Sys2Proof.Machine.execCmdReserved8 ovl s
  | .cmdReserved9 ovl => Sys2Proof.Machine.execCmdReserved9 ovl s
  | .cmdReservedA ovl => Sys2Proof.Machine.execCmdReservedA ovl s
  | .cmdReservedB ovl => Sys2Proof.Machine.execCmdReservedB ovl s
  | .cmdReservedC ovl => Sys2Proof.Machine.execCmdReservedC ovl s
  | .cmdReservedD ovl => Sys2Proof.Machine.execCmdReservedD ovl s
  | .cmdReservedE ovl => Sys2Proof.Machine.execCmdReservedE ovl s
  | .cmdReservedF ovl => Sys2Proof.Machine.execCmdReservedF ovl s
  | .cmdIllegalOvl op => Sys2Proof.Machine.execCmdIllegalOvl op s
  | .cmdIllegalRsvd rsvd ovl op => Sys2Proof.Machine.execCmdIllegalRsvd rsvd ovl op s

end Sys2Proof.Machine
end

