-- ==== Sys2Proof/Machine/HostPort.lean ====
section
/-! DEFINITION. The register space as the host sees it (10_state.md R31 to R38, 46_commands.md R265 to R267) and the
output port (46_commands.md R269). A write to CMD is an instruction and stands in Machine/Commands.lean. -/

namespace Sys2Proof.Machine

/-- Byte offsets of the seven registers (10_state.md R31 to R37). -/
def offCmd : Nat := 0x00
def offCtrl : Nat := 0x04
def offRawsize : Nat := 0x08
def offStatus : Nat := 0x0C
def offResult : Nat := 0x10
def offErroff : Nat := 0x14
def offErrfoff : Nat := 0x18

/-- A register access the spec gives a meaning: a whole aligned 32-bit word (20_memory.md R67). -/
def wholeWord (off width : Nat) : Bool := decide (width = 4) && decide (off % 4 = 0)

/-- A register read: CMD and CTRL are write-only and read 0, unmapped offsets read 0 (10_state.md R31 to R38). -/
def readRegister (s : State) (off : Nat) : Word :=
  if off = offRawsize then 0#8 ++ s.rawsize
  else if off = offStatus then s.status
  else if off = offResult then s.result
  else if off = offErroff then s.erroff
  else if off = offErrfoff then s.errfoff
  else 0#32

/-- A register write other than to CMD: ABORT acts on a running command only (46_commands.md R265), RAWSIZE is not
written while BUSY (R266), read-only and unmapped offsets ignore writes (10_state.md R33 to R38). -/
def writeRegister (off : Nat) (val : Word) (s : State) : State :=
  if off = offCtrl then (if val.getLsbD 0 = true ∧ s.busy = true then abort s else s)
  else if off = offRawsize then (if s.busy then s else { s with rawsize := val.extractLsb' 0 24 })
  else s

/-- An answer to an input request: it joins the running command's stream; with no command running there is no stream
it could be part of (46_commands.md R268, R312; DEDUCED, assumption 7). -/
def acceptAnswer (a : InAnswer) (s : State) : State :=
  if s.busy then { s with inPort := s.inPort ++ [a] } else s

/-- A read of the output port (46_commands.md R269). -/
def readOutput (start count : Nat) (s : State) : State :=
  { s with hostBytes := (s.visibleOut.drop start).take count }

end Sys2Proof.Machine
end

