-- ==== Sys2Proof/Machine/MatchFinder.lean ====
section
/-! DEFINITION. The sliding-window match finder (43_match_finder.md): candidates, cyclic match length, selection, and
the window update. The candidate side of a comparison is read from `WIN`, as the block's storage holds it. -/

namespace Sys2Proof.Machine

/-- The window byte that stands for input index `i`: address i mod 4096 (10_state.md R28, 43_match_finder.md R190). -/
def State.winByte (s : State) (i : Nat) : Byte := Memory.read s.win (i % windowSize)

/-- The candidate displacements, in the order `ENC_TIE` gives (43_match_finder.md R191, R194). -/
def State.candidates (s : State) : List Nat :=
  let near := List.range' s.config.encDmin (s.wfill + 1 - s.config.encDmin)
  match s.config.encTie with
  | .nearest => near
  | .farthest => near.reverse

/-- Whether byte `n` of a match at displacement `d` agrees: IN[POS + n] against the window at POS - d + (n mod d)
(43_match_finder.md R192). -/
def State.agrees (s : State) (d n : Nat) : Bool :=
  match s.inp[s.pos + n]? with
  | some b => b == s.winByte (s.pos - d + n % d)
  | none => false

/-- The longest match the position allows: `cap` of 43_match_finder.md R192. -/
def State.matchCap (s : State) : Nat := min (matchMax s.variant) (s.inp.length - s.pos)

/-- Counting up from `n` while `ok` holds, at most `fuel` times: the loop of 43_match_finder.md R192. -/
def countWhile (ok : Nat → Bool) : Nat → Nat → Nat
  | 0, n => n
  | fuel + 1, n => if ok n then countWhile ok fuel (n + 1) else n

/-- `MatchLen(POS, d)` (43_match_finder.md R192). -/
def State.matchLen (s : State) (d : Nat) : Nat := countWhile (s.agrees d) s.matchCap 0

/-- One candidate against the best so far, a pair (length, displacement): strictly greater wins, so the first found
keeps a tie (43_match_finder.md R194). -/
def better (s : State) (best : Nat × Nat) (d : Nat) : Nat × Nat :=
  let n := s.matchLen d
  if best.1 < n then (n, d) else best

/-- `Best(POS)` (43_match_finder.md R194); `none` when no candidate reaches `MATCH_MIN`. -/
def State.best (s : State) : Option (Nat × Nat) :=
  let b := s.candidates.foldl (better s) (0, 0)
  if matchMin ≤ b.1 then some b else none

/-- The token at `POS`, whose byte is `v` (43_match_finder.md R195). -/
def State.searchToken (s : State) (v : Byte) : Token :=
  match s.best with
  | some (n, d) => .matchRef n d
  | none => .literal v

/-- Bytes written to the window from input index `i` on. -/
def writeWindow : List Byte → Nat → Memory → Memory
  | [], _, m => m
  | b :: bs, i, m => writeWindow bs (i + 1) (Memory.write m (i % windowSize) b)

/-- `POS <- POS + n; WFILL <- min(POS, 4096)`, the window taking in the token's bytes (43_match_finder.md R190,
R195). -/
def slideWindow (n : Nat) (s : State) : State :=
  { s with
    win := writeWindow (slice s.inp s.pos (s.pos + n)) s.pos s.win
    pos := s.pos + n
    wfill := min (s.pos + n) windowSize }

end Sys2Proof.Machine
end

