-- ==== Sys2Proof/Machine/Packer.lean ====
section
/-! DEFINITION. The packer (44_encoder.md): the header, a token's bytes, the chunk with its flag byte, and one step of
the encode loop. A step that ends in an error answers the report of the error. -/

namespace Sys2Proof.Machine

/-- What `raise` of an encoder rule is given: the error and the offset it records; there is no flag byte. -/
abbrev Report := ErrCode × Nat

/-- `EmitHeader` (44_encoder.md R217). -/
def headerBytes (v : Variant) (n : Nat) : List Byte :=
  [tagOf v, BitVec.ofNat 8 n, BitVec.ofNat 8 (n / 256), BitVec.ofNat 8 (n / 65536)]

/-- `PackM10` (44_encoder.md R220), the displacement test first (R228). -/
def packM10 (dispExtra len disp : Nat) : Except ErrCode (List Byte) :=
  if disp < dispExtra ∨ 0xFFF < disp - dispExtra then .error .encodeDispRange
  else if len < 3 ∨ 18 < len then .error .encodeLengthRange
  else .ok (encode (.m10 (BitVec.ofNat 4 (len - 3)) (BitVec.ofNat 12 (disp - dispExtra))))

/-- `PackM11` (44_encoder.md R221 to R224), the displacement test first (R228): the one tier whose range holds `len`. -/
def packM11 (len disp : Nat) : Except ErrCode (List Byte) :=
  if disp < 1 ∨ 0xFFF < disp - 1 then .error .encodeDispRange
  else if 3 ≤ len ∧ len ≤ 16 then
    .ok (encode (.m11s (BitVec.ofNat 4 (len - 1)) (BitVec.ofNat 12 (disp - 1))))
  else if 17 ≤ len ∧ len ≤ 272 then
    .ok (encode (.m11e8 (BitVec.ofNat 8 (len - 0x11)) (BitVec.ofNat 12 (disp - 1))))
  else if 273 ≤ len ∧ len ≤ 65808 then
    .ok (encode (.m11e16 (BitVec.ofNat 16 (len - 0x111)) (BitVec.ofNat 12 (disp - 1))))
  else .error .encodeLengthRange

/-- `PackToken` (44_encoder.md R218 to R224). -/
def packToken (v : Variant) (dispExtra : Nat) : Token → Except ErrCode (List Byte)
  | .literal b => .ok (encode (.lit b))
  | .matchRef len disp =>
    match v with
    | .v10 => packM10 dispExtra len disp
    | .v11 => packM11 len disp

/-- Whether a token is a match: its flag bit. -/
def isMatch : Token → Bool
  | .literal _ => false
  | .matchRef _ _ => true

/-- The flag byte of a group: token j takes bit 7 - j, bits of absent tokens are 0 (44_encoder.md R218). -/
def flagByte : List Token → Nat → Byte
  | [], _ => 0
  | t :: ts, j => (if isMatch t then 1#8 <<< (7 - j) else 0) ||| flagByte ts (j + 1)

/-- The tokens of a chunk packed in order (44_encoder.md R218); an error records where its token starts (R228). -/
def packEntries (v : Variant) (dispExtra : Nat) : List ChunkEntry → State → Except Report State
  | [], s => .ok s
  | e :: es, s =>
    match packToken v dispExtra e.tok with
    | .error c => .error (c, e.start)
    | .ok bs =>
      match appendChecked bs s with
      | none => .error (.formatCapacity, 0)
      | some s' => packEntries v dispExtra es s'

/-- `FlushChunk` (44_encoder.md R218). -/
def flushChunk (s : State) : Except Report State :=
  if s.ccnt = 0 then .ok s
  else
    let group := s.chunk.take s.ccnt
    match appendChecked [flagByte (group.map (fun e => e.tok)) 0] s with
    | none => .error (.formatCapacity, 0)
    | some s1 =>
      match packEntries s.variant s.dispExtra group s1 with
      | .error r => .error r
      | .ok s2 => .ok { s2 with chunk := [], ccnt := 0 }

/-- The first line of `Pack(t)` for the token that starts at `POS` (44_encoder.md R218). -/
def noteToken (t : Token) (s : State) : State :=
  { s with chunk := s.chunk ++ [{ tok := t, start := s.pos }], ccnt := s.ccnt + 1 }

/-- The second line of `Pack(t)` (44_encoder.md R218): a full group is written. -/
def flushIfFull (s : State) : Except Report State :=
  if s.ccnt = flagGroup then flushChunk s else .ok s

/-- A step of the encoder as an outcome: its state, or the error entry. -/
def settle (s : State) : Except Report State → Out
  | .ok s' => .next s'
  | .error (c, off) => .next (raise c off none s)

/-- The start of encoding once the whole input is in (44_encoder.md R215): the header, then the loop. -/
def startEncode (s : State) : Out :=
  let s1 := { s with out := [], pos := 0, wfill := 0, chunk := [], ccnt := 0 }
  match appendChecked (headerBytes s.variant s.inp.length) s1 with
  | none => .next (raise .formatCapacity 0 none s1)
  | some s2 => .next { s2 with st := .busy .search }

/-- One turn of the encode loop (44_encoder.md R215): a match-finder step while `POS < |IN|` (43_match_finder.md
R195), then the flush of a partial last group. -/
def searchStep (s : State) : Out :=
  match s.inp[s.pos]? with
  | some v =>
    let t := s.searchToken v
    let s1 := noteToken t s
    settle s1 ((flushIfFull s1).map (slideWindow t.count))
  | none => settle s ((flushChunk s).map (fun s' => { s' with st := .busy .pad }))

/-- The last line of 44_encoder.md R215. -/
def finishEncode (s : State) : Out := .next (finish s.out.length s)

end Sys2Proof.Machine
end

