-- ==== Sys2Proof/Machine/Engine.lean ====
section
/-! DEFINITION. What one step does: which agent moves, the engine's own moves between instructions (40_tokenizer.md
R121, 44_encoder.md R215, 42_overlay.md R170), and the host's actions (46_commands.md R260 to R271). Machine/Step.lean
only calls this file. -/

namespace Sys2Proof.Machine

/-! ## The engine. `none`: it waits for the host (46_commands.md R268), or no command runs. -/

/-- A unit of the token stream: the instruction its bytes decode to, run; or the end of the input inside it, its bytes
consumed (40_tokenizer.md R129); or a byte past `MAX_IN` (60_exceptions.md R296); or a wait. -/
def runUnit (slot : Slot) (s : State) : Option Out :=
  match decode slot s.view.bytes with
  | .ok (i, _) => some (exec i s)
  | .error _ =>
    match s.view.stop with
    | .wait => none
    | .eoi => some (endTokens true (consume s.view.bytes.length s))
    | .full => some (.next (raise .formatCapacity 0 none (consume s.view.bytes.length s)))

/-- A token step (40_tokenizer.md R121), in two steps of the model where it fetches a flag byte first. -/
def tokenStep (s : State) : Option Out :=
  if s.size ≤ s.total then some (endTokens false s)
  else if s.fcnt = 0 then runUnit .flag s
  else runUnit s.tokenSlot (takeFlagBit s)

/-- The error of a header cut short (41_decoder.md R155, 45_verifier.md R241). -/
def shortHeaderCode (s : State) : ErrCode :=
  if s.op = opVerify then .verifyShortHeader else .formatShortHeader

/-- The error of an unknown tag (41_decoder.md R155, 45_verifier.md R241). -/
def badTagCode (s : State) : ErrCode :=
  if s.op = opVerify then .verifyBadTag else .formatBadTag

/-- The header of a `DECODE` or `VERIFY` input (41_decoder.md R155, 45_verifier.md R241). -/
def headerStep (s : State) : Option Out :=
  match decode .header s.view.bytes with
  | .ok (i, _) => some (exec i s)
  | .error (.badTag _) => some (.next (raise (badTagCode s) 0 none (consume headerLen s)))
  | .error _ =>
    match s.view.stop with
    | .wait => none
    | .eoi => some (.next (raise (shortHeaderCode s) 0 none (consume s.view.bytes.length s)))
    | .full => some (.next (raise .formatCapacity 0 none (consume s.view.bytes.length s)))

/-- Whether the running command is `ENCODE10` or `ENCODE11`. -/
def State.encoding (s : State) : Bool := s.op == opEncode10 || s.op == opEncode11

/-- One byte of a command that reads its whole input: for the encoders the size test comes first (44_encoder.md R216,
60_exceptions.md R298), then the capacity. -/
def gatherStep (s : State) : Option Out :=
  match s.view.bytes with
  | b :: _ =>
    if s.encoding = true ∧ sizeMax ≤ s.inp.length then
      some (.next (raise .encodeSizeRange 0 none s))
    else some (.next { consume 1 s with inp := s.inp ++ [b] })
  | [] =>
    match s.view.stop with
    | .wait => none
    | .eoi =>
      if s.encoding then some (startEncode s)
      else some (.next { s with len := s.inp.length, st := .busy .trailer })
    | .full =>
      if s.encoding = true ∧ sizeMax ≤ s.inp.length then
        some (.next (raise .encodeSizeRange 0 none s))
      else some (.next (raise .formatCapacity 0 none s))

/-- The trailer of an `OVERLAY` input, its last 8 bytes (42_overlay.md R171, R172). -/
def trailerStep (s : State) : Out :=
  match decode .trailer (s.inp.drop (s.len - trailerLen)) with
  | .ok (i, _) => if s.len < trailerLen then .next (raise .formatBadTrailer 0 none s) else exec i s
  | .error _ => .next (raise .formatBadTrailer 0 none s)

/-- The engine's next move. -/
def engine (s : State) : Option Out :=
  match s.st with
  | .idle => none
  | .done => none
  | .error => none
  | .busy .header => headerStep s
  | .busy .gather => gatherStep s
  | .busy .trailer => some (trailerStep s)
  | .busy .tokens => tokenStep s
  | .busy .search => some (searchStep s)
  | .busy .pad => some (exec (.pad (padCount s.out.length)) s)
  | .busy .finish => some (finishEncode s)

/-! ## The host -/

/-- One action of the host. A write to CMD runs the command word's instruction. -/
def hostAct (a : HostAction) (s : State) : Out :=
  match a with
  | .writeReg off width val =>
    if wholeWord off width = false then .refused (.registerAccess off width)
    else if off = offCmd then exec (decodeCmd val) s
    else .next (writeRegister off val s)
  | .readReg off width =>
    if wholeWord off width = false then .refused (.registerAccess off width)
    else .next { s with hostData := readRegister s off }
  | .offer x => .next (acceptAnswer x s)
  | .readOut start count => .next (readOutput start count s)
  | .alterInput _ _ => if s.busy then .refused .inputAltered else .next s
  | .reset => .next (hostReset s)

/-! ## The step -/

/-- The host action whose turn it is, and the state with it taken from the queue: the next one, once its delay has run
out or the engine waits. -/
def hostTurn (s : State) : Option (HostAction × State) :=
  match s.hostQ with
  | [] => none
  | t :: q =>
    if t.delay = 0 ∨ (engine s).isNone = true then some (t.act, { s with hostQ := q }) else none

/-- An engine step passes before the next host action. -/
def countDelay (s : State) : State :=
  match s.hostQ with
  | [] => s
  | t :: q => { s with hostQ := { t with delay := t.delay - 1 } :: q }

/-- One step: the host's turn, or the engine's; with nothing to do on either side the block stays as it is, for the
block waits without limit (70_reset_and_hazards.md R310, R319). -/
def stepOnce (s : State) : Out :=
  match hostTurn s with
  | some (a, s') => hostAct a s'
  | none =>
    match engine (countDelay s) with
    | some o => o
    | none => .next s

/-! ## Placing one instruction where the next step fetches it (assumption 8) -/

/-- The next host action lets one more engine step pass. -/
def holdHost (s : State) : State :=
  match s.hostQ with
  | [] => s
  | t :: q => { s with hostQ := { t with delay := t.delay + 1 } :: q }

/-- A running decode command of the variant, at a token step that has at least one byte to produce, the bytes next in
the port. -/
def placeUnit (v : Variant) (fcnt : Nat) (flags : BitVec 8) (bytes : List Byte) (s : State) : State :=
  { holdHost s with
    st := .busy .tokens
    op := match v with
      | .v10 => opDecodeRaw10
      | .v11 => opDecodeRaw11
    variant := v
    size := s.total + 1
    fcnt := fcnt
    flags := flags
    inPort := bytes.map InAnswer.byte ++ s.inPort }

/-- The state whose next step fetches the bytes as an instruction of the slot. -/
def placeWord (slot : Slot) (bytes : List Byte) (s : State) : State :=
  match slot with
  | .header =>
    { holdHost s with
      st := .busy .header
      op := opDecode
      inPort := bytes.map InAnswer.byte ++ s.inPort }
  | .flag => placeUnit .v10 0 s.flags bytes s
  | .literal => placeUnit .v10 1 0x00#8 bytes s
  | .match10 => placeUnit .v10 1 0x80#8 bytes s
  | .match11 => placeUnit .v11 1 0x80#8 bytes s
  | .trailer =>
    { holdHost s with
      st := .busy .trailer
      op := opOverlay
      inp := s.inp ++ bytes
      len := (s.inp ++ bytes).length }
  | .padding =>
    { holdHost s with
      st := .busy .pad
      op := opEncode10
      out := List.replicate (4 - bytes.length) 0 }
  | .command =>
    match bytes with
    | b0 :: b1 :: b2 :: b3 :: _ =>
      { s with
        hostQ := { delay := 0, act := .writeReg offCmd 4 (le32 b0 b1 b2 b3) } :: s.hostQ }
    | _ => s

/-- The table word's instruction placed; nothing where the table word has no slot. -/
def placeTableWord (nbits w : Nat) (s : State) : State :=
  match tableSlot nbits w with
  | none => s
  | some slot => placeWord slot (tableStream slot nbits w) s

end Sys2Proof.Machine
end

