-- ==== Sys2Proof/Machine/Step.lean ====
section
/-! DEFINITION. The step of the machine and the placing of one table word, both only calls of Machine/Engine.lean. -/

namespace Sys2Proof.Machine

/-- One step of the block and its host (46_commands.md R270). -/
def step (s : State) : Host.Outcome State Fault Refusal := stepOnce s

/-- The state whose very next step runs the instruction of a table word (assumption 8). -/
def State.withFetchWord (s : State) (nbits w : Nat) : State := placeTableWord nbits w s

end Sys2Proof.Machine
end

