-- ==== Sys2Proof/Safety.lean ====
section
/-! DEFINITION. What counts as a safe run, in the terms the statements use: the invariants of the block, what an error
leaves on record, and the decode side of a token's effect. -/

namespace Sys2Proof.Machine

/-- A step stops with no fault. -/
def NoFault (s : State) : Prop := ∀ r : Fault, step s ≠ .fault r

/-- What the host finds after an error (60_exceptions.md R299): the state, the code, the two offsets, the count, and no
output. -/
structure ErrorRecord (t : State) (e : ErrCode) (off : Word) (foff : Word) (res : Word) : Prop where
  state : t.st = .error
  kind : t.errKind = e.kind
  sub : t.errSub = e.sub
  offset : t.erroff = off
  flagOffset : t.errfoff = foff
  count : t.result = res
  noOutput : t.out = []
  portClosed : t.inPort = []

/-- The engine's turn: no host action comes before its next move. -/
def EngineTurn (s : State) : Prop := hostTurn s = none

/-- The offsets and counts an error may record fit their registers. -/
def CountsFit (s : State) : Prop :=
  s.ip + 8 < 4294967296 ∧ s.tpos < 4294967296 ∧ s.total < 4294967296 ∧
    (∀ f, s.fpos = some f → f < 4294967296)

/-- FPOS as a register holds it. -/
def fposWord (s : State) : Word :=
  match s.fpos with
  | none => noneWord
  | some f => BitVec.ofNat 32 f

/-- WIN in canonical form, and no address beyond its 4096 bytes (10_state.md R28). -/
def WindowCanonical (s : State) : Prop :=
  Memory.wf s.win = true ∧ ∀ c ∈ s.win, c.1 < windowSize

/-- WIN holds the last 4096 bytes already encoded (10_state.md R28, 43_match_finder.md R190). -/
structure WindowHolds (s : State) : Prop where
  posInside : s.pos ≤ s.inp.length
  fill : s.wfill = min s.pos windowSize
  bytes : ∀ i, s.pos - windowSize ≤ i → i < s.pos → s.inp[i]? = some (s.winByte i)

/-- The host-visible registers agree with STATE (10_state.md R34 to R37, 46_commands.md R266, R269, 60_exceptions.md
R281). -/
structure RegistersAgree (s : State) : Prop where
  noError : s.st ≠ .error →
    s.errKind = 0 ∧ s.errSub = 0 ∧ s.erroff = 0 ∧ s.errfoff = noneWord
  listedError : s.st = .error → ∃ e : ErrCode, s.errKind = e.kind ∧ s.errSub = e.sub
  noResult : s.st = .idle ∨ s.busy = true → s.result = 0
  noOutput : s.st = .idle ∨ s.st = .error → s.out = []
  portClosed : s.busy = false → s.inPort = []

/-- The phases each command goes through (46_commands.md R263). -/
def phaseFits (op : BitVec 4) : Phase → Bool
  | .header => op == opDecode || op == opVerify
  | .gather => op == opOverlay || op == opEncode10 || op == opEncode11
  | .trailer => op == opOverlay
  | .tokens =>
    op == opDecode || op == opDecodeRaw10 || op == opDecodeRaw11 || op == opOverlay || op == opVerify
  | .search => op == opEncode10 || op == opEncode11
  | .pad => op == opEncode10 || op == opEncode11
  | .finish => op == opEncode10 || op == opEncode11

/-- TOTAL is the length of the output a decode command has built, and never passes SIZE; the verifier builds none
(10_state.md R24, R39, 41_decoder.md R154). In OVERLAY, L is the length of the file, and the inner decode has the sizes
and the source of a valid trailer (42_overlay.md R170 to R175). -/
structure LengthsAgree (s : State) : Prop where
  phase : ∀ p, s.st = .busy p → phaseFits s.op p = true
  atHeader : s.st = .busy .header → s.out = [] ∧ s.total = 0
  decoding : s.st = .busy .tokens → s.op ≠ opVerify → s.total = s.out.length ∧ s.total ≤ s.size
  verifying : s.op = opVerify → s.st = .busy .tokens ∨ s.st = .done → s.out = []
  overlayInput : s.op = opOverlay → s.st = .busy .trailer ∨ s.st = .busy .tokens →
    s.len = s.inp.length
  overlaySizes : s.op = opOverlay → s.st = .busy .tokens →
    s.endDelta.toNat ≤ s.len ∧ s.padding.toNat ≤ s.endDelta.toNat ∧
      s.size = s.startDelta.toNat + s.endDelta.toNat
  overlaySource : s.op = opOverlay → s.st = .busy .tokens → s.src = (overlayRegion s).reverse

/-- The small counters stay in their ranges (10_state.md R23, R26, R28). -/
structure CountersInRange (s : State) : Prop where
  flagBits : s.fcnt ≤ 8
  dispExtra : s.dispExtra = 1 ∨ s.dispExtra = 3
  chunkCount : s.ccnt = s.chunk.length
  chunkBound : s.ccnt ≤ 8
  chunkOpen : s.busy = true → s.ccnt < 8

/-- The output of an encode command is a multiple of 4 bytes from the padding on (44_encoder.md R225). -/
def PaddedOutput (s : State) : Prop :=
  (s.st = .busy .finish ∨ (s.st = .done ∧ s.encoding = true)) → s.out.length % 4 = 0

/-- A host's run of one command from reset (46_commands.md R270): RAWSIZE, the command word, then the input's bytes and
EOI, each action as soon as its turn comes. -/
def commandRun (c : Config) (rawsize w : Word) (input : List Byte) : State :=
  { State.reset with
    config := c
    hostQ :=
      { delay := 0, act := .writeReg offRawsize 4 rawsize } ::
      { delay := 0, act := .writeReg offCmd 4 w } ::
      ((input.map InAnswer.byte ++ [InAnswer.eoi]).map (fun a => { delay := 0, act := .offer a })) }

/-- The run from `s` reaches `t`, where no command runs and the host has nothing left to do. -/
def EndsIn (s t : State) : Prop :=
  t.busy = false ∧ t.hostQ = [] ∧ ∃ n, Sys2Proof.core.run n s = .next t

/-- What OVERLAY leaves when its inner decode has ended in `s` (42_overlay.md R177, R178): the untouched prefix, then the
decoded bytes in file order, `L + START_DELTA` bytes in all. -/
structure Spliced (s t : State) : Prop where
  done : t.st = .done
  length : t.out.length = s.len + s.startDelta.toNat
  result : t.result = BitVec.ofNat 32 (s.len + s.startDelta.toNat)
  before : ∀ k, k < s.len - s.endDelta.toNat → t.out[k]? = s.inp[k]?
  decoded : ∀ k, k < s.size →
    t.out[s.len - s.endDelta.toNat + k]? = s.out[s.size - 1 - k]?

/-- The bytes a group of tokens is written as: its flag byte, then each token's bytes (44_encoder.md R218). -/
def PacksTo (s : State) (es : List ChunkEntry) (bs : List Byte) : Prop :=
  ∃ bss : List (List Byte),
    List.Forall₂ (fun e b => packToken s.variant s.dispExtra e.tok = .ok b) es bss ∧
    bs = flagByte (es.map (fun e => e.tok)) 0 :: bss.flatten

/-- The first token of a group that cannot be packed, its error and where it starts, the bytes before it within MAX_OUT
(44_encoder.md R228). -/
def PackFails (s : State) (es : List ChunkEntry) (c : ErrCode) (off : Nat) : Prop :=
  ∃ (es1 es2 : List ChunkEntry) (e : ChunkEntry) (bs : List Byte), es = es1 ++ e :: es2 ∧
    PacksTo s es1 bs ∧ s.overOut (s.out.length + bs.length) = false ∧
    packToken s.variant s.dispExtra e.tok = .error c ∧ e.start = off

/-- The chunk with the match finder's token at `POS`, whose byte is `v`, added (43_match_finder.md R195). -/
def chunkWith (s : State) (v : Byte) : List ChunkEntry :=
  s.chunk ++ [{ tok := s.searchToken v, start := s.pos }]

/-- The token a match instruction stands for, in the running mode (30_encoding.md R84 to R87). -/
def matchOf (s : State) : Instr → Option (Nat × Nat)
  | .m10 l d => some (l.toNat + 3, d.toNat + s.dispExtra)
  | .m11e8 n d => some (n.toNat + 0x11, d.toNat + 1)
  | .m11e16 n d => some (n.toNat + 0x111, d.toNat + 1)
  | .m11s i d => some (i.toNat + 1, d.toNat + 1)
  | _ => none

/-- The port after `n` bytes are taken; the inner decode of `OVERLAY` takes none from it. -/
def portAfter (n : Nat) (s : State) : List InAnswer :=
  if s.readsSrc then s.inPort else s.inPort.drop n

/-- What every command starts from, register by register (46_commands.md R262), and what it leaves as it was. -/
structure FreshCommand (op : BitVec 4) (ovl : Bool) (s t : State) : Prop where
  opcode : t.op = op
  overlayMode : t.ovl = ovl
  format : t.variant =
    if op = 2#4 ∨ op = 5#4 ∨ op = 4#4 then .v10
    else if op = 3#4 ∨ op = 6#4 then .v11 else s.variant
  extra : t.dispExtra = if (op = 2#4 ∧ ovl = true) ∨ op = 4#4 then 3 else 1
  declared : t.size = if op = 2#4 ∨ op = 3#4 then s.rawsize.toNat else 0
  token : t.ip = 0 ∧ t.fcnt = 0 ∧ t.fpos = none ∧ t.tpos = 0 ∧ t.total = 0
  buffers : t.inp = [] ∧ t.out = [] ∧ t.src = []
  encoder : t.pos = 0 ∧ t.wfill = 0 ∧ t.chunk = [] ∧ t.ccnt = 0
  overlay : t.len = 0 ∧ t.endField = 0 ∧ t.startDelta = 0 ∧ t.padding = 0 ∧ t.endDelta = 0
  stream : t.inPort = []
  kept : t.flags = s.flags ∧ t.win = s.win ∧ t.rawsize = s.rawsize
  host : t.hostQ = s.hostQ ∧ t.hostData = s.hostData ∧ t.hostBytes = s.hostBytes ∧
    t.config = s.config

/-- No error and no result on the host's registers, as a command starts (46_commands.md R262). -/
structure CleanRegisters (t : State) : Prop where
  result : t.result = 0
  kind : t.errKind = 0
  sub : t.errSub = 0
  offset : t.erroff = 0
  flagOffset : t.errfoff = 0xFFFFFFFF#32

/-- An illegal command's whole effect (46_commands.md R261, 60_exceptions.md R297). -/
def EntersIllegal (i : Instr) (op : BitVec 4) (ovl : Bool) : Prop :=
  ∀ s : State, s.busy = false → ∃ t, exec i s = .next t ∧
    ErrorRecord t .commandIllegal 0 0xFFFFFFFF#32 0 ∧ FreshCommand op ovl s t

/-- A legal command's whole effect where it ends in the phase `p` (46_commands.md R260, R262). -/
def Starts (i : Instr) (op : BitVec 4) (ovl : Bool) (p : Phase) (s : State) : Prop :=
  ∃ t, exec i s = .next t ∧ t.st = .busy p ∧ FreshCommand op ovl s t ∧ CleanRegisters t ∧
    t.freeIx = s.freeIx

/-- Legality of a CMD word, field by field (46_commands.md R261). -/
def LegalWord (w : Word) : Prop :=
  w.toNat / 32 = 0 ∧ 1 ≤ w.toNat % 16 ∧ w.toNat % 16 ≤ 7 ∧
    (w.toNat / 16 % 2 = 0 ∨ w.toNat % 16 = 2)

end Sys2Proof.Machine
end

