-- ==== Sys2Proof/Certificates/Slice0/Obligations.lean ====
section
/-! DEFINITION. The statements for the provers. Each docstring names the rule of spec/ it formalises. -/

open Sys2Proof Sys2Proof.Machine

/-! ## Reset and the register space -/

/-- 10_state.md R42: what reset leaves. -/
def Obligations.ResetLeavesStatedValues : Prop :=
  State.reset.st = .idle ∧
  readRegister State.reset 0x00 = 0 ∧ readRegister State.reset 0x04 = 0 ∧
  State.reset.rawsize = 0 ∧ readRegister State.reset 0x08 = 0 ∧
  readRegister State.reset 0x0C = 0 ∧
  State.reset.result = 0 ∧ readRegister State.reset 0x10 = 0 ∧
  State.reset.erroff = 0 ∧ readRegister State.reset 0x14 = 0 ∧
  State.reset.errfoff = 0xFFFFFFFF#32 ∧ readRegister State.reset 0x18 = 0xFFFFFFFF#32 ∧
  State.reset.ip = 0 ∧ State.reset.fcnt = 0 ∧ State.reset.fpos = none ∧ State.reset.total = 0 ∧
  State.reset.tpos = 0 ∧ State.reset.op = 0 ∧ State.reset.ovl = false ∧ State.reset.size = 0 ∧
  State.reset.out = [] ∧ State.reset.pos = 0 ∧ State.reset.wfill = 0 ∧ State.reset.ccnt = 0 ∧
  State.reset.chunk = [] ∧ State.reset.len = 0 ∧ State.reset.endField = 0 ∧
  State.reset.startDelta = 0 ∧ State.reset.padding = 0 ∧ State.reset.endDelta = 0 ∧
  State.reset.src = [] ∧ State.reset.inp = [] ∧ State.reset.inPort = []

/-- 70_reset_and_hazards.md R310: reset in any state, busy or not. The parameters and what belongs to the host stay,
which is the model's choice (assumption 10); FLAGS, VARIANT, DISP_EXTRA and WIN, whose value the rule leaves open, are
not in the statement. -/
def Obligations.HostResetAbandonsAnyCommand : Prop :=
  ∀ s : State, ∃ t, hostAct .reset s = .next t ∧
    t.st = .idle ∧ t.errKind = 0 ∧ t.errSub = 0 ∧ t.rawsize = 0 ∧ t.result = 0 ∧ t.erroff = 0 ∧
    t.errfoff = 0xFFFFFFFF#32 ∧ t.op = 0 ∧ t.ovl = false ∧ t.size = 0 ∧ t.ip = 0 ∧ t.fcnt = 0 ∧
    t.fpos = none ∧ t.tpos = 0 ∧ t.total = 0 ∧ t.inp = [] ∧ t.out = [] ∧ t.pos = 0 ∧
    t.wfill = 0 ∧ t.chunk = [] ∧ t.ccnt = 0 ∧ t.len = 0 ∧ t.endField = 0 ∧ t.startDelta = 0 ∧
    t.padding = 0 ∧ t.endDelta = 0 ∧ t.src = [] ∧ t.inPort = [] ∧
    t.config = s.config ∧ t.hostQ = s.hostQ ∧ t.hostData = s.hostData ∧ t.hostBytes = s.hostBytes

/-- 10_state.md R38: offsets 0x1C and above. -/
def Obligations.UnmappedOffsetsReadZero : Prop :=
  ∀ (s : State) (off : Nat) (v : Word), 0x1C ≤ off → off % 4 = 0 →
    hostAct (.readReg off 4) s = .next { s with hostData := 0 } ∧
    hostAct (.writeReg off 4 v) s = .next s

/-- 10_state.md R34: STATUS, read-only, its fields, and no error in it unless STATE is ERROR. Beside it 10_state.md R31,
R32, R33, R35 to R37 and 46_commands.md R266: in every state each of the other registers reads as what it holds, CMD and
CTRL as 0, the read-only ones ignore writes, and while BUSY no result and no error can be read. -/
def Obligations.StatusShowsStateAndError : Prop :=
  readRegister State.reset 0x0C = 0 ∧
  (∀ (s : State) (v : Word), RegistersAgree s → ∃ w : Word,
    hostAct (.readReg 0x0C 4) s = .next { s with hostData := w } ∧
    hostAct (.writeReg 0x0C 4 v) s = .next s ∧
    w.extractLsb' 0 2 = (match s.st with
      | .idle => 0#2
      | .busy _ => 1#2
      | .done => 2#2
      | .error => 3#2) ∧
    w.extractLsb' 2 2 = 0#2 ∧ w.extractLsb' 4 4 = s.errKind ∧ w.extractLsb' 8 4 = s.errSub ∧
    w.extractLsb' 12 20 = 0#20 ∧
    (s.st ≠ .error → w.extractLsb' 4 4 = 0#4 ∧ w.extractLsb' 8 4 = 0#4)) ∧
  (∀ (s : State) (v : Word),
    hostAct (.readReg 0x00 4) s = .next { s with hostData := 0 } ∧
    hostAct (.readReg 0x04 4) s = .next { s with hostData := 0 } ∧
    hostAct (.readReg 0x08 4) s = .next { s with hostData := BitVec.ofNat 32 s.rawsize.toNat } ∧
    hostAct (.readReg 0x10 4) s = .next { s with hostData := s.result } ∧
    hostAct (.readReg 0x14 4) s = .next { s with hostData := s.erroff } ∧
    hostAct (.readReg 0x18 4) s = .next { s with hostData := s.errfoff } ∧
    hostAct (.writeReg 0x10 4 v) s = .next s ∧ hostAct (.writeReg 0x14 4 v) s = .next s ∧
    hostAct (.writeReg 0x18 4 v) s = .next s) ∧
  (∀ s : State, RegistersAgree s → s.busy = true →
    hostAct (.readReg 0x10 4) s = .next { s with hostData := 0 } ∧
    hostAct (.readReg 0x14 4) s = .next { s with hostData := 0 } ∧
    hostAct (.readReg 0x18 4) s = .next { s with hostData := 0xFFFFFFFF#32 })

/-- 10_state.md R33: RAWSIZE, its reserved bits, the write while BUSY, and the copy to SIZE. -/
def Obligations.RawsizeHolds24Bits : Prop :=
  State.reset.rawsize = 0 ∧
  ∀ (s : State) (v : Word),
    (s.busy = false → ∃ t, hostAct (.writeReg 0x08 4 v) s = .next t ∧
      t = { s with rawsize := t.rawsize } ∧ t.rawsize.toNat = v.toNat % 16777216 ∧
      (readRegister t 0x08).toNat = v.toNat % 16777216) ∧
    (s.busy = true → hostAct (.writeReg 0x08 4 v) s = .next s) ∧
    (s.busy = false → ∀ (ovl : Bool) (t : State),
      (exec (.cmdDecodeRaw10 ovl) s = .next t → t.size = s.rawsize.toNat) ∧
      (exec .cmdDecodeRaw11 s = .next t → t.size = s.rawsize.toNat))

/-- 20_memory.md R67: an access that is not a whole aligned word is refused by name. -/
def Obligations.NarrowAccessesAreRefused : Prop :=
  ∀ (s : State) (off width : Nat) (v : Word), (width ≠ 4 ∨ off % 4 ≠ 0) →
    hostAct (.readReg off width) s = .refused (.registerAccess off width) ∧
    hostAct (.writeReg off width v) s = .refused (.registerAccess off width)

/-- 46_commands.md R265: CTRL.ABORT on a running command, and no effect otherwise. -/
def Obligations.AbortEndsRunningCommand : Prop :=
  ∀ (s : State) (v : Word),
    (s.busy = true → v.getLsbD 0 = true → ∃ t, hostAct (.writeReg 0x04 4 v) s = .next t ∧
      t.st = .idle ∧ t.out = [] ∧ t.result = 0 ∧ t.errKind = 0 ∧ t.errSub = 0 ∧ t.erroff = 0 ∧
      t.errfoff = 0xFFFFFFFF#32 ∧ engine t = none ∧
      t = { s with st := .idle, out := [], result := 0, errKind := 0, errSub := 0, erroff := 0,
                   errfoff := 0xFFFFFFFF#32, inPort := [] }) ∧
    ((s.busy = false ∨ v.getLsbD 0 = false) → hostAct (.writeReg 0x04 4 v) s = .next s)

/-- 46_commands.md R269, 20_memory.md R74: the output port shows OUT at DONE and the empty sequence otherwise. That a
read past the last index delivers fewer bytes is the model's choice (assumption 16). -/
def Obligations.OutputIsVisibleAtDoneOnly : Prop :=
  ∀ (s : State) (start count : Nat), ∃ t, hostAct (.readOut start count) s = .next t ∧
    t = { s with hostBytes := t.hostBytes } ∧
    (s.st ≠ .done → t.hostBytes = []) ∧
    (s.st = .done → ∀ k, k < count → t.hostBytes[k]? = s.out[start + k]?) ∧
    (s.st = .done → t.hostBytes.length = min count (s.out.length - start))

/-! ## Command words -/

/-- 46_commands.md R266: while BUSY, a write to CMD or to RAWSIZE changes nothing. -/
def Obligations.BusyWritesAreIgnored : Prop :=
  ∀ (s : State) (w : Word), s.busy = true →
    exec (decodeCmd w) s = .next s ∧ hostAct (.writeReg 0x00 4 w) s = .next s ∧
    hostAct (.writeReg 0x08 4 w) s = .next s

/-- 46_commands.md R261: which words are legal, and what an illegal one does. -/
def Obligations.IllegalWordsEndInError : Prop :=
  ∀ (s : State) (w : Word), s.busy = false → ∃ t, exec (decodeCmd w) s = .next t ∧
    (¬ LegalWord w → ErrorRecord t .commandIllegal 0 0xFFFFFFFF#32 0) ∧
    (LegalWord w → ¬ (t.errKind = ErrCode.commandIllegal.kind ∧
      t.errSub = ErrCode.commandIllegal.sub))

/-- 60_exceptions.md R297, 46_commands.md R261: every illegal row of the opcode table, row by row. The words that
two rows share belong to one of them by assumption 5; both rows have this effect. -/
def Obligations.IllegalRowsTakeTheErrorEntry : Prop :=
  (∀ ovl, EntersIllegal (.cmdReserved0 ovl) 0x0#4 ovl) ∧
  (∀ ovl, EntersIllegal (.cmdReserved8 ovl) 0x8#4 ovl) ∧
  (∀ ovl, EntersIllegal (.cmdReserved9 ovl) 0x9#4 ovl) ∧
  (∀ ovl, EntersIllegal (.cmdReservedA ovl) 0xA#4 ovl) ∧
  (∀ ovl, EntersIllegal (.cmdReservedB ovl) 0xB#4 ovl) ∧
  (∀ ovl, EntersIllegal (.cmdReservedC ovl) 0xC#4 ovl) ∧
  (∀ ovl, EntersIllegal (.cmdReservedD ovl) 0xD#4 ovl) ∧
  (∀ ovl, EntersIllegal (.cmdReservedE ovl) 0xE#4 ovl) ∧
  (∀ ovl, EntersIllegal (.cmdReservedF ovl) 0xF#4 ovl) ∧
  (∀ op, EntersIllegal (.cmdIllegalOvl op) op true) ∧
  (∀ rsvd ovl op, EntersIllegal (.cmdIllegalRsvd rsvd ovl op) op ovl)

/-- 46_commands.md R262: every command word written while not BUSY starts from the same state. -/
def Obligations.EveryCommandStartsFresh : Prop :=
  ∀ (s : State) (w : Word), s.busy = false → ∃ t, exec (decodeCmd w) s = .next t ∧
    FreshCommand (w.extractLsb' 0 4) (w.getLsbD 4) s t ∧ (t.st ≠ .error → CleanRegisters t)

/-- 41_decoder.md R155, 45_verifier.md R240, 46_commands.md R268: the header-framed commands start by awaiting the header,
OVERLAY and the encoders by reading the whole input. -/
def Obligations.CommandsAwaitTheirInput : Prop :=
  ∀ s : State, s.busy = false →
    Starts .cmdDecode 0x1#4 false .header s ∧ Starts .cmdVerify 0x7#4 false .header s ∧
    Starts .cmdOverlay 0x4#4 false .gather s ∧ Starts .cmdEncode10 0x5#4 false .gather s ∧
    Starts .cmdEncode11 0x6#4 false .gather s

/-- 41_decoder.md R150, 46_commands.md R267: the raw decodes start at a token step, or end with FORMAT.CAPACITY when
SIZE passes MAX_OUT. -/
def Obligations.RawCommandsStartTokens : Prop :=
  ∀ (s : State) (ovl : Bool), s.busy = false →
    (s.overOut s.rawsize.toNat = false →
      Starts (.cmdDecodeRaw10 ovl) 0x2#4 ovl .tokens s ∧
      Starts .cmdDecodeRaw11 0x3#4 false .tokens s) ∧
    (s.overOut s.rawsize.toNat = true →
      (∃ t, exec (.cmdDecodeRaw10 ovl) s = .next t ∧
        ErrorRecord t .formatCapacity 0 0xFFFFFFFF#32 0) ∧
      (∃ t, exec .cmdDecodeRaw11 s = .next t ∧ ErrorRecord t .formatCapacity 0 0xFFFFFFFF#32 0))

/-! ## The header -/

/-- 41_decoder.md R155, 45_verifier.md R240, R241: a legal header's effect and its frame, for a decode, which starts with
an empty OUT, and for the verifier, which leaves OUT as it is; 60_exceptions.md R296 where the size of a decode passes
MAX_OUT, which takes a MAX_OUT below R7's range. The four bytes are read at once (the model's choice, assumption 2). -/
def Obligations.HeaderStartsItsCommand : Prop :=
  ∀ (s : State) (size : BitVec 24),
    (s.op ≠ opVerify → s.overOut size.toNat = false →
      exec (.hdr10 size) s = .next { s with
        variant := .v10, size := size.toNat, dispExtra := 1, ip := s.ip + 4,
        inPort := portAfter 4 s, out := [], total := 0, fcnt := 0, fpos := none,
        st := .busy .tokens } ∧
      exec (.hdr11 size) s = .next { s with
        variant := .v11, size := size.toNat, dispExtra := 1, ip := s.ip + 4,
        inPort := portAfter 4 s, out := [], total := 0, fcnt := 0, fpos := none,
        st := .busy .tokens }) ∧
    (s.op ≠ opVerify → s.overOut size.toNat = true →
      (∃ t, exec (.hdr10 size) s = .next t ∧
        ErrorRecord t .formatCapacity 0 0xFFFFFFFF#32 0) ∧
      (∃ t, exec (.hdr11 size) s = .next t ∧
        ErrorRecord t .formatCapacity 0 0xFFFFFFFF#32 0)) ∧
    (s.op = opVerify →
      exec (.hdr10 size) s = .next { s with
        variant := .v10, size := size.toNat, dispExtra := 1, ip := s.ip + 4,
        inPort := portAfter 4 s, total := 0, fcnt := 0, fpos := none, st := .busy .tokens } ∧
      exec (.hdr11 size) s = .next { s with
        variant := .v11, size := size.toNat, dispExtra := 1, ip := s.ip + 4,
        inPort := portAfter 4 s, total := 0, fcnt := 0, fpos := none, st := .busy .tokens })

/-- 60_exceptions.md R291 to R294: a header with another tag, and an input that ends inside the header; and R296 for
DECODE: a header cut by MAX_IN (for VERIFY see PortDeliversAnswersInOrder). -/
def Obligations.BadHeadersAreReported : Prop :=
  ∀ s : State, EngineTurn s → s.st = .busy .header →
    (∀ tag b1 b2 b3 rest, s.view.bytes = tag :: b1 :: b2 :: b3 :: rest →
      tag ≠ 0x10#8 → tag ≠ 0x11#8 → ∃ t, step s = .next t ∧
        (s.op = opVerify → ErrorRecord t .verifyBadTag 0 0xFFFFFFFF#32 0) ∧
        (s.op ≠ opVerify → ErrorRecord t .formatBadTag 0 0xFFFFFFFF#32 0)) ∧
    (s.view.bytes.length < 4 → s.view.stop = .eoi → ∃ t, step s = .next t ∧
      (s.op = opVerify → ErrorRecord t .verifyShortHeader 0 0xFFFFFFFF#32 0) ∧
      (s.op ≠ opVerify → ErrorRecord t .formatShortHeader 0 0xFFFFFFFF#32 0)) ∧
    (s.view.bytes.length < 4 → s.view.stop = .full → s.op ≠ opVerify → ∃ t, step s = .next t ∧
      ErrorRecord t .formatCapacity 0 0xFFFFFFFF#32 0)

/-! ## The input port -/

/-- 46_commands.md R268, 60_exceptions.md R296, 42_overlay.md R176: what the engine can read. The answers come in order;
nothing is read after EOI; a byte that would pass MAX_IN is not delivered; the inner decode of OVERLAY reads SRC, whose
end is EOI. That a VERIFY whose header, flag byte or token is cut by MAX_IN ends in FORMAT.CAPACITY too is the model's
choice (assumption 17). -/
def Obligations.PortDeliversAnswersInOrder : Prop :=
  (∀ (s : State) (bs : List Byte) (later : List InAnswer),
    (s.readsSrc = true → s.view = { bytes := s.src.drop s.ip, stop := .eoi }) ∧
    (s.readsSrc = false → (∀ m, s.config.maxIn = some m → bs.length ≤ m - s.ip) →
      (s.inPort = bs.map InAnswer.byte → s.view = { bytes := bs, stop := .wait }) ∧
      (s.inPort = bs.map InAnswer.byte ++ .eoi :: later →
        s.view = { bytes := bs, stop := .eoi })) ∧
    (∀ m, s.readsSrc = false → s.config.maxIn = some m → m - s.ip < bs.length →
      (s.inPort = bs.map InAnswer.byte ∨ s.inPort = bs.map InAnswer.byte ++ .eoi :: later) →
      s.view = { bytes := bs.take (m - s.ip), stop := .full })) ∧
  (∀ s : State, EngineTurn s → s.op = opVerify → s.view.stop = .full →
    (s.st = .busy .header → s.view.bytes.length < 4 → ∃ t, step s = .next t ∧
      ErrorRecord t .formatCapacity 0 0xFFFFFFFF#32 0) ∧
    (∀ e, s.st = .busy .tokens → s.total < s.size →
      decode s.tokenSlot s.view.bytes = .error e → ∃ t, step s = .next t ∧
        ErrorRecord t .formatCapacity 0 0xFFFFFFFF#32 0))

/-! ## The tokens -/

/-- 40_tokenizer.md R122: the flag byte's effect and frame. -/
def Obligations.FlagByteLoadsFlags : Prop :=
  ∀ (s : State) (f : Byte),
    exec (.flag f) s = .next { s with
      flags := f, fcnt := 8, fpos := some s.ip, ip := s.ip + 1, inPort := portAfter 1 s }

/-- 40_tokenizer.md R123, 41_decoder.md R151: a literal in a decode command, and its frame. -/
def Obligations.LiteralAppendsOneByte : Prop :=
  ∀ (s : State) (v : Byte), s.op ≠ opVerify → ∃ t, exec (.lit v) s = .next t ∧
    t = { s with out := t.out, total := s.total + 1, ip := s.ip + 1, inPort := portAfter 1 s } ∧
    t.out.length = s.out.length + 1 ∧ t.out[s.out.length]? = some v ∧
    ∀ a, a < s.out.length → t.out[a]? = s.out[a]?

/-- 41_decoder.md R152, R153 and 40_tokenizer.md R124 to R127: the four match forms in a decode command. The bytes are
the cyclic copy; everything but OUT, TOTAL, IP and the port stays. -/
def Obligations.MatchCopiesCyclically : Prop :=
  ∀ (s : State) (i : Instr) (len disp : Nat), matchOf s i = some (len, disp) →
    s.op ≠ opVerify → 1 ≤ disp → disp ≤ s.out.length → s.out.length + len ≤ s.size →
    ∃ t, exec i s = .next t ∧
      t = { s with out := t.out, total := s.total + len, ip := s.ip + (encode i).length,
                   inPort := portAfter (encode i).length s } ∧
      t.out.length = s.out.length + len ∧
      (∀ a, a < s.out.length → t.out[a]? = s.out[a]?) ∧
      (∀ k, k < len → t.out[s.out.length + k]? = s.out[s.out.length - disp + k % disp]?)

/-- 45_verifier.md R242: the verifier accepts a literal without a check, and the four match forms where their
displacement passes; it counts the bytes and writes nothing to OUT. -/
def Obligations.VerifierCountsTokens : Prop :=
  ∀ s : State, s.op = opVerify →
    (∀ v : Byte, exec (.lit v) s = .next { s with
      total := s.total + 1, ip := s.ip + 1, inPort := portAfter 1 s }) ∧
    (∀ (i : Instr) (len disp : Nat), matchOf s i = some (len, disp) → 1 ≤ disp →
      disp ≤ s.total → exec i s = .next { s with
        total := s.total + len, ip := s.ip + (encode i).length,
        inPort := portAfter (encode i).length s })

/-- 60_exceptions.md R283, R284: a decode match that reaches before the output, tested first, and one that passes the
declared size. -/
def Obligations.DecodeMatchErrors : Prop :=
  ∀ (s : State) (i : Instr) (len disp : Nat), matchOf s i = some (len, disp) →
    s.op ≠ opVerify → CountsFit s →
    ((disp < 1 ∨ s.out.length < disp) → ∃ t, exec i s = .next t ∧
      ErrorRecord t .decodeDispRange (BitVec.ofNat 32 s.tpos) (fposWord s)
        (BitVec.ofNat 32 s.total)) ∧
    (1 ≤ disp → disp ≤ s.out.length → s.size < s.out.length + len → ∃ t, exec i s = .next t ∧
      ErrorRecord t .decodeOverrun (BitVec.ofNat 32 s.tpos) (fposWord s)
        (BitVec.ofNat 32 s.total))

/-- 60_exceptions.md R288, R289: the verifier's two match errors; the first is unreachable in either mode, because
every format gives a positive displacement. -/
def Obligations.VerifyMatchErrors : Prop :=
  ∀ (s : State) (i : Instr) (len disp : Nat), matchOf s i = some (len, disp) →
    s.op = opVerify → CountsFit s →
    (1 ≤ s.dispExtra → 1 ≤ disp) ∧
    (disp = 0 → ∃ t, exec i s = .next t ∧
      ErrorRecord t .verifyDispNonpositive (BitVec.ofNat 32 s.tpos) (fposWord s)
        (BitVec.ofNat 32 s.total)) ∧
    (1 ≤ disp → s.total < disp → ∃ t, exec i s = .next t ∧
      ErrorRecord t .verifyDispBeforeStart (BitVec.ofNat 32 s.tpos) (fposWord s)
        (BitVec.ofNat 32 s.total))

/-- 45_verifier.md R244, per token: a decoder and a verifier at the same place of the same stream. What the decoder
accepts the verifier accepts with the same count; a bad displacement ends both with the same offsets; an overrun ends
the decoder and leaves the verifier past the declared size. -/
def Obligations.DecoderAndVerifierAgreePerToken : Prop :=
  ∀ (d v : State) (tok : Token), d.op ≠ opVerify → v.op = opVerify →
    d.total = d.out.length → v.total = d.total → v.size = d.size → v.tpos = d.tpos →
    v.fpos = d.fpos → CountsFit d → d.total < d.size → (∀ n m, tok = .matchRef n m → 1 ≤ m) →
    ∃ d' v', emit tok d = .next d' ∧ emit tok v = .next v' ∧
      (d'.st = d.st ∧ v'.st = v.st ∧ v'.total = d'.total ∧ d'.total = d'.out.length ∧
          d'.total ≤ d'.size ∨
        d'.st = .error ∧ v'.st = .error ∧ d'.errKind = 1 ∧ d'.errSub = 3 ∧ v'.errKind = 3 ∧
          v'.errSub = 2 ∧ d'.erroff = v'.erroff ∧ d'.errfoff = v'.errfoff ∧
          d'.result = v'.result ∨
        d'.st = .error ∧ d'.errKind = 1 ∧ d'.errSub = 2 ∧ v'.st = v.st ∧ v'.size < v'.total)

/-- 40_tokenizer.md R121: a step runs the unit the bytes decode to. A flag byte is fetched when FCNT is 0; otherwise one
flag bit is taken and the token runs. A host action due later has its delay counted down. That a
flag byte's fetch is a step of its own and that a whole unit is read at once is the model's choice (assumption 2). -/
def Obligations.StepRunsDecodedUnit : Prop :=
  ∀ (s : State) (i : Instr) (rest : List Byte), EngineTurn s → s.st = .busy .tokens →
    s.total < s.size → decode s.tokenSlot s.view.bytes = .ok (i, rest) →
    (s.fcnt = 0 → step s = exec i (countDelay s)) ∧
    (s.fcnt ≠ 0 → step s = exec i { countDelay s with
      flags := s.flags <<< 1, fcnt := s.fcnt - 1, tpos := s.ip })

/-- 41_decoder.md R155, 42_overlay.md R170, 44_encoder.md R215, 46_commands.md R260: a step runs the header, the
trailer, the padding and the command word, each in a step of its own (the model's choice, assumptions 2, 10, 14). -/
def Obligations.StepRunsFramingAndCommands : Prop :=
  (∀ (s : State) (i : Instr) (rest : List Byte), EngineTurn s → s.st = .busy .header →
    decode .header s.view.bytes = .ok (i, rest) → step s = exec i (countDelay s)) ∧
  (∀ (s : State) (i : Instr) (rest : List Byte), EngineTurn s → s.st = .busy .trailer →
    8 ≤ s.len → decode .trailer (s.inp.drop (s.len - 8)) = .ok (i, rest) →
    step s = exec i (countDelay s)) ∧
  (∀ s : State, EngineTurn s → s.st = .busy .pad →
    step s = exec (.pad (padCount s.out.length)) (countDelay s)) ∧
  (∀ (s : State) (w : Word) (q : List HostTurn),
    s.hostQ = { delay := 0, act := .writeReg 0x00 4 w } :: q →
    step s = exec (decodeCmd w) { s with hostQ := q })

/-- 40_tokenizer.md R128, 41_decoder.md R154: a token step that finds the declared size reached reads nothing and runs
the end check, in every command; before that no step of any command gives DONE. A decode into OUT then is DONE: OUT
stays and has exactly the declared length, and RESULT is that length. What the end check does of a verification and of
OVERLAY is VerifierEndsOnExactLength and OverlaySplicesDecodedTail. -/
def Obligations.DecodeEndsAtDeclaredSize : Prop :=
  ∀ s : State, EngineTurn s → s.st = .busy .tokens →
    (s.size ≤ s.total → step s = endTokens false (countDelay s)) ∧
    (∀ t, s.total < s.size → step s = .next t → t.st ≠ .done) ∧
    (LengthsAgree s → s.op ≠ opVerify → s.op ≠ opOverlay → s.size < 4294967296 →
      s.size ≤ s.total → s.out.length = s.size ∧ step s = .next { countDelay s with
        st := .done, result := BitVec.ofNat 32 s.size, inPort := [], freeIx := s.freeIx + 1 })

/-- 60_exceptions.md R282, 40_tokenizer.md R129: the input ends before SIZE, inside a token or before a flag byte. The
bytes of the fragment are consumed and no token is emitted. And R296 for the decodes: a flag byte or token cut by MAX_IN
(for VERIFY see PortDeliversAnswersInOrder). -/
def Obligations.InputEndsBeforeSize : Prop :=
  ∀ (s : State) (e : DecodeError), EngineTurn s → s.st = .busy .tokens → s.total < s.size →
    decode s.tokenSlot s.view.bytes = .error e →
    (s.view.stop = .eoi → CountsFit s →
      ∃ t, step s = .next t ∧ t.ip = s.ip + s.view.bytes.length ∧ t.total = s.total ∧
        (s.op ≠ opVerify → ErrorRecord t .decodeShortStream
          (BitVec.ofNat 32 (s.ip + s.view.bytes.length)) (fposWord s) (BitVec.ofNat 32 s.total)) ∧
        (s.op = opVerify → ErrorRecord t .verifyLengthMismatch
          (BitVec.ofNat 32 (s.ip + s.view.bytes.length)) (fposWord s) (BitVec.ofNat 32 s.total))) ∧
    (s.view.stop = .full → s.op ≠ opVerify → ∃ t, step s = .next t ∧
      ErrorRecord t .formatCapacity 0 0xFFFFFFFF#32 0)

/-- 45_verifier.md R243: the final length check, after either end of the tokenizer, and in the step that finds the
declared size reached (the step at the end of the input is InputEndsBeforeSize). -/
def Obligations.VerifierEndsOnExactLength : Prop :=
  ∀ s : State, s.op = opVerify → CountsFit s → s.size < 4294967296 →
    (∀ eoi : Bool, ∃ t, endTokens eoi s = .next t ∧
      (s.total ≠ s.size → ErrorRecord t .verifyLengthMismatch (BitVec.ofNat 32 s.ip) (fposWord s)
        (BitVec.ofNat 32 s.total)) ∧
      (s.total = s.size → t.st = .done ∧ t.result = BitVec.ofNat 32 s.size ∧ t.out = s.out)) ∧
    (EngineTurn s → s.st = .busy .tokens → s.size ≤ s.total → ∃ t, step s = .next t ∧
      (s.size < s.total → ErrorRecord t .verifyLengthMismatch (BitVec.ofNat 32 s.ip) (fposWord s)
        (BitVec.ofNat 32 s.total)) ∧
      (s.total = s.size → t.st = .done ∧ t.result = BitVec.ofNat 32 s.size ∧ t.out = s.out))

/-- 40_tokenizer.md R132: a token step that does not end the tokenizer reads at least one input byte, unless the engine
waits for the host. -/
def Obligations.TokenStepsReadInput : Prop :=
  ∀ s t : State, EngineTurn s → s.st = .busy .tokens → step s = .next t →
    t.st = .busy .tokens → s.ip < t.ip ∨ (t = s ∧ engine s = none ∧ s.view.stop = .wait)

/-! ## The overlay -/

/-- 42_overlay.md R171, R174 to R176: a valid trailer's fields, the reversed region, the inner decode's start, and the
frame. -/
def Obligations.ValidTrailerStartsInnerDecode : Prop :=
  ∀ (s : State) (e : BitVec 24) (p : BitVec 8) (sd : BitVec 32), s.len = s.inp.length →
    e.toNat ≤ s.len → p.toNat ≤ e.toNat → s.overOut (s.len + sd.toNat) = false →
    ∃ t, exec (.trl e p sd) s = .next t ∧
      t.endField.toNat = p.toNat * 16777216 + e.toNat ∧ t.startDelta = sd ∧ t.padding = p ∧
      t.endDelta = e ∧ t.size = sd.toNat + e.toNat ∧
      t.src.length = e.toNat - p.toNat ∧
      (∀ k, k < e.toNat - p.toNat → t.src[k]? = s.inp[s.len - p.toNat - 1 - k]?) ∧
      t = { s with
        endField := t.endField, startDelta := sd, padding := p, endDelta := e, size := t.size,
        src := t.src, variant := .v10, dispExtra := 3, out := [], total := 0, fcnt := 0,
        fpos := none, ip := 0, st := .busy .tokens }

/-- 42_overlay.md R172: exactly the trailers that are rejected. Of the others, 42_overlay.md R173, 60_exceptions.md R296:
the inner decode starts where the output is within MAX_OUT, and FORMAT.CAPACITY ends the command where it is not. -/
def Obligations.InvalidTrailersAreRejected : Prop :=
  (∀ s : State, EngineTurn s → s.st = .busy .trailer → s.len < 8 → ∃ t, step s = .next t ∧
    ErrorRecord t .formatBadTrailer 0 0xFFFFFFFF#32 0) ∧
  (∀ (s : State) (e : BitVec 24) (p : BitVec 8) (sd : BitVec 32), s.len - 8 < 4294967296 →
    ∃ t, exec (.trl e p sd) s = .next t ∧
      ((s.len < e.toNat ∨ e.toNat < p.toNat) →
        ErrorRecord t .formatBadTrailer (BitVec.ofNat 32 (s.len - 8)) 0xFFFFFFFF#32 0) ∧
      (e.toNat ≤ s.len → p.toNat ≤ e.toNat →
        (s.overOut (s.len + sd.toNat) = false → t.st = .busy .tokens) ∧
        (s.overOut (s.len + sd.toNat) = true →
          ErrorRecord t .formatCapacity 0 0xFFFFFFFF#32 0)))

/-- 42_overlay.md R177, R178: the splice and the size law, at the tokenizer's end and as the step of the machine that
finds the declared size reached, from every state that meets the invariant LengthsAgree. -/
def Obligations.OverlaySplicesDecodedTail : Prop :=
  (∀ s : State, s.op = opOverlay → s.len = s.inp.length → s.endDelta.toNat ≤ s.len →
    s.size = s.startDelta.toNat + s.endDelta.toNat → s.out.length = s.size →
    s.len + s.startDelta.toNat < 4294967296 →
    ∃ t, endTokens false s = .next t ∧ Spliced s t) ∧
  (∀ s : State, EngineTurn s → LengthsAgree s → s.st = .busy .tokens → s.op = opOverlay →
    s.size ≤ s.total → s.len + s.startDelta.toNat < 4294967296 →
    ∃ t, step s = .next t ∧ Spliced s t)

/-! ## The match finder and the packer -/

/-- 43_match_finder.md R193: the cyclic match length is the longest linear agreement. -/
def Obligations.MatchLengthIsLinear : Prop :=
  ∀ (s : State) (d : Nat), WindowHolds s → 1 ≤ d → d ≤ s.wfill →
    s.matchLen d ≤ s.matchCap ∧
    (∀ k, k < s.matchLen d → s.inp[s.pos + k]? = s.inp[s.pos + k - d]?) ∧
    (s.matchLen d < s.matchCap →
      s.inp[s.pos + s.matchLen d]? ≠ s.inp[s.pos + s.matchLen d - d]?)

/-- 43_match_finder.md R191, R194: the selected match is a longest candidate, ties as ENC_TIE says, and a literal is
emitted exactly when no candidate reaches length 3. -/
def Obligations.SelectionIsLongestFirstFound : Prop :=
  ∀ (s : State) (v : Byte),
    (∀ d, d ∈ s.candidates ↔ s.config.encDmin ≤ d ∧ d ≤ s.wfill) ∧
    (∀ b, s.searchToken v = .literal b → b = v ∧ ∀ d ∈ s.candidates, s.matchLen d < 3) ∧
    (∀ n d, s.searchToken v = .matchRef n d →
      d ∈ s.candidates ∧ n = s.matchLen d ∧ 3 ≤ n ∧
      ∀ d' ∈ s.candidates, s.matchLen d' ≤ n ∧
        (s.matchLen d' = n →
          (s.config.encTie = .nearest → d ≤ d') ∧ (s.config.encTie = .farthest → d' ≤ d)))

/-- 43_match_finder.md R199: a decoder that holds the input up to POS and takes the finder's token then holds the input
up to the token's end. -/
def Obligations.FinderTokenReproducesInput : Prop :=
  ∀ (s d : State) (v : Byte), WindowHolds s → 1 ≤ s.config.encDmin → s.inp[s.pos]? = some v →
    d.op ≠ opVerify → d.out = s.inp.take s.pos →
    s.pos + (s.searchToken v).count ≤ d.size →
    ∃ t, emit (s.searchToken v) d = .next t ∧
      t.out = s.inp.take (s.pos + (s.searchToken v).count) ∧
      s.pos + (s.searchToken v).count ≤ s.inp.length ∧
      t = { d with out := t.out, total := d.total + (s.searchToken v).count }

/-- 43_match_finder.md R198: every token of the finder can be packed, so the packer's range errors never fire on it. -/
def Obligations.FinderTokensArePackable : Prop :=
  ∀ (s : State) (v : Byte), WindowHolds s → 1 ≤ s.config.encDmin →
    (∃ bs, packToken s.variant 1 (s.searchToken v) = .ok bs) ∧
    (∀ n d, s.searchToken v = .matchRef n d →
      3 ≤ n ∧ n ≤ matchMax s.variant ∧ 1 ≤ d ∧ d ≤ 4096)

/-- 44_encoder.md R220 to R224 and 40_tokenizer.md R124 to R127: packing a match in range and decoding the bytes gives the
match; in variant 10 in either displacement mode, in variant 11 with the length of the one tier whose range holds
`len`. -/
def Obligations.PackedMatchesDecode : Prop :=
  ∀ (s : State) (len disp : Nat) (rest : List Byte), 3 ≤ len →
    (len ≤ 18 → s.dispExtra ≤ disp → disp ≤ 4095 + s.dispExtra →
      ∃ bs i, packToken .v10 s.dispExtra (.matchRef len disp) = .ok bs ∧ bs.length = 2 ∧
        decode .match10 (bs ++ rest) = .ok (i, rest) ∧ matchOf s i = some (len, disp)) ∧
    (len ≤ 65808 → 1 ≤ disp → disp ≤ 4096 →
      ∃ bs i, packToken .v11 s.dispExtra (.matchRef len disp) = .ok bs ∧
        bs.length = (if len ≤ 16 then 2 else if len ≤ 272 then 3 else 4) ∧
        decode .match11 (bs ++ rest) = .ok (i, rest) ∧ matchOf s i = some (len, disp))

/-- 60_exceptions.md R285, R286: what the packer refuses, the displacement tested first (44_encoder.md R228). -/
def Obligations.PackerRefusesOutOfRange : Prop :=
  ∀ (dx len disp : Nat),
    ((disp < dx ∨ 4095 + dx < disp) →
      packToken .v10 dx (.matchRef len disp) = .error .encodeDispRange) ∧
    (dx ≤ disp → disp ≤ 4095 + dx → (len < 3 ∨ 18 < len) →
      packToken .v10 dx (.matchRef len disp) = .error .encodeLengthRange) ∧
    ((disp < 1 ∨ 4096 < disp) →
      packToken .v11 dx (.matchRef len disp) = .error .encodeDispRange) ∧
    (1 ≤ disp → disp ≤ 4096 → (len < 3 ∨ 65808 < len) →
      packToken .v11 dx (.matchRef len disp) = .error .encodeLengthRange)

/-- 44_encoder.md R218: token j of a group takes flag bit 7 - j, 1 for a match; bits of absent tokens are 0. -/
def Obligations.FlagByteMarksMatches : Prop :=
  ∀ (ts : List Token) (j : Nat), ts.length ≤ 8 → j < 8 →
    (flagByte ts 0).getLsbD (7 - j) = (match ts[j]? with
      | some (.matchRef _ _) => true
      | some (.literal _) => false
      | none => false)

/-- 44_encoder.md R225, 30_encoding.md R89: the padding's effect and frame, its count, and the multiple of 4 it makes;
R296 where it passes MAX_OUT. After it 44_encoder.md R215, 10_state.md R35: the command is DONE with RESULT the length of
OUT, in a step of its own (the model's choice, assumption 14). -/
def Obligations.PaddingFillsToFour : Prop :=
  (∀ (s : State) (c : Fin 4),
    (s.overOut (s.out.length + c.val) = false → exec (.pad c) s = .next { s with
      out := s.out ++ List.replicate c.val 0xFF#8, st := .busy .finish }) ∧
    (s.overOut (s.out.length + c.val) = true → ∃ t, exec (.pad c) s = .next t ∧
      ErrorRecord t .formatCapacity 0 0xFFFFFFFF#32 0)) ∧
  (∀ n : Nat, (padCount n).val = (4 - n % 4) % 4 ∧ (n + (padCount n).val) % 4 = 0) ∧
  (∀ s : State, EngineTurn s → s.st = .busy .finish → s.out.length < 4294967296 →
    step s = .next { countDelay s with
      st := .done, result := BitVec.ofNat 32 s.out.length, inPort := [],
      freeIx := s.freeIx + 1 })

/-- 44_encoder.md R218: a flush writes the flag byte of the group and then its tokens' bytes in order, and empties the
chunk; nothing else changes. An empty chunk writes nothing. -/
def Obligations.GroupBytesFollowFlagByte : Prop :=
  (∀ s : State, s.ccnt = 0 → flushChunk s = .ok s) ∧
  (∀ (s : State) (bss : List (List Byte)), s.chunk ≠ [] → s.ccnt = s.chunk.length →
    List.Forall₂ (fun e bs => packToken s.variant s.dispExtra e.tok = .ok bs) s.chunk bss →
    s.overOut (s.out.length + 1 + bss.flatten.length) = false →
    flushChunk s = .ok { s with
      out := s.out ++ flagByte (s.chunk.map (fun e => e.tok)) 0 :: bss.flatten,
      chunk := [], ccnt := 0 })

/-- 46_commands.md R268, 44_encoder.md R216, 42_overlay.md R170: how a command that reads its whole input takes the next
answer. An encoder's input stops at 0xFFFFFF bytes, before any capacity error on the same byte; the engine waits for an
answer without any change. One byte a step is the model's choice (assumption 14). -/
def Obligations.InputIsGatheredByteByByte : Prop :=
  ∀ s : State, EngineTurn s → s.st = .busy .gather →
    (∀ b rest, s.view.bytes = b :: rest → (s.encoding = false ∨ s.inp.length < 0xFFFFFF) →
      step s = .next { countDelay s with
        inp := s.inp ++ [b], ip := s.ip + 1, inPort := s.inPort.drop 1 }) ∧
    (s.encoding = true → 0xFFFFFF ≤ s.inp.length → (s.view.bytes ≠ [] ∨ s.view.stop = .full) →
      ∃ t, step s = .next t ∧ ErrorRecord t .encodeSizeRange 0 0xFFFFFFFF#32 0) ∧
    (s.view.bytes = [] → s.view.stop = .full → (s.encoding = false ∨ s.inp.length < 0xFFFFFF) →
      ∃ t, step s = .next t ∧ ErrorRecord t .formatCapacity 0 0xFFFFFFFF#32 0) ∧
    (s.view.bytes = [] → s.view.stop = .eoi → s.encoding = false →
      step s = .next { countDelay s with len := s.inp.length, st := .busy .trailer }) ∧
    (s.view.bytes = [] → s.view.stop = .wait → step s = .next s)

/-- 44_encoder.md R217, R215: the end of an encoder's input writes the header, tag and little-endian size, as the first
four bytes of OUT, and starts the match finder at POS 0; 60_exceptions.md R296 where the header passes MAX_OUT. Doing so
in one step is the model's choice (assumption 14). -/
def Obligations.EncoderStartsWithHeader : Prop :=
  ∀ s : State, EngineTurn s → s.st = .busy .gather → s.encoding = true → s.view.bytes = [] →
    s.view.stop = .eoi → s.inp.length ≤ 0xFFFFFF →
    (s.overOut 4 = false →
      ∃ b1 b2 b3 : Byte, b1.toNat + 256 * b2.toNat + 65536 * b3.toNat = s.inp.length ∧
        step s = .next { countDelay s with
          out := [(match s.variant with | .v10 => 0x10#8 | .v11 => 0x11#8), b1, b2, b3],
          pos := 0, wfill := 0, chunk := [], ccnt := 0, st := .busy .search }) ∧
    (s.overOut 4 = true → ∃ t, step s = .next t ∧
      ErrorRecord t .formatCapacity 0 0xFFFFFFFF#32 0)

/-- 43_match_finder.md R195, 44_encoder.md R218: every turn of the encode loop. While input is left the token joins the
chunk, POS and WFILL advance, and the window changes at the addresses of the token's bytes only; the eighth token
writes the group. At the end of the input a partial group is written and the padding is due. 60_exceptions.md R296,
44_encoder.md R228: a group past MAX_OUT, and a token that cannot be packed. One token a step, with the flush it causes,
is the model's choice (assumption 14). -/
def Obligations.SearchStepTakesOneToken : Prop :=
  ∀ s : State, EngineTurn s → s.st = .busy .search →
    (∀ v : Byte, s.inp[s.pos]? = some v →
      (s.ccnt < 7 → ∃ t, step s = .next t ∧
        t = { countDelay s with
          chunk := chunkWith s v, ccnt := s.ccnt + 1, pos := s.pos + (s.searchToken v).count,
          wfill := min (s.pos + (s.searchToken v).count) 4096, win := t.win } ∧
        ∀ a, (∀ k, k < (s.searchToken v).count → a ≠ (s.pos + k) % 4096) →
          Memory.read t.win a = Memory.read s.win a) ∧
      (∀ bs : List Byte, s.ccnt = 7 → s.chunk.length = 7 → PacksTo s (chunkWith s v) bs →
        (s.overOut (s.out.length + bs.length) = false → ∃ t, step s = .next t ∧
          t = { countDelay s with
            out := s.out ++ bs, chunk := [], ccnt := 0,
            pos := s.pos + (s.searchToken v).count,
            wfill := min (s.pos + (s.searchToken v).count) 4096, win := t.win } ∧
          ∀ a, (∀ k, k < (s.searchToken v).count → a ≠ (s.pos + k) % 4096) →
            Memory.read t.win a = Memory.read s.win a) ∧
        (s.overOut (s.out.length + bs.length) = true → ∃ t, step s = .next t ∧
          ErrorRecord t .formatCapacity 0 0xFFFFFFFF#32 0)) ∧
      (∀ c off, s.ccnt = 7 → s.chunk.length = 7 → PackFails s (chunkWith s v) c off →
        off < 4294967296 → ∃ t, step s = .next t ∧
          ErrorRecord t c (BitVec.ofNat 32 off) 0xFFFFFFFF#32 (BitVec.ofNat 32 off))) ∧
    (s.inp[s.pos]? = none →
      (s.ccnt = 0 → step s = .next { countDelay s with st := .busy .pad }) ∧
      (∀ bs : List Byte, s.chunk ≠ [] → s.ccnt = s.chunk.length → PacksTo s s.chunk bs →
        (s.overOut (s.out.length + bs.length) = false → step s = .next { countDelay s with
          out := s.out ++ bs, chunk := [], ccnt := 0, st := .busy .pad }) ∧
        (s.overOut (s.out.length + bs.length) = true → ∃ t, step s = .next t ∧
          ErrorRecord t .formatCapacity 0 0xFFFFFFFF#32 0)) ∧
      (∀ c off, s.chunk ≠ [] → s.ccnt = s.chunk.length → PackFails s s.chunk c off →
        off < 4294967296 → ∃ t, step s = .next t ∧
          ErrorRecord t c (BitVec.ofNat 32 off) 0xFFFFFFFF#32 (BitVec.ofNat 32 off)))

/-! ## Invariants -/

/-- Every state of the block at reset meets the invariants below. -/
def Obligations.ResetMeetsInvariants : Prop :=
  RegistersAgree State.reset ∧ LengthsAgree State.reset ∧ WindowHolds State.reset ∧
  WindowCanonical State.reset ∧ CountersInRange State.reset ∧ PaddedOutput State.reset

/-- 10_state.md R34 to R37, 46_commands.md R266, R269: the host-visible registers agree with STATE after every step. The
field portClosed is 46_commands.md R268 (what a command has not read is discarded when it ends) together with the model's
choice that an answer offered while no command runs is dropped (assumption 7). -/
def Obligations.StepKeepsRegistersAgree : Prop :=
  ∀ s t : State, RegistersAgree s → step s = .next t → RegistersAgree t

/-- 10_state.md R24, 42_overlay.md R170 to R175: in a decode command TOTAL is the length of OUT and never passes SIZE,
after every step; in OVERLAY the length of the file and the sizes and source of the inner decode stay a valid
trailer's. -/
def Obligations.StepKeepsLengthsAgree : Prop :=
  ∀ s t : State, LengthsAgree s → step s = .next t → LengthsAgree t

/-- 10_state.md R28, 43_match_finder.md R190: the window holds the last 4096 encoded bytes, after every step. -/
def Obligations.StepKeepsWindow : Prop :=
  ∀ s t : State, WindowCanonical s → WindowHolds s → step s = .next t → WindowHolds t

/-- The window's storage stays in canonical form and inside its 4096 bytes. -/
def Obligations.StepKeepsWindowCanonical : Prop :=
  ∀ s t : State, WindowCanonical s → step s = .next t → WindowCanonical t

/-- 10_state.md R23, R26, R28: the small counters stay in range. The field chunkOpen (CCNT below 8 while BUSY) is
44_encoder.md R218, a full group is flushed, together with the model's choice that the flush is in the same step as the
eighth token (assumption 14). -/
def Obligations.StepKeepsCountersInRange : Prop :=
  ∀ s t : State, CountersInRange s → step s = .next t → CountersInRange t

/-- 44_encoder.md R225: the output of an encode command is a multiple of 4 bytes when it is DONE. -/
def Obligations.StepKeepsPaddedOutput : Prop :=
  ∀ s t : State, LengthsAgree s → PaddedOutput s → step s = .next t → PaddedOutput t

/-- 00_scope.md R7: no step changes a parameter. That the parameters stand in the state is the model's choice
(assumption 1). 10_state.md R21, R33, 46_commands.md R262, R271: whatever the engine does, the ends of a command and its
errors among them, it leaves RAWSIZE and what is the host's as they were; RAWSIZE changes only by a write to it while
not BUSY, or by reset. -/
def Obligations.StepKeepsParameters : Prop :=
  (∀ s t : State, step s = .next t → t.config = s.config) ∧
  (∀ s t : State, EngineTurn s → step s = .next t →
    t.rawsize = s.rawsize ∧ t.hostData = s.hostData ∧ t.hostBytes = s.hostBytes ∧
      t.hostQ = (countDelay s).hostQ) ∧
  (∀ s t : State, step s = .next t → t.rawsize ≠ s.rawsize → ∃ turn q, s.hostQ = turn :: q ∧
    (turn.act = .reset ∧ t.rawsize = 0 ∨
      ∃ v : Word, turn.act = .writeReg 0x08 4 v ∧ s.busy = false ∧
        t.rawsize.toNat = v.toNat % 16777216))

/-- No step of the block ends in a fault, in any state: the tests of 41_decoder.md R152 cover every read of OUT.
The fault is the model's own (assumption 18). -/
def Obligations.NoStepFaults : Prop := ∀ s : State, NoFault s

/-! ## Whole commands -/

/-- 44_encoder.md R227: for every input an encoder accepts, either variant and every legal ENC_TIE and ENC_DMIN, with the
capacities open: the encoder ends DONE with an output whose length is RESULT and a multiple of 4, and DECODE of that
output gives the input back; VERIFY of it ends DONE with the input's length. The runs are of the whole machine, the host
writing the command word to CMD and then offering the bytes and EOI. -/
def Obligations.EncodedStreamsDecodeBack : Prop :=
  ∀ (c : Config) (w : Word) (b : List Byte), c.wf = true → c.maxIn = none → c.maxOut = none →
    (w = 5 ∨ w = 6) → b.length ≤ 0xFFFFFF →
    ∃ t, EndsIn (commandRun c 0 w b) t ∧ t.st = .done ∧ t.out.length % 4 = 0 ∧
      t.result = BitVec.ofNat 32 t.out.length ∧ t.out.length < 4294967296 ∧
      (∃ d, EndsIn (commandRun c 0 1 t.out) d ∧ d.st = .done ∧ d.out = b ∧
        d.result = BitVec.ofNat 32 b.length) ∧
      (∃ v, EndsIn (commandRun c 0 7 t.out) v ∧ v.st = .done ∧ v.out = [] ∧
        v.result = BitVec.ofNat 32 b.length)

/-- 45_verifier.md R244: on every input, DECODE and VERIFY both end, and one ends DONE exactly when the other does, with
the same RESULT. The capacities are open. -/
def Obligations.DecodeAndVerifyAgree : Prop :=
  ∀ (c : Config) (bs : List Byte), c.maxIn = none → c.maxOut = none →
    ∃ d v, EndsIn (commandRun c 0 1 bs) d ∧ EndsIn (commandRun c 0 7 bs) v ∧
      (d.st = .done ∨ d.st = .error) ∧ (v.st = .done ∨ v.st = .error) ∧
      (d.st = .done ↔ v.st = .done) ∧
      (d.st = .done → d.result = v.result ∧ d.result = BitVec.ofNat 32 d.out.length)

/-! ## The encoding -/

/-- 30_encoding.md R81 to R89, R95: decoding the bytes of a well-formed instruction gives it back, whatever follows
them; the padding is the last thing in its stream. -/
def Obligations.DecodeInvertsEncode : Prop :=
  ∀ (i : Instr) (rest : List Byte), i.WellFormed →
    ((∀ c, i ≠ .pad c) → decode i.slot (encode i ++ rest) = .ok (i, rest)) ∧
    ((∃ c, i = .pad c) → decode i.slot (encode i) = .ok (i, []))

/-- 30_encoding.md R92, R93: no bit of a decoded unit is dropped, and what is decoded is well formed and stands in its
slot. -/
def Obligations.EncodeInvertsDecode : Prop :=
  ∀ (slot : Slot) (bs rest : List Byte) (i : Instr), decode slot bs = .ok (i, rest) →
    encode i ++ rest = bs ∧ i.slot = slot ∧ i.WellFormed

/-- 30_encoding.md R81 to R95: words written out from the diagrams and the examples of the spec decode to their
instructions. -/
def Obligations.SampleWordsDecode : Prop :=
  decode .header [0x10#8, 0x14#8, 0x00#8, 0x00#8] = .ok (.hdr10 20#24, []) ∧
  decode .header [0x11#8, 0x46#8, 0x01#8, 0x00#8] = .ok (.hdr11 326#24, []) ∧
  decode .match10 [0xD0#8, 0x03#8] = .ok (.m10 0xD#4 3#12, []) ∧
  decode .match11 [0x20#8, 0x01#8] = .ok (.m11s 2#4 1#12, []) ∧
  decode .match11 [0x00#8, 0x30#8, 0x00#8] = .ok (.m11e8 3#8 0#12, []) ∧
  decode .match11 [0x10#8, 0x07#8, 0xB0#8, 0x03#8] = .ok (.m11e16 0x7B#16 3#12, []) ∧
  decode .trailer [0x0F#8, 0x00#8, 0x00#8, 0x08#8, 0x05#8, 0x00#8, 0x00#8, 0x00#8] =
    .ok (.trl 15#24 8#8 5#32, []) ∧
  decode .command [0x12#8, 0x00#8, 0x00#8, 0x00#8] = .ok (.cmdDecodeRaw10 true, [])

/-- 20_memory.md R60 to R63: the byte orders of the header, of the match words and of the trailer. -/
def Obligations.StreamByteOrders : Prop :=
  (∀ (b1 b2 b3 : Byte) (rest : List Byte), ∃ size : BitVec 24,
    decode .header (0x10#8 :: b1 :: b2 :: b3 :: rest) = .ok (.hdr10 size, rest) ∧
    decode .header (0x11#8 :: b1 :: b2 :: b3 :: rest) = .ok (.hdr11 size, rest) ∧
    size.toNat = b1.toNat + 256 * b2.toNat + 65536 * b3.toNat) ∧
  (∀ (b0 b1 : Byte) (rest : List Byte), ∃ (l : BitVec 4) (d : BitVec 12),
    decode .match10 (b0 :: b1 :: rest) = .ok (.m10 l d, rest) ∧
    256 * b0.toNat + b1.toNat = 4096 * l.toNat + d.toNat) ∧
  (∀ (b0 b1 : Byte) (rest : List Byte), 2 ≤ b0.toNat / 16 → ∃ (i : BitVec 4) (d : BitVec 12),
    decode .match11 (b0 :: b1 :: rest) = .ok (.m11s i d, rest) ∧
    256 * b0.toNat + b1.toNat = 4096 * i.toNat + d.toNat) ∧
  (∀ (b0 b1 b2 : Byte) (rest : List Byte), b0.toNat / 16 = 0 →
    ∃ (n : BitVec 8) (d : BitVec 12), decode .match11 (b0 :: b1 :: b2 :: rest) =
      .ok (.m11e8 n d, rest) ∧
    65536 * b0.toNat + 256 * b1.toNat + b2.toNat = 4096 * n.toNat + d.toNat) ∧
  (∀ (b0 b1 b2 b3 : Byte) (rest : List Byte), b0.toNat / 16 = 1 →
    ∃ (n : BitVec 16) (d : BitVec 12), decode .match11 (b0 :: b1 :: b2 :: b3 :: rest) =
      .ok (.m11e16 n d, rest) ∧
    16777216 * b0.toNat + 65536 * b1.toNat + 256 * b2.toNat + b3.toNat =
      268435456 + 4096 * n.toNat + d.toNat) ∧
  (∀ (e0 e1 e2 p s0 s1 s2 s3 : Byte) (rest : List Byte), ∃ (e : BitVec 24) (sd : BitVec 32),
    decode .trailer (e0 :: e1 :: e2 :: p :: s0 :: s1 :: s2 :: s3 :: rest) =
      .ok (.trl e p sd, rest) ∧
    e.toNat = e0.toNat + 256 * e1.toNat + 65536 * e2.toNat ∧
    sd.toNat = s0.toNat + 256 * s1.toNat + 65536 * s2.toNat + 16777216 * s3.toNat)
end

