-- ==== Sys2Proof/Laws/Decode.lean ====
section
/-! SUPPORT. The laws of the bit fields the decoder and the encoder share: splitting and joining nibbles, displacement
fields, little-endian bytes and command words. -/

namespace Sys2Proof

/-! ## Joining and splitting -/

theorem extractLsb'_append_high {m n : Nat} (a : BitVec m) (b : BitVec n) :
    (a ++ b).extractLsb' n m = a := by
  ext i hi
  simp [BitVec.getLsbD_append, BitVec.getLsbD_eq_getElem hi]

theorem extractLsb'_append_low {m n : Nat} (a : BitVec m) (b : BitVec n) :
    (a ++ b).extractLsb' 0 n = b := by
  ext i hi
  simp [BitVec.getLsbD_append, hi]

@[simp] theorem hiNibble_append (a b : BitVec 4) : hiNibble (a ++ b) = a :=
  extractLsb'_append_high a b

@[simp] theorem loNibble_append (a b : BitVec 4) : loNibble (a ++ b) = b :=
  extractLsb'_append_low a b

@[simp] theorem dispHi_append (a : BitVec 4) (b : Byte) : dispHi (a ++ b) = a :=
  extractLsb'_append_high a b

@[simp] theorem dispLo_append (a : BitVec 4) (b : Byte) : dispLo (a ++ b) = b :=
  extractLsb'_append_low a b

@[simp] theorem nibbles_join (x : Byte) : hiNibble x ++ loNibble x = x := by
  apply BitVec.eq_of_toNat_eq
  simp only [hiNibble, loNibble, BitVec.toNat_append, BitVec.extractLsb'_toNat]
  rw [← Nat.shiftLeft_add_eq_or_of_lt (by omega)]
  simp only [Nat.shiftLeft_eq, Nat.shiftRight_eq_div_pow]
  have := x.isLt
  omega

@[simp] theorem disp_join (d : BitVec 12) : dispHi d ++ dispLo d = d := by
  apply BitVec.eq_of_toNat_eq
  simp only [dispHi, dispLo, BitVec.toNat_append, BitVec.extractLsb'_toNat]
  rw [← Nat.shiftLeft_add_eq_or_of_lt (by omega)]
  simp only [Nat.shiftLeft_eq, Nat.shiftRight_eq_div_pow]
  have := d.isLt
  omega

/-! ## Little-endian bytes -/

theorem toNat_byteOf {w : Nat} (v : BitVec w) (k : Nat) :
    (byteOf v k).toNat = v.toNat / 2 ^ (8 * k) % 256 := by
  simp only [byteOf, BitVec.extractLsb'_toNat, Nat.shiftRight_eq_div_pow]

theorem toNat_le24 (b0 b1 b2 : Byte) :
    (le24 b0 b1 b2).toNat = b0.toNat + 256 * b1.toNat + 65536 * b2.toNat := by
  have h0 := b0.isLt
  have h1 := b1.isLt
  simp only [le24, BitVec.toNat_append]
  rw [← Nat.shiftLeft_add_eq_or_of_lt h1, ← Nat.shiftLeft_add_eq_or_of_lt h0]
  simp only [Nat.shiftLeft_eq]
  omega

theorem toNat_le32 (b0 b1 b2 b3 : Byte) :
    (le32 b0 b1 b2 b3).toNat =
      b0.toNat + 256 * b1.toNat + 65536 * b2.toNat + 16777216 * b3.toNat := by
  have h0 := b0.isLt
  have h1 := b1.isLt
  have h2 := b2.isLt
  simp only [le32, BitVec.toNat_append]
  rw [← Nat.shiftLeft_add_eq_or_of_lt h2, ← Nat.shiftLeft_add_eq_or_of_lt h1,
    ← Nat.shiftLeft_add_eq_or_of_lt h0]
  simp only [Nat.shiftLeft_eq]
  omega

@[simp] theorem le24_bytes (v : BitVec 24) : le24 (byteOf v 0) (byteOf v 1) (byteOf v 2) = v := by
  apply BitVec.eq_of_toNat_eq
  have := v.isLt
  simp only [toNat_le24, toNat_byteOf]
  omega

@[simp] theorem le32_bytes (v : Word) :
    le32 (byteOf v 0) (byteOf v 1) (byteOf v 2) (byteOf v 3) = v := by
  apply BitVec.eq_of_toNat_eq
  have := v.isLt
  simp only [toNat_le32, toNat_byteOf]
  omega

/-- The bytes of a little-endian number are the bytes it was made of. -/
theorem wordBytes_le32 (b0 b1 b2 b3 : Byte) : wordBytes (le32 b0 b1 b2 b3) = [b0, b1, b2, b3] := by
  have h0 := b0.isLt
  have h1 := b1.isLt
  have h2 := b2.isLt
  have h3 := b3.isLt
  simp only [wordBytes, List.cons.injEq, and_true]
  refine ⟨?_, ?_, ?_, ?_⟩ <;> apply BitVec.eq_of_toNat_eq <;>
    simp only [toNat_byteOf, toNat_le32] <;> omega

theorem bytes_le24 (b0 b1 b2 : Byte) :
    byteOf (le24 b0 b1 b2) 0 = b0 ∧ byteOf (le24 b0 b1 b2) 1 = b1 ∧
      byteOf (le24 b0 b1 b2) 2 = b2 := by
  have h0 := b0.isLt
  have h1 := b1.isLt
  have h2 := b2.isLt
  refine ⟨?_, ?_, ?_⟩ <;> apply BitVec.eq_of_toNat_eq <;>
    simp only [toNat_byteOf, toNat_le24] <;> omega

/-! ## Command words -/

theorem toNat_cmdWord (rsvd : BitVec 27) (ovl : Bool) (op : BitVec 4) :
    (cmdWord rsvd ovl op).toNat = 32 * rsvd.toNat + 16 * ovl.toNat + op.toNat := by
  have h0 := op.isLt
  have h1 : (BitVec.ofBool ovl).toNat < 2 ^ 1 := (BitVec.ofBool ovl).isLt
  simp only [cmdWord, BitVec.toNat_append]
  rw [← Nat.shiftLeft_add_eq_or_of_lt h1, ← Nat.shiftLeft_add_eq_or_of_lt h0]
  simp only [Nat.shiftLeft_eq, BitVec.toNat_ofBool]
  omega

theorem cmdWord_rsvd (rsvd : BitVec 27) (ovl : Bool) (op : BitVec 4) :
    (cmdWord rsvd ovl op).extractLsb' 5 27 = rsvd := by
  apply BitVec.eq_of_toNat_eq
  have h0 := op.isLt
  have h1 := rsvd.isLt
  have h2 : ovl.toNat ≤ 1 := by cases ovl <;> decide
  simp only [BitVec.extractLsb'_toNat, toNat_cmdWord, Nat.shiftRight_eq_div_pow]
  omega

theorem cmdWord_op (rsvd : BitVec 27) (ovl : Bool) (op : BitVec 4) :
    (cmdWord rsvd ovl op).extractLsb' 0 4 = op := extractLsb'_append_low _ _

theorem cmdWord_ovl (rsvd : BitVec 27) (ovl : Bool) (op : BitVec 4) :
    (cmdWord rsvd ovl op).getLsbD 4 = ovl := by
  have h : (cmdWord rsvd ovl op).getLsbD 4 = (BitVec.ofBool ovl).getLsbD 0 := by
    rw [cmdWord, BitVec.getLsbD_append, if_neg (by decide), BitVec.getLsbD_append]
    rfl
  rw [h]
  cases ovl <;> rfl

/-- A word is its three fields. -/
theorem cmdWord_fields (w : Word) :
    cmdWord (w.extractLsb' 5 27) (w.getLsbD 4) (w.extractLsb' 0 4) = w := by
  apply BitVec.eq_of_toNat_eq
  have h : (w.getLsbD 4).toNat = w.toNat / 16 % 2 := by
    rw [← BitVec.testBit_toNat, Nat.toNat_testBit]
  have := w.isLt
  simp only [toNat_cmdWord, h, BitVec.extractLsb'_toNat, Nat.shiftRight_eq_div_pow]
  omega

end Sys2Proof
end

