-- ==== Sys2Proof/Laws/Memory.lean ====
section
/-! SUPPORT. The laws of the window storage: a read after a write, and that every write keeps the canonical form. -/

namespace Sys2Proof.Machine

/-- Below its first listed address a canonical memory reads as unlisted. -/
theorem read_below {m : Memory} {lo a : Nat} (h : Memory.wfFrom lo m = true) (ha : a < lo) :
    Memory.read m a = Memory.unlisted := by
  induction m generalizing lo with
  | nil => rfl
  | cons c m ih =>
    simp only [Memory.wfFrom, Bool.and_eq_true, decide_eq_true_eq] at h
    obtain ⟨⟨h1, _⟩, h3⟩ := h
    have hne : c.1 ≠ a := by omega
    simp only [Memory.read, if_neg hne]
    exact ih h3 (by omega)

/-- A larger start is a stronger form. -/
theorem wfFrom_mono {m : Memory} {lo lo' : Nat} (h : Memory.wfFrom lo m = true) (hl : lo' ≤ lo) :
    Memory.wfFrom lo' m = true := by
  cases m with
  | nil => rfl
  | cons c m =>
    simp only [Memory.wfFrom, Bool.and_eq_true, decide_eq_true_eq] at h ⊢
    exact ⟨⟨by omega, h.1.2⟩, h.2⟩

/-- A write at or above the start keeps the canonical form. -/
theorem wfFrom_write {m : Memory} {lo a : Nat} {b : Byte} (h : Memory.wfFrom lo m = true)
    (ha : lo ≤ a) : Memory.wfFrom lo (Memory.write m a b) = true := by
  induction m generalizing lo with
  | nil =>
    unfold Memory.write
    split
    · rfl
    · simp_all [Memory.wfFrom]
  | cons c m ih =>
    simp only [Memory.wfFrom, Bool.and_eq_true, decide_eq_true_eq] at h
    obtain ⟨⟨h1, h2⟩, h3⟩ := h
    unfold Memory.write
    split
    · rename_i hlt
      split
      · simp_all [Memory.wfFrom]
      · rename_i hb
        have := wfFrom_mono h3 (Nat.le_refl _)
        simp only [Memory.wfFrom, Bool.and_eq_true, decide_eq_true_eq]
        exact ⟨⟨ha, hb⟩, ⟨by omega, h2⟩, this⟩
    · split
      · rename_i hlt heq
        subst heq
        split
        · exact wfFrom_mono h3 (by omega)
        · rename_i hb
          simp only [Memory.wfFrom, Bool.and_eq_true, decide_eq_true_eq]
          exact ⟨⟨ha, hb⟩, h3⟩
      · rename_i hlt hne
        simp only [Memory.wfFrom, Bool.and_eq_true, decide_eq_true_eq]
        exact ⟨⟨h1, h2⟩, ih h3 (by omega)⟩

/-- Every write keeps the canonical form. -/
theorem wf_write {m : Memory} {a : Nat} {b : Byte} (h : Memory.wf m = true) :
    Memory.wf (Memory.write m a b) = true :=
  wfFrom_write h (Nat.zero_le a)

/-- A read after a write to the same address gives the byte written. -/
theorem read_write_same {m : Memory} {lo a : Nat} {b : Byte} (h : Memory.wfFrom lo m = true) :
    Memory.read (Memory.write m a b) a = b := by
  induction m generalizing lo with
  | nil =>
    unfold Memory.write
    split
    · simp_all [Memory.read]
    · simp [Memory.read]
  | cons c m ih =>
    simp only [Memory.wfFrom, Bool.and_eq_true, decide_eq_true_eq] at h
    obtain ⟨⟨h1, h2⟩, h3⟩ := h
    unfold Memory.write
    split
    · rename_i hlt
      split
      · rename_i hb
        have hne : c.1 ≠ a := by omega
        simp only [Memory.read, if_neg hne, hb]
        exact read_below h3 (by omega)
      · simp [Memory.read]
    · split
      · rename_i hlt heq
        split
        · rename_i hb
          rw [hb]
          exact read_below h3 (by omega)
        · simp [Memory.read]
      · rename_i hlt hne
        have : c.1 ≠ a := fun e => hne e.symm
        simp only [Memory.read, if_neg this]
        exact ih h3

/-- A write leaves every other address alone. -/
theorem read_write_other {m : Memory} {a a' : Nat} {b : Byte} (hne : a' ≠ a) :
    Memory.read (Memory.write m a b) a' = Memory.read m a' := by
  induction m with
  | nil =>
    unfold Memory.write
    split
    · rfl
    · simp [Memory.read, Ne.symm hne]
  | cons c m ih =>
    unfold Memory.write
    split
    · split
      · rfl
      · simp [Memory.read, Ne.symm hne]
    · split
      · rename_i hlt heq
        subst heq
        have hc : c.1 ≠ a' := Ne.symm hne
        split
        · simp [Memory.read, hc]
        · simp [Memory.read, hc]
      · simp only [Memory.read]
        split
        · rfl
        · exact ih

/-- A write lists no address but the one written and those listed before. -/
theorem mem_write {m : Memory} {a : Nat} {b : Byte} {c : Host.Cell}
    (h : c ∈ Memory.write m a b) : c ∈ m ∨ c.1 = a := by
  induction m with
  | nil =>
    unfold Memory.write at h
    split at h
    · cases h
    · simp at h
      exact .inr (by rw [h])
  | cons d m ih =>
    unfold Memory.write at h
    split at h
    · split at h
      · exact .inl h
      · rcases List.mem_cons.1 h with h | h
        · exact .inr (by rw [h])
        · exact .inl h
    · split at h
      · split at h
        · exact .inl (List.mem_cons_of_mem _ h)
        · rcases List.mem_cons.1 h with h | h
          · exact .inr (by rw [h])
          · exact .inl (List.mem_cons_of_mem _ h)
      · rcases List.mem_cons.1 h with h | h
        · exact .inl (by rw [h]; exact List.mem_cons_self)
        · rcases ih h with h | h
          · exact .inl (List.mem_cons_of_mem _ h)
          · exact .inr h

/-- The window's update keeps the canonical form. -/
theorem wf_writeWindow {bs : List Byte} {i : Nat} {m : Memory} (h : Memory.wf m = true) :
    Memory.wf (writeWindow bs i m) = true := by
  induction bs generalizing i m with
  | nil => exact h
  | cons b bs ih => exact ih (wf_write h)

end Sys2Proof.Machine
end

