-- ==== Sys2Proof/Laws/MatchFinder.lean ====
section
/-! SUPPORT. One lemma per operation of the match finder that says what it answers: the counting loop, the candidates,
the selection, the token, and the window's update. -/

namespace Sys2Proof.Machine

/-! ## The window's update -/

/-- The window keeps every byte whose address no written index has. -/
theorem read_writeWindow_other {bs : List Byte} {i a : Nat} {m : Memory}
    (h : ∀ k, k < bs.length → a ≠ (i + k) % windowSize) :
    Memory.read (writeWindow bs i m) a = Memory.read m a := by
  induction bs generalizing i m with
  | nil => rfl
  | cons b bs ih =>
    have h0 : a ≠ i % windowSize := h 0 (by simp)
    rw [writeWindow, ih, read_write_other h0]
    intro k hk
    have := h (k + 1) (by simpa using hk)
    rwa [show i + (k + 1) = i + 1 + k by omega] at this

/-- Of the bytes written, the last 4096 are there. -/
theorem read_writeWindow {bs : List Byte} {i k : Nat} {m : Memory} (hw : Memory.wf m = true)
    (hk : k < bs.length) (hl : bs.length ≤ k + windowSize) :
    some (Memory.read (writeWindow bs i m) ((i + k) % windowSize)) = bs[k]? := by
  induction bs generalizing i m k with
  | nil => simp at hk
  | cons b bs ih =>
    simp only [List.length_cons] at hk hl
    cases k with
    | zero =>
      rw [writeWindow, read_writeWindow_other, Nat.add_zero, read_write_same (lo := 0) hw]
      · rfl
      · intro j hj he
        unfold windowSize at *
        omega
    | succ k =>
      have := ih (i := i + 1) (k := k) (wf_write (a := i % windowSize) (b := b) hw) (by omega)
        (by omega)
      rw [show i + 1 + k = i + (k + 1) by omega] at this
      rw [writeWindow, this]
      simp

/-- The window's update lists no address beyond the window. -/
theorem mem_writeWindow {bs : List Byte} {i : Nat} {m : Memory} {c : Host.Cell}
    (h : c ∈ writeWindow bs i m) : c ∈ m ∨ c.1 < windowSize := by
  induction bs generalizing i m with
  | nil => exact .inl h
  | cons b bs ih =>
    rcases ih h with h | h
    · rcases mem_write h with h | h
      · exact .inl h
      · exact .inr (by rw [h]; exact Nat.mod_lt _ (by decide))
    · exact .inr h

/-! ## The counting loop -/

/-- Where the loop stops: within its fuel, all below agreed, and it disagreed there unless the fuel ran out. -/
theorem countWhile_spec (ok : Nat → Bool) (fuel n : Nat) :
    n ≤ countWhile ok fuel n ∧ countWhile ok fuel n ≤ n + fuel ∧
      (∀ k, n ≤ k → k < countWhile ok fuel n → ok k = true) ∧
      (countWhile ok fuel n < n + fuel → ok (countWhile ok fuel n) = false) := by
  induction fuel generalizing n with
  | zero =>
    refine ⟨Nat.le_refl _, Nat.le_refl _, fun k h1 h2 => ?_, fun h => ?_⟩
    · simp only [countWhile] at h2
      omega
    · simp only [countWhile] at h
      omega
  | succ fuel ih =>
    unfold countWhile
    split
    · rename_i hn
      obtain ⟨h1, h2, h3, h4⟩ := ih (n + 1)
      refine ⟨by omega, by omega, fun k hk hlt => ?_, fun h => h4 (by omega)⟩
      rcases Nat.eq_or_lt_of_le hk with rfl | hk
      · exact hn
      · exact h3 k hk hlt
    · rename_i hn
      exact ⟨Nat.le_refl _, by omega, fun k h1 h2 => by omega, fun _ => by simpa using hn⟩

theorem matchLen_spec (s : State) (d : Nat) :
    s.matchLen d ≤ s.matchCap ∧ (∀ k, k < s.matchLen d → s.agrees d k = true) ∧
      (s.matchLen d < s.matchCap → s.agrees d (s.matchLen d) = false) := by
  obtain ⟨-, h2, h3, h4⟩ := countWhile_spec (s.agrees d) s.matchCap 0
  rw [Nat.zero_add] at h2 h4
  exact ⟨h2, fun k hk => h3 k (Nat.zero_le k) hk, h4⟩

/-! ## Candidates and selection -/

theorem mem_candidates {s : State} {d : Nat} :
    d ∈ s.candidates ↔ s.config.encDmin ≤ d ∧ d ≤ s.wfill := by
  have h : d ∈ List.range' s.config.encDmin (s.wfill + 1 - s.config.encDmin) ↔
      s.config.encDmin ≤ d ∧ d ≤ s.wfill := by
    rw [List.mem_range'_1]
    omega
  unfold State.candidates
  cases s.config.encTie with
  | nearest => exact h
  | farthest => exact List.mem_reverse.trans h

/-- The order of the candidates: the nearest first, or the farthest first (43_match_finder.md R194). -/
theorem candidates_ordered (s : State) :
    s.candidates.Pairwise (fun d d' => match s.config.encTie with
      | .nearest => d ≤ d'
      | .farthest => d' ≤ d) := by
  have h : (List.range' s.config.encDmin (s.wfill + 1 - s.config.encDmin)).Pairwise (· ≤ ·) :=
    (List.pairwise_lt_range').imp (fun h => Nat.le_of_lt h)
  unfold State.candidates
  cases s.config.encTie with
  | nearest => exact h
  | farthest => exact List.pairwise_reverse.2 h

/-- The best of a list of candidates: what it starts from, kept because none is longer, or the first of the longest. -/
theorem foldl_better_spec (s : State) (l : List Nat) (b : Nat × Nat) :
    (l.foldl (better s) b = b ∧ ∀ d ∈ l, s.matchLen d ≤ b.1) ∨
      ∃ l1 d l2, l = l1 ++ d :: l2 ∧ l.foldl (better s) b = (s.matchLen d, d) ∧
        b.1 < s.matchLen d ∧ (∀ x ∈ l1, s.matchLen x < s.matchLen d) ∧
        ∀ x ∈ l2, s.matchLen x ≤ s.matchLen d := by
  induction l generalizing b with
  | nil => exact .inl ⟨rfl, by simp⟩
  | cons x l ih =>
    simp only [List.foldl_cons]
    by_cases hx : b.1 < s.matchLen x
    · have hb : better s b x = (s.matchLen x, x) := by simp [better, hx]
      rw [hb]
      rcases ih (s.matchLen x, x) with ⟨h1, h2⟩ | ⟨l1, d, l2, rfl, h2, h3, h4, h5⟩
      · exact .inr ⟨[], x, l, rfl, h1, hx, by simp, h2⟩
      · refine .inr ⟨x :: l1, d, l2, rfl, h2, Nat.lt_trans hx h3, fun y hy => ?_, h5⟩
        rcases List.mem_cons.1 hy with rfl | hy
        · exact h3
        · exact h4 y hy
    · have hb : better s b x = b := by simp [better, hx]
      rw [hb]
      rcases ih b with ⟨h1, h2⟩ | ⟨l1, d, l2, rfl, h2, h3, h4, h5⟩
      · refine .inl ⟨h1, fun y hy => ?_⟩
        rcases List.mem_cons.1 hy with rfl | hy
        · omega
        · exact h2 y hy
      · refine .inr ⟨x :: l1, d, l2, rfl, h2, h3, fun y hy => ?_, h5⟩
        rcases List.mem_cons.1 hy with rfl | hy
        · omega
        · exact h4 y hy

/-- What the search answers: the literal where no candidate reaches 3, or the first of the longest candidates. -/
theorem searchToken_spec (s : State) (v : Byte) :
    (s.searchToken v = .literal v ∧ ∀ d ∈ s.candidates, s.matchLen d < matchMin) ∨
      ∃ l1 d l2, s.candidates = l1 ++ d :: l2 ∧
        s.searchToken v = .matchRef (s.matchLen d) d ∧ matchMin ≤ s.matchLen d ∧
        (∀ x ∈ l1, s.matchLen x < s.matchLen d) ∧ ∀ x ∈ l2, s.matchLen x ≤ s.matchLen d := by
  unfold State.searchToken State.best
  rcases foldl_better_spec s s.candidates (0, 0) with ⟨h1, h2⟩ | ⟨l1, d, l2, h1, h2, h3, h4, h5⟩
  · refine .inl ⟨?_, fun d hd => Nat.lt_of_le_of_lt (h2 d hd) (by decide)⟩
    rw [h1]
    rfl
  · rw [h2]
    by_cases hm : matchMin ≤ s.matchLen d
    · exact .inr ⟨l1, d, l2, h1, by simp only [if_pos hm], hm, h4, h5⟩
    · refine .inl ⟨by simp only [if_neg hm], fun x hx => ?_⟩
      rw [h1] at hx
      rcases List.mem_append.1 hx with hx | hx
      · exact Nat.lt_trans (h4 x hx) (by omega)
      · rcases List.mem_cons.1 hx with rfl | hx
        · omega
        · exact Nat.lt_of_le_of_lt (h5 x hx) (by omega)

/-- The token stays inside the input. -/
theorem searchToken_count {s : State} {v : Byte} (hv : s.inp[s.pos]? = some v) :
    s.pos + (s.searchToken v).count ≤ s.inp.length := by
  have hp : s.pos < s.inp.length := (List.getElem?_eq_some_iff.1 hv).1
  rcases searchToken_spec s v with ⟨h, -⟩ | ⟨-, d, -, -, h, -⟩
  · rw [h]
    simp only [Token.count]
    omega
  · rw [h]
    have h1 := (matchLen_spec s d).1
    have h2 : s.matchCap ≤ s.inp.length - s.pos := Nat.min_le_right _ _
    simp only [Token.count]
    omega

end Sys2Proof.Machine
end

