-- ==== Sys2Proof/Laws/State.lean ====
section
/-! SUPPORT. One lemma per field of State per named update: what the update leaves in the field. All hold by rfl (the
delay's countdown by cases), so that no proof unfolds a record update. -/

namespace Sys2Proof.Machine

/-! `raise` -/

@[simp] theorem raise_st (e : ErrCode) (off : Nat) (foff : Option Nat) (s : State) :
    (raise e off foff s).st = .error := rfl
@[simp] theorem raise_errKind (e : ErrCode) (off : Nat) (foff : Option Nat) (s : State) :
    (raise e off foff s).errKind = e.kind := rfl
@[simp] theorem raise_errSub (e : ErrCode) (off : Nat) (foff : Option Nat) (s : State) :
    (raise e off foff s).errSub = e.sub := rfl
@[simp] theorem raise_rawsize (e : ErrCode) (off : Nat) (foff : Option Nat) (s : State) :
    (raise e off foff s).rawsize = s.rawsize := rfl
@[simp] theorem raise_result (e : ErrCode) (off : Nat) (foff : Option Nat) (s : State) :
    (raise e off foff s).result = wide32 (s.freeIx + 2) (e.resultAt s.total off) := rfl
@[simp] theorem raise_erroff (e : ErrCode) (off : Nat) (foff : Option Nat) (s : State) :
    (raise e off foff s).erroff = wide32 s.freeIx off := rfl
@[simp] theorem raise_errfoff (e : ErrCode) (off : Nat) (foff : Option Nat) (s : State) :
    (raise e off foff s).errfoff = offsetWord (s.freeIx + 1) foff := rfl
@[simp] theorem raise_op (e : ErrCode) (off : Nat) (foff : Option Nat) (s : State) :
    (raise e off foff s).op = s.op := rfl
@[simp] theorem raise_variant (e : ErrCode) (off : Nat) (foff : Option Nat) (s : State) :
    (raise e off foff s).variant = s.variant := rfl
@[simp] theorem raise_ovl (e : ErrCode) (off : Nat) (foff : Option Nat) (s : State) :
    (raise e off foff s).ovl = s.ovl := rfl
@[simp] theorem raise_dispExtra (e : ErrCode) (off : Nat) (foff : Option Nat) (s : State) :
    (raise e off foff s).dispExtra = s.dispExtra := rfl
@[simp] theorem raise_size (e : ErrCode) (off : Nat) (foff : Option Nat) (s : State) :
    (raise e off foff s).size = s.size := rfl
@[simp] theorem raise_ip (e : ErrCode) (off : Nat) (foff : Option Nat) (s : State) :
    (raise e off foff s).ip = s.ip := rfl
@[simp] theorem raise_flags (e : ErrCode) (off : Nat) (foff : Option Nat) (s : State) :
    (raise e off foff s).flags = s.flags := rfl
@[simp] theorem raise_fcnt (e : ErrCode) (off : Nat) (foff : Option Nat) (s : State) :
    (raise e off foff s).fcnt = s.fcnt := rfl
@[simp] theorem raise_fpos (e : ErrCode) (off : Nat) (foff : Option Nat) (s : State) :
    (raise e off foff s).fpos = s.fpos := rfl
@[simp] theorem raise_tpos (e : ErrCode) (off : Nat) (foff : Option Nat) (s : State) :
    (raise e off foff s).tpos = s.tpos := rfl
@[simp] theorem raise_total (e : ErrCode) (off : Nat) (foff : Option Nat) (s : State) :
    (raise e off foff s).total = s.total := rfl
@[simp] theorem raise_out (e : ErrCode) (off : Nat) (foff : Option Nat) (s : State) :
    (raise e off foff s).out = [] := rfl
@[simp] theorem raise_inp (e : ErrCode) (off : Nat) (foff : Option Nat) (s : State) :
    (raise e off foff s).inp = s.inp := rfl
@[simp] theorem raise_pos (e : ErrCode) (off : Nat) (foff : Option Nat) (s : State) :
    (raise e off foff s).pos = s.pos := rfl
@[simp] theorem raise_win (e : ErrCode) (off : Nat) (foff : Option Nat) (s : State) :
    (raise e off foff s).win = s.win := rfl
@[simp] theorem raise_wfill (e : ErrCode) (off : Nat) (foff : Option Nat) (s : State) :
    (raise e off foff s).wfill = s.wfill := rfl
@[simp] theorem raise_chunk (e : ErrCode) (off : Nat) (foff : Option Nat) (s : State) :
    (raise e off foff s).chunk = s.chunk := rfl
@[simp] theorem raise_ccnt (e : ErrCode) (off : Nat) (foff : Option Nat) (s : State) :
    (raise e off foff s).ccnt = s.ccnt := rfl
@[simp] theorem raise_len (e : ErrCode) (off : Nat) (foff : Option Nat) (s : State) :
    (raise e off foff s).len = s.len := rfl
@[simp] theorem raise_endField (e : ErrCode) (off : Nat) (foff : Option Nat) (s : State) :
    (raise e off foff s).endField = s.endField := rfl
@[simp] theorem raise_startDelta (e : ErrCode) (off : Nat) (foff : Option Nat) (s : State) :
    (raise e off foff s).startDelta = s.startDelta := rfl
@[simp] theorem raise_padding (e : ErrCode) (off : Nat) (foff : Option Nat) (s : State) :
    (raise e off foff s).padding = s.padding := rfl
@[simp] theorem raise_endDelta (e : ErrCode) (off : Nat) (foff : Option Nat) (s : State) :
    (raise e off foff s).endDelta = s.endDelta := rfl
@[simp] theorem raise_src (e : ErrCode) (off : Nat) (foff : Option Nat) (s : State) :
    (raise e off foff s).src = s.src := rfl
@[simp] theorem raise_inPort (e : ErrCode) (off : Nat) (foff : Option Nat) (s : State) :
    (raise e off foff s).inPort = [] := rfl
@[simp] theorem raise_hostQ (e : ErrCode) (off : Nat) (foff : Option Nat) (s : State) :
    (raise e off foff s).hostQ = s.hostQ := rfl
@[simp] theorem raise_hostData (e : ErrCode) (off : Nat) (foff : Option Nat) (s : State) :
    (raise e off foff s).hostData = s.hostData := rfl
@[simp] theorem raise_hostBytes (e : ErrCode) (off : Nat) (foff : Option Nat) (s : State) :
    (raise e off foff s).hostBytes = s.hostBytes := rfl
@[simp] theorem raise_config (e : ErrCode) (off : Nat) (foff : Option Nat) (s : State) :
    (raise e off foff s).config = s.config := rfl
@[simp] theorem raise_freeIx (e : ErrCode) (off : Nat) (foff : Option Nat) (s : State) :
    (raise e off foff s).freeIx = s.freeIx + 3 := rfl

/-! `commandInit` -/

@[simp] theorem commandInit_st (op : BitVec 4) (ovl : Bool) (s : State) :
    (commandInit op ovl s).st = s.st := rfl
@[simp] theorem commandInit_errKind (op : BitVec 4) (ovl : Bool) (s : State) :
    (commandInit op ovl s).errKind = 0 := rfl
@[simp] theorem commandInit_errSub (op : BitVec 4) (ovl : Bool) (s : State) :
    (commandInit op ovl s).errSub = 0 := rfl
@[simp] theorem commandInit_rawsize (op : BitVec 4) (ovl : Bool) (s : State) :
    (commandInit op ovl s).rawsize = s.rawsize := rfl
@[simp] theorem commandInit_result (op : BitVec 4) (ovl : Bool) (s : State) :
    (commandInit op ovl s).result = 0 := rfl
@[simp] theorem commandInit_erroff (op : BitVec 4) (ovl : Bool) (s : State) :
    (commandInit op ovl s).erroff = 0 := rfl
@[simp] theorem commandInit_errfoff (op : BitVec 4) (ovl : Bool) (s : State) :
    (commandInit op ovl s).errfoff = noneWord := rfl
@[simp] theorem commandInit_op (op : BitVec 4) (ovl : Bool) (s : State) :
    (commandInit op ovl s).op = op := rfl
@[simp] theorem commandInit_variant (op : BitVec 4) (ovl : Bool) (s : State) :
    (commandInit op ovl s).variant = startVariant op s.variant := rfl
@[simp] theorem commandInit_ovl (op : BitVec 4) (ovl : Bool) (s : State) :
    (commandInit op ovl s).ovl = ovl := rfl
@[simp] theorem commandInit_dispExtra (op : BitVec 4) (ovl : Bool) (s : State) :
    (commandInit op ovl s).dispExtra = startDispExtra op ovl := rfl
@[simp] theorem commandInit_size (op : BitVec 4) (ovl : Bool) (s : State) :
    (commandInit op ovl s).size = startSize op s.rawsize := rfl
@[simp] theorem commandInit_ip (op : BitVec 4) (ovl : Bool) (s : State) :
    (commandInit op ovl s).ip = 0 := rfl
@[simp] theorem commandInit_flags (op : BitVec 4) (ovl : Bool) (s : State) :
    (commandInit op ovl s).flags = s.flags := rfl
@[simp] theorem commandInit_fcnt (op : BitVec 4) (ovl : Bool) (s : State) :
    (commandInit op ovl s).fcnt = 0 := rfl
@[simp] theorem commandInit_fpos (op : BitVec 4) (ovl : Bool) (s : State) :
    (commandInit op ovl s).fpos = none := rfl
@[simp] theorem commandInit_tpos (op : BitVec 4) (ovl : Bool) (s : State) :
    (commandInit op ovl s).tpos = 0 := rfl
@[simp] theorem commandInit_total (op : BitVec 4) (ovl : Bool) (s : State) :
    (commandInit op ovl s).total = 0 := rfl
@[simp] theorem commandInit_out (op : BitVec 4) (ovl : Bool) (s : State) :
    (commandInit op ovl s).out = [] := rfl
@[simp] theorem commandInit_inp (op : BitVec 4) (ovl : Bool) (s : State) :
    (commandInit op ovl s).inp = [] := rfl
@[simp] theorem commandInit_pos (op : BitVec 4) (ovl : Bool) (s : State) :
    (commandInit op ovl s).pos = 0 := rfl
@[simp] theorem commandInit_win (op : BitVec 4) (ovl : Bool) (s : State) :
    (commandInit op ovl s).win = s.win := rfl
@[simp] theorem commandInit_wfill (op : BitVec 4) (ovl : Bool) (s : State) :
    (commandInit op ovl s).wfill = 0 := rfl
@[simp] theorem commandInit_chunk (op : BitVec 4) (ovl : Bool) (s : State) :
    (commandInit op ovl s).chunk = [] := rfl
@[simp] theorem commandInit_ccnt (op : BitVec 4) (ovl : Bool) (s : State) :
    (commandInit op ovl s).ccnt = 0 := rfl
@[simp] theorem commandInit_len (op : BitVec 4) (ovl : Bool) (s : State) :
    (commandInit op ovl s).len = 0 := rfl
@[simp] theorem commandInit_endField (op : BitVec 4) (ovl : Bool) (s : State) :
    (commandInit op ovl s).endField = 0 := rfl
@[simp] theorem commandInit_startDelta (op : BitVec 4) (ovl : Bool) (s : State) :
    (commandInit op ovl s).startDelta = 0 := rfl
@[simp] theorem commandInit_padding (op : BitVec 4) (ovl : Bool) (s : State) :
    (commandInit op ovl s).padding = 0 := rfl
@[simp] theorem commandInit_endDelta (op : BitVec 4) (ovl : Bool) (s : State) :
    (commandInit op ovl s).endDelta = 0 := rfl
@[simp] theorem commandInit_src (op : BitVec 4) (ovl : Bool) (s : State) :
    (commandInit op ovl s).src = [] := rfl
@[simp] theorem commandInit_inPort (op : BitVec 4) (ovl : Bool) (s : State) :
    (commandInit op ovl s).inPort = [] := rfl
@[simp] theorem commandInit_hostQ (op : BitVec 4) (ovl : Bool) (s : State) :
    (commandInit op ovl s).hostQ = s.hostQ := rfl
@[simp] theorem commandInit_hostData (op : BitVec 4) (ovl : Bool) (s : State) :
    (commandInit op ovl s).hostData = s.hostData := rfl
@[simp] theorem commandInit_hostBytes (op : BitVec 4) (ovl : Bool) (s : State) :
    (commandInit op ovl s).hostBytes = s.hostBytes := rfl
@[simp] theorem commandInit_config (op : BitVec 4) (ovl : Bool) (s : State) :
    (commandInit op ovl s).config = s.config := rfl
@[simp] theorem commandInit_freeIx (op : BitVec 4) (ovl : Bool) (s : State) :
    (commandInit op ovl s).freeIx = s.freeIx := rfl

/-! `finish` -/

@[simp] theorem finish_st (n : Nat) (s : State) : (finish n s).st = .done := rfl
@[simp] theorem finish_errKind (n : Nat) (s : State) : (finish n s).errKind = s.errKind := rfl
@[simp] theorem finish_errSub (n : Nat) (s : State) : (finish n s).errSub = s.errSub := rfl
@[simp] theorem finish_rawsize (n : Nat) (s : State) : (finish n s).rawsize = s.rawsize := rfl
@[simp] theorem finish_result (n : Nat) (s : State) : (finish n s).result = wide32 s.freeIx n := rfl
@[simp] theorem finish_erroff (n : Nat) (s : State) : (finish n s).erroff = s.erroff := rfl
@[simp] theorem finish_errfoff (n : Nat) (s : State) : (finish n s).errfoff = s.errfoff := rfl
@[simp] theorem finish_op (n : Nat) (s : State) : (finish n s).op = s.op := rfl
@[simp] theorem finish_variant (n : Nat) (s : State) : (finish n s).variant = s.variant := rfl
@[simp] theorem finish_ovl (n : Nat) (s : State) : (finish n s).ovl = s.ovl := rfl
@[simp] theorem finish_dispExtra (n : Nat) (s : State) : (finish n s).dispExtra = s.dispExtra := rfl
@[simp] theorem finish_size (n : Nat) (s : State) : (finish n s).size = s.size := rfl
@[simp] theorem finish_ip (n : Nat) (s : State) : (finish n s).ip = s.ip := rfl
@[simp] theorem finish_flags (n : Nat) (s : State) : (finish n s).flags = s.flags := rfl
@[simp] theorem finish_fcnt (n : Nat) (s : State) : (finish n s).fcnt = s.fcnt := rfl
@[simp] theorem finish_fpos (n : Nat) (s : State) : (finish n s).fpos = s.fpos := rfl
@[simp] theorem finish_tpos (n : Nat) (s : State) : (finish n s).tpos = s.tpos := rfl
@[simp] theorem finish_total (n : Nat) (s : State) : (finish n s).total = s.total := rfl
@[simp] theorem finish_out (n : Nat) (s : State) : (finish n s).out = s.out := rfl
@[simp] theorem finish_inp (n : Nat) (s : State) : (finish n s).inp = s.inp := rfl
@[simp] theorem finish_pos (n : Nat) (s : State) : (finish n s).pos = s.pos := rfl
@[simp] theorem finish_win (n : Nat) (s : State) : (finish n s).win = s.win := rfl
@[simp] theorem finish_wfill (n : Nat) (s : State) : (finish n s).wfill = s.wfill := rfl
@[simp] theorem finish_chunk (n : Nat) (s : State) : (finish n s).chunk = s.chunk := rfl
@[simp] theorem finish_ccnt (n : Nat) (s : State) : (finish n s).ccnt = s.ccnt := rfl
@[simp] theorem finish_len (n : Nat) (s : State) : (finish n s).len = s.len := rfl
@[simp] theorem finish_endField (n : Nat) (s : State) : (finish n s).endField = s.endField := rfl
@[simp] theorem finish_startDelta (n : Nat) (s : State) :
    (finish n s).startDelta = s.startDelta := rfl
@[simp] theorem finish_padding (n : Nat) (s : State) : (finish n s).padding = s.padding := rfl
@[simp] theorem finish_endDelta (n : Nat) (s : State) : (finish n s).endDelta = s.endDelta := rfl
@[simp] theorem finish_src (n : Nat) (s : State) : (finish n s).src = s.src := rfl
@[simp] theorem finish_inPort (n : Nat) (s : State) : (finish n s).inPort = [] := rfl
@[simp] theorem finish_hostQ (n : Nat) (s : State) : (finish n s).hostQ = s.hostQ := rfl
@[simp] theorem finish_hostData (n : Nat) (s : State) : (finish n s).hostData = s.hostData := rfl
@[simp] theorem finish_hostBytes (n : Nat) (s : State) : (finish n s).hostBytes = s.hostBytes := rfl
@[simp] theorem finish_config (n : Nat) (s : State) : (finish n s).config = s.config := rfl
@[simp] theorem finish_freeIx (n : Nat) (s : State) : (finish n s).freeIx = s.freeIx + 1 := rfl

/-! `abort` -/

@[simp] theorem abort_st (s : State) : (abort s).st = .idle := rfl
@[simp] theorem abort_errKind (s : State) : (abort s).errKind = 0 := rfl
@[simp] theorem abort_errSub (s : State) : (abort s).errSub = 0 := rfl
@[simp] theorem abort_rawsize (s : State) : (abort s).rawsize = s.rawsize := rfl
@[simp] theorem abort_result (s : State) : (abort s).result = 0 := rfl
@[simp] theorem abort_erroff (s : State) : (abort s).erroff = 0 := rfl
@[simp] theorem abort_errfoff (s : State) : (abort s).errfoff = noneWord := rfl
@[simp] theorem abort_op (s : State) : (abort s).op = s.op := rfl
@[simp] theorem abort_variant (s : State) : (abort s).variant = s.variant := rfl
@[simp] theorem abort_ovl (s : State) : (abort s).ovl = s.ovl := rfl
@[simp] theorem abort_dispExtra (s : State) : (abort s).dispExtra = s.dispExtra := rfl
@[simp] theorem abort_size (s : State) : (abort s).size = s.size := rfl
@[simp] theorem abort_ip (s : State) : (abort s).ip = s.ip := rfl
@[simp] theorem abort_flags (s : State) : (abort s).flags = s.flags := rfl
@[simp] theorem abort_fcnt (s : State) : (abort s).fcnt = s.fcnt := rfl
@[simp] theorem abort_fpos (s : State) : (abort s).fpos = s.fpos := rfl
@[simp] theorem abort_tpos (s : State) : (abort s).tpos = s.tpos := rfl
@[simp] theorem abort_total (s : State) : (abort s).total = s.total := rfl
@[simp] theorem abort_out (s : State) : (abort s).out = [] := rfl
@[simp] theorem abort_inp (s : State) : (abort s).inp = s.inp := rfl
@[simp] theorem abort_pos (s : State) : (abort s).pos = s.pos := rfl
@[simp] theorem abort_win (s : State) : (abort s).win = s.win := rfl
@[simp] theorem abort_wfill (s : State) : (abort s).wfill = s.wfill := rfl
@[simp] theorem abort_chunk (s : State) : (abort s).chunk = s.chunk := rfl
@[simp] theorem abort_ccnt (s : State) : (abort s).ccnt = s.ccnt := rfl
@[simp] theorem abort_len (s : State) : (abort s).len = s.len := rfl
@[simp] theorem abort_endField (s : State) : (abort s).endField = s.endField := rfl
@[simp] theorem abort_startDelta (s : State) : (abort s).startDelta = s.startDelta := rfl
@[simp] theorem abort_padding (s : State) : (abort s).padding = s.padding := rfl
@[simp] theorem abort_endDelta (s : State) : (abort s).endDelta = s.endDelta := rfl
@[simp] theorem abort_src (s : State) : (abort s).src = s.src := rfl
@[simp] theorem abort_inPort (s : State) : (abort s).inPort = [] := rfl
@[simp] theorem abort_hostQ (s : State) : (abort s).hostQ = s.hostQ := rfl
@[simp] theorem abort_hostData (s : State) : (abort s).hostData = s.hostData := rfl
@[simp] theorem abort_hostBytes (s : State) : (abort s).hostBytes = s.hostBytes := rfl
@[simp] theorem abort_config (s : State) : (abort s).config = s.config := rfl
@[simp] theorem abort_freeIx (s : State) : (abort s).freeIx = s.freeIx := rfl

/-! `consume` -/

@[simp] theorem consume_st (n : Nat) (s : State) : (consume n s).st = s.st := rfl
@[simp] theorem consume_errKind (n : Nat) (s : State) : (consume n s).errKind = s.errKind := rfl
@[simp] theorem consume_errSub (n : Nat) (s : State) : (consume n s).errSub = s.errSub := rfl
@[simp] theorem consume_rawsize (n : Nat) (s : State) : (consume n s).rawsize = s.rawsize := rfl
@[simp] theorem consume_result (n : Nat) (s : State) : (consume n s).result = s.result := rfl
@[simp] theorem consume_erroff (n : Nat) (s : State) : (consume n s).erroff = s.erroff := rfl
@[simp] theorem consume_errfoff (n : Nat) (s : State) : (consume n s).errfoff = s.errfoff := rfl
@[simp] theorem consume_op (n : Nat) (s : State) : (consume n s).op = s.op := rfl
@[simp] theorem consume_variant (n : Nat) (s : State) : (consume n s).variant = s.variant := rfl
@[simp] theorem consume_ovl (n : Nat) (s : State) : (consume n s).ovl = s.ovl := rfl
@[simp] theorem consume_dispExtra (n : Nat) (s : State) :
    (consume n s).dispExtra = s.dispExtra := rfl
@[simp] theorem consume_size (n : Nat) (s : State) : (consume n s).size = s.size := rfl
@[simp] theorem consume_ip (n : Nat) (s : State) : (consume n s).ip = s.ip + n := rfl
@[simp] theorem consume_flags (n : Nat) (s : State) : (consume n s).flags = s.flags := rfl
@[simp] theorem consume_fcnt (n : Nat) (s : State) : (consume n s).fcnt = s.fcnt := rfl
@[simp] theorem consume_fpos (n : Nat) (s : State) : (consume n s).fpos = s.fpos := rfl
@[simp] theorem consume_tpos (n : Nat) (s : State) : (consume n s).tpos = s.tpos := rfl
@[simp] theorem consume_total (n : Nat) (s : State) : (consume n s).total = s.total := rfl
@[simp] theorem consume_out (n : Nat) (s : State) : (consume n s).out = s.out := rfl
@[simp] theorem consume_inp (n : Nat) (s : State) : (consume n s).inp = s.inp := rfl
@[simp] theorem consume_pos (n : Nat) (s : State) : (consume n s).pos = s.pos := rfl
@[simp] theorem consume_win (n : Nat) (s : State) : (consume n s).win = s.win := rfl
@[simp] theorem consume_wfill (n : Nat) (s : State) : (consume n s).wfill = s.wfill := rfl
@[simp] theorem consume_chunk (n : Nat) (s : State) : (consume n s).chunk = s.chunk := rfl
@[simp] theorem consume_ccnt (n : Nat) (s : State) : (consume n s).ccnt = s.ccnt := rfl
@[simp] theorem consume_len (n : Nat) (s : State) : (consume n s).len = s.len := rfl
@[simp] theorem consume_endField (n : Nat) (s : State) : (consume n s).endField = s.endField := rfl
@[simp] theorem consume_startDelta (n : Nat) (s : State) :
    (consume n s).startDelta = s.startDelta := rfl
@[simp] theorem consume_padding (n : Nat) (s : State) : (consume n s).padding = s.padding := rfl
@[simp] theorem consume_endDelta (n : Nat) (s : State) : (consume n s).endDelta = s.endDelta := rfl
@[simp] theorem consume_src (n : Nat) (s : State) : (consume n s).src = s.src := rfl
@[simp] theorem consume_inPort (n : Nat) (s : State) :
    (consume n s).inPort = if s.readsSrc then s.inPort else s.inPort.drop n := rfl
@[simp] theorem consume_hostQ (n : Nat) (s : State) : (consume n s).hostQ = s.hostQ := rfl
@[simp] theorem consume_hostData (n : Nat) (s : State) : (consume n s).hostData = s.hostData := rfl
@[simp] theorem consume_hostBytes (n : Nat) (s : State) :
    (consume n s).hostBytes = s.hostBytes := rfl
@[simp] theorem consume_config (n : Nat) (s : State) : (consume n s).config = s.config := rfl
@[simp] theorem consume_freeIx (n : Nat) (s : State) : (consume n s).freeIx = s.freeIx := rfl

/-! `loadFlags` -/

@[simp] theorem loadFlags_st (f : Byte) (s : State) : (loadFlags f s).st = s.st := rfl
@[simp] theorem loadFlags_errKind (f : Byte) (s : State) :
    (loadFlags f s).errKind = s.errKind := rfl
@[simp] theorem loadFlags_errSub (f : Byte) (s : State) : (loadFlags f s).errSub = s.errSub := rfl
@[simp] theorem loadFlags_rawsize (f : Byte) (s : State) :
    (loadFlags f s).rawsize = s.rawsize := rfl
@[simp] theorem loadFlags_result (f : Byte) (s : State) : (loadFlags f s).result = s.result := rfl
@[simp] theorem loadFlags_erroff (f : Byte) (s : State) : (loadFlags f s).erroff = s.erroff := rfl
@[simp] theorem loadFlags_errfoff (f : Byte) (s : State) :
    (loadFlags f s).errfoff = s.errfoff := rfl
@[simp] theorem loadFlags_op (f : Byte) (s : State) : (loadFlags f s).op = s.op := rfl
@[simp] theorem loadFlags_variant (f : Byte) (s : State) :
    (loadFlags f s).variant = s.variant := rfl
@[simp] theorem loadFlags_ovl (f : Byte) (s : State) : (loadFlags f s).ovl = s.ovl := rfl
@[simp] theorem loadFlags_dispExtra (f : Byte) (s : State) :
    (loadFlags f s).dispExtra = s.dispExtra := rfl
@[simp] theorem loadFlags_size (f : Byte) (s : State) : (loadFlags f s).size = s.size := rfl
@[simp] theorem loadFlags_ip (f : Byte) (s : State) : (loadFlags f s).ip = s.ip := rfl
@[simp] theorem loadFlags_flags (f : Byte) (s : State) : (loadFlags f s).flags = f := rfl
@[simp] theorem loadFlags_fcnt (f : Byte) (s : State) : (loadFlags f s).fcnt = 8 := rfl
@[simp] theorem loadFlags_fpos (f : Byte) (s : State) :
    (loadFlags f s).fpos = some (s.ip - 1) := rfl
@[simp] theorem loadFlags_tpos (f : Byte) (s : State) : (loadFlags f s).tpos = s.tpos := rfl
@[simp] theorem loadFlags_total (f : Byte) (s : State) : (loadFlags f s).total = s.total := rfl
@[simp] theorem loadFlags_out (f : Byte) (s : State) : (loadFlags f s).out = s.out := rfl
@[simp] theorem loadFlags_inp (f : Byte) (s : State) : (loadFlags f s).inp = s.inp := rfl
@[simp] theorem loadFlags_pos (f : Byte) (s : State) : (loadFlags f s).pos = s.pos := rfl
@[simp] theorem loadFlags_win (f : Byte) (s : State) : (loadFlags f s).win = s.win := rfl
@[simp] theorem loadFlags_wfill (f : Byte) (s : State) : (loadFlags f s).wfill = s.wfill := rfl
@[simp] theorem loadFlags_chunk (f : Byte) (s : State) : (loadFlags f s).chunk = s.chunk := rfl
@[simp] theorem loadFlags_ccnt (f : Byte) (s : State) : (loadFlags f s).ccnt = s.ccnt := rfl
@[simp] theorem loadFlags_len (f : Byte) (s : State) : (loadFlags f s).len = s.len := rfl
@[simp] theorem loadFlags_endField (f : Byte) (s : State) :
    (loadFlags f s).endField = s.endField := rfl
@[simp] theorem loadFlags_startDelta (f : Byte) (s : State) :
    (loadFlags f s).startDelta = s.startDelta := rfl
@[simp] theorem loadFlags_padding (f : Byte) (s : State) :
    (loadFlags f s).padding = s.padding := rfl
@[simp] theorem loadFlags_endDelta (f : Byte) (s : State) :
    (loadFlags f s).endDelta = s.endDelta := rfl
@[simp] theorem loadFlags_src (f : Byte) (s : State) : (loadFlags f s).src = s.src := rfl
@[simp] theorem loadFlags_inPort (f : Byte) (s : State) : (loadFlags f s).inPort = s.inPort := rfl
@[simp] theorem loadFlags_hostQ (f : Byte) (s : State) : (loadFlags f s).hostQ = s.hostQ := rfl
@[simp] theorem loadFlags_hostData (f : Byte) (s : State) :
    (loadFlags f s).hostData = s.hostData := rfl
@[simp] theorem loadFlags_hostBytes (f : Byte) (s : State) :
    (loadFlags f s).hostBytes = s.hostBytes := rfl
@[simp] theorem loadFlags_config (f : Byte) (s : State) : (loadFlags f s).config = s.config := rfl
@[simp] theorem loadFlags_freeIx (f : Byte) (s : State) : (loadFlags f s).freeIx = s.freeIx := rfl

/-! `takeFlagBit` -/

@[simp] theorem takeFlagBit_st (s : State) : (takeFlagBit s).st = s.st := rfl
@[simp] theorem takeFlagBit_errKind (s : State) : (takeFlagBit s).errKind = s.errKind := rfl
@[simp] theorem takeFlagBit_errSub (s : State) : (takeFlagBit s).errSub = s.errSub := rfl
@[simp] theorem takeFlagBit_rawsize (s : State) : (takeFlagBit s).rawsize = s.rawsize := rfl
@[simp] theorem takeFlagBit_result (s : State) : (takeFlagBit s).result = s.result := rfl
@[simp] theorem takeFlagBit_erroff (s : State) : (takeFlagBit s).erroff = s.erroff := rfl
@[simp] theorem takeFlagBit_errfoff (s : State) : (takeFlagBit s).errfoff = s.errfoff := rfl
@[simp] theorem takeFlagBit_op (s : State) : (takeFlagBit s).op = s.op := rfl
@[simp] theorem takeFlagBit_variant (s : State) : (takeFlagBit s).variant = s.variant := rfl
@[simp] theorem takeFlagBit_ovl (s : State) : (takeFlagBit s).ovl = s.ovl := rfl
@[simp] theorem takeFlagBit_dispExtra (s : State) : (takeFlagBit s).dispExtra = s.dispExtra := rfl
@[simp] theorem takeFlagBit_size (s : State) : (takeFlagBit s).size = s.size := rfl
@[simp] theorem takeFlagBit_ip (s : State) : (takeFlagBit s).ip = s.ip := rfl
@[simp] theorem takeFlagBit_flags (s : State) : (takeFlagBit s).flags = s.flags <<< 1 := rfl
@[simp] theorem takeFlagBit_fcnt (s : State) : (takeFlagBit s).fcnt = s.fcnt - 1 := rfl
@[simp] theorem takeFlagBit_fpos (s : State) : (takeFlagBit s).fpos = s.fpos := rfl
@[simp] theorem takeFlagBit_tpos (s : State) : (takeFlagBit s).tpos = s.ip := rfl
@[simp] theorem takeFlagBit_total (s : State) : (takeFlagBit s).total = s.total := rfl
@[simp] theorem takeFlagBit_out (s : State) : (takeFlagBit s).out = s.out := rfl
@[simp] theorem takeFlagBit_inp (s : State) : (takeFlagBit s).inp = s.inp := rfl
@[simp] theorem takeFlagBit_pos (s : State) : (takeFlagBit s).pos = s.pos := rfl
@[simp] theorem takeFlagBit_win (s : State) : (takeFlagBit s).win = s.win := rfl
@[simp] theorem takeFlagBit_wfill (s : State) : (takeFlagBit s).wfill = s.wfill := rfl
@[simp] theorem takeFlagBit_chunk (s : State) : (takeFlagBit s).chunk = s.chunk := rfl
@[simp] theorem takeFlagBit_ccnt (s : State) : (takeFlagBit s).ccnt = s.ccnt := rfl
@[simp] theorem takeFlagBit_len (s : State) : (takeFlagBit s).len = s.len := rfl
@[simp] theorem takeFlagBit_endField (s : State) : (takeFlagBit s).endField = s.endField := rfl
@[simp] theorem takeFlagBit_startDelta (s : State) :
    (takeFlagBit s).startDelta = s.startDelta := rfl
@[simp] theorem takeFlagBit_padding (s : State) : (takeFlagBit s).padding = s.padding := rfl
@[simp] theorem takeFlagBit_endDelta (s : State) : (takeFlagBit s).endDelta = s.endDelta := rfl
@[simp] theorem takeFlagBit_src (s : State) : (takeFlagBit s).src = s.src := rfl
@[simp] theorem takeFlagBit_inPort (s : State) : (takeFlagBit s).inPort = s.inPort := rfl
@[simp] theorem takeFlagBit_hostQ (s : State) : (takeFlagBit s).hostQ = s.hostQ := rfl
@[simp] theorem takeFlagBit_hostData (s : State) : (takeFlagBit s).hostData = s.hostData := rfl
@[simp] theorem takeFlagBit_hostBytes (s : State) : (takeFlagBit s).hostBytes = s.hostBytes := rfl
@[simp] theorem takeFlagBit_config (s : State) : (takeFlagBit s).config = s.config := rfl
@[simp] theorem takeFlagBit_freeIx (s : State) : (takeFlagBit s).freeIx = s.freeIx := rfl

/-! `slideWindow` -/

@[simp] theorem slideWindow_st (n : Nat) (s : State) : (slideWindow n s).st = s.st := rfl
@[simp] theorem slideWindow_errKind (n : Nat) (s : State) :
    (slideWindow n s).errKind = s.errKind := rfl
@[simp] theorem slideWindow_errSub (n : Nat) (s : State) :
    (slideWindow n s).errSub = s.errSub := rfl
@[simp] theorem slideWindow_rawsize (n : Nat) (s : State) :
    (slideWindow n s).rawsize = s.rawsize := rfl
@[simp] theorem slideWindow_result (n : Nat) (s : State) :
    (slideWindow n s).result = s.result := rfl
@[simp] theorem slideWindow_erroff (n : Nat) (s : State) :
    (slideWindow n s).erroff = s.erroff := rfl
@[simp] theorem slideWindow_errfoff (n : Nat) (s : State) :
    (slideWindow n s).errfoff = s.errfoff := rfl
@[simp] theorem slideWindow_op (n : Nat) (s : State) : (slideWindow n s).op = s.op := rfl
@[simp] theorem slideWindow_variant (n : Nat) (s : State) :
    (slideWindow n s).variant = s.variant := rfl
@[simp] theorem slideWindow_ovl (n : Nat) (s : State) : (slideWindow n s).ovl = s.ovl := rfl
@[simp] theorem slideWindow_dispExtra (n : Nat) (s : State) :
    (slideWindow n s).dispExtra = s.dispExtra := rfl
@[simp] theorem slideWindow_size (n : Nat) (s : State) : (slideWindow n s).size = s.size := rfl
@[simp] theorem slideWindow_ip (n : Nat) (s : State) : (slideWindow n s).ip = s.ip := rfl
@[simp] theorem slideWindow_flags (n : Nat) (s : State) : (slideWindow n s).flags = s.flags := rfl
@[simp] theorem slideWindow_fcnt (n : Nat) (s : State) : (slideWindow n s).fcnt = s.fcnt := rfl
@[simp] theorem slideWindow_fpos (n : Nat) (s : State) : (slideWindow n s).fpos = s.fpos := rfl
@[simp] theorem slideWindow_tpos (n : Nat) (s : State) : (slideWindow n s).tpos = s.tpos := rfl
@[simp] theorem slideWindow_total (n : Nat) (s : State) : (slideWindow n s).total = s.total := rfl
@[simp] theorem slideWindow_out (n : Nat) (s : State) : (slideWindow n s).out = s.out := rfl
@[simp] theorem slideWindow_inp (n : Nat) (s : State) : (slideWindow n s).inp = s.inp := rfl
@[simp] theorem slideWindow_pos (n : Nat) (s : State) : (slideWindow n s).pos = s.pos + n := rfl
@[simp] theorem slideWindow_win (n : Nat) (s : State) :
    (slideWindow n s).win = writeWindow (slice s.inp s.pos (s.pos + n)) s.pos s.win := rfl
@[simp] theorem slideWindow_wfill (n : Nat) (s : State) :
    (slideWindow n s).wfill = min (s.pos + n) windowSize := rfl
@[simp] theorem slideWindow_chunk (n : Nat) (s : State) : (slideWindow n s).chunk = s.chunk := rfl
@[simp] theorem slideWindow_ccnt (n : Nat) (s : State) : (slideWindow n s).ccnt = s.ccnt := rfl
@[simp] theorem slideWindow_len (n : Nat) (s : State) : (slideWindow n s).len = s.len := rfl
@[simp] theorem slideWindow_endField (n : Nat) (s : State) :
    (slideWindow n s).endField = s.endField := rfl
@[simp] theorem slideWindow_startDelta (n : Nat) (s : State) :
    (slideWindow n s).startDelta = s.startDelta := rfl
@[simp] theorem slideWindow_padding (n : Nat) (s : State) :
    (slideWindow n s).padding = s.padding := rfl
@[simp] theorem slideWindow_endDelta (n : Nat) (s : State) :
    (slideWindow n s).endDelta = s.endDelta := rfl
@[simp] theorem slideWindow_src (n : Nat) (s : State) : (slideWindow n s).src = s.src := rfl
@[simp] theorem slideWindow_inPort (n : Nat) (s : State) :
    (slideWindow n s).inPort = s.inPort := rfl
@[simp] theorem slideWindow_hostQ (n : Nat) (s : State) : (slideWindow n s).hostQ = s.hostQ := rfl
@[simp] theorem slideWindow_hostData (n : Nat) (s : State) :
    (slideWindow n s).hostData = s.hostData := rfl
@[simp] theorem slideWindow_hostBytes (n : Nat) (s : State) :
    (slideWindow n s).hostBytes = s.hostBytes := rfl
@[simp] theorem slideWindow_config (n : Nat) (s : State) :
    (slideWindow n s).config = s.config := rfl
@[simp] theorem slideWindow_freeIx (n : Nat) (s : State) :
    (slideWindow n s).freeIx = s.freeIx := rfl

/-! `noteToken` -/

@[simp] theorem noteToken_st (t : Token) (s : State) : (noteToken t s).st = s.st := rfl
@[simp] theorem noteToken_errKind (t : Token) (s : State) :
    (noteToken t s).errKind = s.errKind := rfl
@[simp] theorem noteToken_errSub (t : Token) (s : State) : (noteToken t s).errSub = s.errSub := rfl
@[simp] theorem noteToken_rawsize (t : Token) (s : State) :
    (noteToken t s).rawsize = s.rawsize := rfl
@[simp] theorem noteToken_result (t : Token) (s : State) : (noteToken t s).result = s.result := rfl
@[simp] theorem noteToken_erroff (t : Token) (s : State) : (noteToken t s).erroff = s.erroff := rfl
@[simp] theorem noteToken_errfoff (t : Token) (s : State) :
    (noteToken t s).errfoff = s.errfoff := rfl
@[simp] theorem noteToken_op (t : Token) (s : State) : (noteToken t s).op = s.op := rfl
@[simp] theorem noteToken_variant (t : Token) (s : State) :
    (noteToken t s).variant = s.variant := rfl
@[simp] theorem noteToken_ovl (t : Token) (s : State) : (noteToken t s).ovl = s.ovl := rfl
@[simp] theorem noteToken_dispExtra (t : Token) (s : State) :
    (noteToken t s).dispExtra = s.dispExtra := rfl
@[simp] theorem noteToken_size (t : Token) (s : State) : (noteToken t s).size = s.size := rfl
@[simp] theorem noteToken_ip (t : Token) (s : State) : (noteToken t s).ip = s.ip := rfl
@[simp] theorem noteToken_flags (t : Token) (s : State) : (noteToken t s).flags = s.flags := rfl
@[simp] theorem noteToken_fcnt (t : Token) (s : State) : (noteToken t s).fcnt = s.fcnt := rfl
@[simp] theorem noteToken_fpos (t : Token) (s : State) : (noteToken t s).fpos = s.fpos := rfl
@[simp] theorem noteToken_tpos (t : Token) (s : State) : (noteToken t s).tpos = s.tpos := rfl
@[simp] theorem noteToken_total (t : Token) (s : State) : (noteToken t s).total = s.total := rfl
@[simp] theorem noteToken_out (t : Token) (s : State) : (noteToken t s).out = s.out := rfl
@[simp] theorem noteToken_inp (t : Token) (s : State) : (noteToken t s).inp = s.inp := rfl
@[simp] theorem noteToken_pos (t : Token) (s : State) : (noteToken t s).pos = s.pos := rfl
@[simp] theorem noteToken_win (t : Token) (s : State) : (noteToken t s).win = s.win := rfl
@[simp] theorem noteToken_wfill (t : Token) (s : State) : (noteToken t s).wfill = s.wfill := rfl
@[simp] theorem noteToken_chunk (t : Token) (s : State) :
    (noteToken t s).chunk = s.chunk ++ [{ tok := t, start := s.pos }] := rfl
@[simp] theorem noteToken_ccnt (t : Token) (s : State) : (noteToken t s).ccnt = s.ccnt + 1 := rfl
@[simp] theorem noteToken_len (t : Token) (s : State) : (noteToken t s).len = s.len := rfl
@[simp] theorem noteToken_endField (t : Token) (s : State) :
    (noteToken t s).endField = s.endField := rfl
@[simp] theorem noteToken_startDelta (t : Token) (s : State) :
    (noteToken t s).startDelta = s.startDelta := rfl
@[simp] theorem noteToken_padding (t : Token) (s : State) :
    (noteToken t s).padding = s.padding := rfl
@[simp] theorem noteToken_endDelta (t : Token) (s : State) :
    (noteToken t s).endDelta = s.endDelta := rfl
@[simp] theorem noteToken_src (t : Token) (s : State) : (noteToken t s).src = s.src := rfl
@[simp] theorem noteToken_inPort (t : Token) (s : State) : (noteToken t s).inPort = s.inPort := rfl
@[simp] theorem noteToken_hostQ (t : Token) (s : State) : (noteToken t s).hostQ = s.hostQ := rfl
@[simp] theorem noteToken_hostData (t : Token) (s : State) :
    (noteToken t s).hostData = s.hostData := rfl
@[simp] theorem noteToken_hostBytes (t : Token) (s : State) :
    (noteToken t s).hostBytes = s.hostBytes := rfl
@[simp] theorem noteToken_config (t : Token) (s : State) : (noteToken t s).config = s.config := rfl
@[simp] theorem noteToken_freeIx (t : Token) (s : State) : (noteToken t s).freeIx = s.freeIx := rfl

/-! `loadTrailer` -/

@[simp] theorem loadTrailer_st (e : BitVec 24) (p : BitVec 8) (sd : BitVec 32) (s : State) :
    (loadTrailer e p sd s).st = s.st := rfl
@[simp] theorem loadTrailer_errKind (e : BitVec 24) (p : BitVec 8) (sd : BitVec 32) (s : State) :
    (loadTrailer e p sd s).errKind = s.errKind := rfl
@[simp] theorem loadTrailer_errSub (e : BitVec 24) (p : BitVec 8) (sd : BitVec 32) (s : State) :
    (loadTrailer e p sd s).errSub = s.errSub := rfl
@[simp] theorem loadTrailer_rawsize (e : BitVec 24) (p : BitVec 8) (sd : BitVec 32) (s : State) :
    (loadTrailer e p sd s).rawsize = s.rawsize := rfl
@[simp] theorem loadTrailer_result (e : BitVec 24) (p : BitVec 8) (sd : BitVec 32) (s : State) :
    (loadTrailer e p sd s).result = s.result := rfl
@[simp] theorem loadTrailer_erroff (e : BitVec 24) (p : BitVec 8) (sd : BitVec 32) (s : State) :
    (loadTrailer e p sd s).erroff = s.erroff := rfl
@[simp] theorem loadTrailer_errfoff (e : BitVec 24) (p : BitVec 8) (sd : BitVec 32) (s : State) :
    (loadTrailer e p sd s).errfoff = s.errfoff := rfl
@[simp] theorem loadTrailer_op (e : BitVec 24) (p : BitVec 8) (sd : BitVec 32) (s : State) :
    (loadTrailer e p sd s).op = s.op := rfl
@[simp] theorem loadTrailer_variant (e : BitVec 24) (p : BitVec 8) (sd : BitVec 32) (s : State) :
    (loadTrailer e p sd s).variant = s.variant := rfl
@[simp] theorem loadTrailer_ovl (e : BitVec 24) (p : BitVec 8) (sd : BitVec 32) (s : State) :
    (loadTrailer e p sd s).ovl = s.ovl := rfl
@[simp] theorem loadTrailer_dispExtra (e : BitVec 24) (p : BitVec 8) (sd : BitVec 32) (s : State) :
    (loadTrailer e p sd s).dispExtra = s.dispExtra := rfl
@[simp] theorem loadTrailer_size (e : BitVec 24) (p : BitVec 8) (sd : BitVec 32) (s : State) :
    (loadTrailer e p sd s).size = trailerSize e sd := rfl
@[simp] theorem loadTrailer_ip (e : BitVec 24) (p : BitVec 8) (sd : BitVec 32) (s : State) :
    (loadTrailer e p sd s).ip = s.ip := rfl
@[simp] theorem loadTrailer_flags (e : BitVec 24) (p : BitVec 8) (sd : BitVec 32) (s : State) :
    (loadTrailer e p sd s).flags = s.flags := rfl
@[simp] theorem loadTrailer_fcnt (e : BitVec 24) (p : BitVec 8) (sd : BitVec 32) (s : State) :
    (loadTrailer e p sd s).fcnt = s.fcnt := rfl
@[simp] theorem loadTrailer_fpos (e : BitVec 24) (p : BitVec 8) (sd : BitVec 32) (s : State) :
    (loadTrailer e p sd s).fpos = s.fpos := rfl
@[simp] theorem loadTrailer_tpos (e : BitVec 24) (p : BitVec 8) (sd : BitVec 32) (s : State) :
    (loadTrailer e p sd s).tpos = s.tpos := rfl
@[simp] theorem loadTrailer_total (e : BitVec 24) (p : BitVec 8) (sd : BitVec 32) (s : State) :
    (loadTrailer e p sd s).total = s.total := rfl
@[simp] theorem loadTrailer_out (e : BitVec 24) (p : BitVec 8) (sd : BitVec 32) (s : State) :
    (loadTrailer e p sd s).out = s.out := rfl
@[simp] theorem loadTrailer_inp (e : BitVec 24) (p : BitVec 8) (sd : BitVec 32) (s : State) :
    (loadTrailer e p sd s).inp = s.inp := rfl
@[simp] theorem loadTrailer_pos (e : BitVec 24) (p : BitVec 8) (sd : BitVec 32) (s : State) :
    (loadTrailer e p sd s).pos = s.pos := rfl
@[simp] theorem loadTrailer_win (e : BitVec 24) (p : BitVec 8) (sd : BitVec 32) (s : State) :
    (loadTrailer e p sd s).win = s.win := rfl
@[simp] theorem loadTrailer_wfill (e : BitVec 24) (p : BitVec 8) (sd : BitVec 32) (s : State) :
    (loadTrailer e p sd s).wfill = s.wfill := rfl
@[simp] theorem loadTrailer_chunk (e : BitVec 24) (p : BitVec 8) (sd : BitVec 32) (s : State) :
    (loadTrailer e p sd s).chunk = s.chunk := rfl
@[simp] theorem loadTrailer_ccnt (e : BitVec 24) (p : BitVec 8) (sd : BitVec 32) (s : State) :
    (loadTrailer e p sd s).ccnt = s.ccnt := rfl
@[simp] theorem loadTrailer_len (e : BitVec 24) (p : BitVec 8) (sd : BitVec 32) (s : State) :
    (loadTrailer e p sd s).len = s.len := rfl
@[simp] theorem loadTrailer_endField (e : BitVec 24) (p : BitVec 8) (sd : BitVec 32) (s : State) :
    (loadTrailer e p sd s).endField = trailerEndField e p := rfl
@[simp] theorem loadTrailer_startDelta (e : BitVec 24) (p : BitVec 8) (sd : BitVec 32) (s : State) :
    (loadTrailer e p sd s).startDelta = sd := rfl
@[simp] theorem loadTrailer_padding (e : BitVec 24) (p : BitVec 8) (sd : BitVec 32) (s : State) :
    (loadTrailer e p sd s).padding = p := rfl
@[simp] theorem loadTrailer_endDelta (e : BitVec 24) (p : BitVec 8) (sd : BitVec 32) (s : State) :
    (loadTrailer e p sd s).endDelta = e := rfl
@[simp] theorem loadTrailer_src (e : BitVec 24) (p : BitVec 8) (sd : BitVec 32) (s : State) :
    (loadTrailer e p sd s).src = s.src := rfl
@[simp] theorem loadTrailer_inPort (e : BitVec 24) (p : BitVec 8) (sd : BitVec 32) (s : State) :
    (loadTrailer e p sd s).inPort = s.inPort := rfl
@[simp] theorem loadTrailer_hostQ (e : BitVec 24) (p : BitVec 8) (sd : BitVec 32) (s : State) :
    (loadTrailer e p sd s).hostQ = s.hostQ := rfl
@[simp] theorem loadTrailer_hostData (e : BitVec 24) (p : BitVec 8) (sd : BitVec 32) (s : State) :
    (loadTrailer e p sd s).hostData = s.hostData := rfl
@[simp] theorem loadTrailer_hostBytes (e : BitVec 24) (p : BitVec 8) (sd : BitVec 32) (s : State) :
    (loadTrailer e p sd s).hostBytes = s.hostBytes := rfl
@[simp] theorem loadTrailer_config (e : BitVec 24) (p : BitVec 8) (sd : BitVec 32) (s : State) :
    (loadTrailer e p sd s).config = s.config := rfl
@[simp] theorem loadTrailer_freeIx (e : BitVec 24) (p : BitVec 8) (sd : BitVec 32) (s : State) :
    (loadTrailer e p sd s).freeIx = s.freeIx := rfl

/-! `startOverlay` -/

@[simp] theorem startOverlay_st (s : State) : (startOverlay s).st = .busy .tokens := rfl
@[simp] theorem startOverlay_errKind (s : State) : (startOverlay s).errKind = s.errKind := rfl
@[simp] theorem startOverlay_errSub (s : State) : (startOverlay s).errSub = s.errSub := rfl
@[simp] theorem startOverlay_rawsize (s : State) : (startOverlay s).rawsize = s.rawsize := rfl
@[simp] theorem startOverlay_result (s : State) : (startOverlay s).result = s.result := rfl
@[simp] theorem startOverlay_erroff (s : State) : (startOverlay s).erroff = s.erroff := rfl
@[simp] theorem startOverlay_errfoff (s : State) : (startOverlay s).errfoff = s.errfoff := rfl
@[simp] theorem startOverlay_op (s : State) : (startOverlay s).op = s.op := rfl
@[simp] theorem startOverlay_variant (s : State) : (startOverlay s).variant = .v10 := rfl
@[simp] theorem startOverlay_ovl (s : State) : (startOverlay s).ovl = s.ovl := rfl
@[simp] theorem startOverlay_dispExtra (s : State) : (startOverlay s).dispExtra = 3 := rfl
@[simp] theorem startOverlay_size (s : State) : (startOverlay s).size = s.size := rfl
@[simp] theorem startOverlay_ip (s : State) : (startOverlay s).ip = 0 := rfl
@[simp] theorem startOverlay_flags (s : State) : (startOverlay s).flags = s.flags := rfl
@[simp] theorem startOverlay_fcnt (s : State) : (startOverlay s).fcnt = 0 := rfl
@[simp] theorem startOverlay_fpos (s : State) : (startOverlay s).fpos = none := rfl
@[simp] theorem startOverlay_tpos (s : State) : (startOverlay s).tpos = s.tpos := rfl
@[simp] theorem startOverlay_total (s : State) : (startOverlay s).total = 0 := rfl
@[simp] theorem startOverlay_out (s : State) : (startOverlay s).out = [] := rfl
@[simp] theorem startOverlay_inp (s : State) : (startOverlay s).inp = s.inp := rfl
@[simp] theorem startOverlay_pos (s : State) : (startOverlay s).pos = s.pos := rfl
@[simp] theorem startOverlay_win (s : State) : (startOverlay s).win = s.win := rfl
@[simp] theorem startOverlay_wfill (s : State) : (startOverlay s).wfill = s.wfill := rfl
@[simp] theorem startOverlay_chunk (s : State) : (startOverlay s).chunk = s.chunk := rfl
@[simp] theorem startOverlay_ccnt (s : State) : (startOverlay s).ccnt = s.ccnt := rfl
@[simp] theorem startOverlay_len (s : State) : (startOverlay s).len = s.len := rfl
@[simp] theorem startOverlay_endField (s : State) : (startOverlay s).endField = s.endField := rfl
@[simp] theorem startOverlay_startDelta (s : State) :
    (startOverlay s).startDelta = s.startDelta := rfl
@[simp] theorem startOverlay_padding (s : State) : (startOverlay s).padding = s.padding := rfl
@[simp] theorem startOverlay_endDelta (s : State) : (startOverlay s).endDelta = s.endDelta := rfl
@[simp] theorem startOverlay_src (s : State) :
    (startOverlay s).src = (overlayRegion s).reverse := rfl
@[simp] theorem startOverlay_inPort (s : State) : (startOverlay s).inPort = s.inPort := rfl
@[simp] theorem startOverlay_hostQ (s : State) : (startOverlay s).hostQ = s.hostQ := rfl
@[simp] theorem startOverlay_hostData (s : State) : (startOverlay s).hostData = s.hostData := rfl
@[simp] theorem startOverlay_hostBytes (s : State) : (startOverlay s).hostBytes = s.hostBytes := rfl
@[simp] theorem startOverlay_config (s : State) : (startOverlay s).config = s.config := rfl
@[simp] theorem startOverlay_freeIx (s : State) : (startOverlay s).freeIx = s.freeIx := rfl

/-! `startVerify` -/

@[simp] theorem startVerify_st (s : State) : (startVerify s).st = .busy .tokens := rfl
@[simp] theorem startVerify_errKind (s : State) : (startVerify s).errKind = s.errKind := rfl
@[simp] theorem startVerify_errSub (s : State) : (startVerify s).errSub = s.errSub := rfl
@[simp] theorem startVerify_rawsize (s : State) : (startVerify s).rawsize = s.rawsize := rfl
@[simp] theorem startVerify_result (s : State) : (startVerify s).result = s.result := rfl
@[simp] theorem startVerify_erroff (s : State) : (startVerify s).erroff = s.erroff := rfl
@[simp] theorem startVerify_errfoff (s : State) : (startVerify s).errfoff = s.errfoff := rfl
@[simp] theorem startVerify_op (s : State) : (startVerify s).op = s.op := rfl
@[simp] theorem startVerify_variant (s : State) : (startVerify s).variant = s.variant := rfl
@[simp] theorem startVerify_ovl (s : State) : (startVerify s).ovl = s.ovl := rfl
@[simp] theorem startVerify_dispExtra (s : State) : (startVerify s).dispExtra = s.dispExtra := rfl
@[simp] theorem startVerify_size (s : State) : (startVerify s).size = s.size := rfl
@[simp] theorem startVerify_ip (s : State) : (startVerify s).ip = s.ip := rfl
@[simp] theorem startVerify_flags (s : State) : (startVerify s).flags = s.flags := rfl
@[simp] theorem startVerify_fcnt (s : State) : (startVerify s).fcnt = 0 := rfl
@[simp] theorem startVerify_fpos (s : State) : (startVerify s).fpos = none := rfl
@[simp] theorem startVerify_tpos (s : State) : (startVerify s).tpos = s.tpos := rfl
@[simp] theorem startVerify_total (s : State) : (startVerify s).total = 0 := rfl
@[simp] theorem startVerify_out (s : State) : (startVerify s).out = s.out := rfl
@[simp] theorem startVerify_inp (s : State) : (startVerify s).inp = s.inp := rfl
@[simp] theorem startVerify_pos (s : State) : (startVerify s).pos = s.pos := rfl
@[simp] theorem startVerify_win (s : State) : (startVerify s).win = s.win := rfl
@[simp] theorem startVerify_wfill (s : State) : (startVerify s).wfill = s.wfill := rfl
@[simp] theorem startVerify_chunk (s : State) : (startVerify s).chunk = s.chunk := rfl
@[simp] theorem startVerify_ccnt (s : State) : (startVerify s).ccnt = s.ccnt := rfl
@[simp] theorem startVerify_len (s : State) : (startVerify s).len = s.len := rfl
@[simp] theorem startVerify_endField (s : State) : (startVerify s).endField = s.endField := rfl
@[simp] theorem startVerify_startDelta (s : State) :
    (startVerify s).startDelta = s.startDelta := rfl
@[simp] theorem startVerify_padding (s : State) : (startVerify s).padding = s.padding := rfl
@[simp] theorem startVerify_endDelta (s : State) : (startVerify s).endDelta = s.endDelta := rfl
@[simp] theorem startVerify_src (s : State) : (startVerify s).src = s.src := rfl
@[simp] theorem startVerify_inPort (s : State) : (startVerify s).inPort = s.inPort := rfl
@[simp] theorem startVerify_hostQ (s : State) : (startVerify s).hostQ = s.hostQ := rfl
@[simp] theorem startVerify_hostData (s : State) : (startVerify s).hostData = s.hostData := rfl
@[simp] theorem startVerify_hostBytes (s : State) : (startVerify s).hostBytes = s.hostBytes := rfl
@[simp] theorem startVerify_config (s : State) : (startVerify s).config = s.config := rfl
@[simp] theorem startVerify_freeIx (s : State) : (startVerify s).freeIx = s.freeIx := rfl

/-! `awaitHeader` -/

@[simp] theorem awaitHeader_st (s : State) : (awaitHeader s).st = .busy .header := rfl
@[simp] theorem awaitHeader_errKind (s : State) : (awaitHeader s).errKind = s.errKind := rfl
@[simp] theorem awaitHeader_errSub (s : State) : (awaitHeader s).errSub = s.errSub := rfl
@[simp] theorem awaitHeader_rawsize (s : State) : (awaitHeader s).rawsize = s.rawsize := rfl
@[simp] theorem awaitHeader_result (s : State) : (awaitHeader s).result = s.result := rfl
@[simp] theorem awaitHeader_erroff (s : State) : (awaitHeader s).erroff = s.erroff := rfl
@[simp] theorem awaitHeader_errfoff (s : State) : (awaitHeader s).errfoff = s.errfoff := rfl
@[simp] theorem awaitHeader_op (s : State) : (awaitHeader s).op = s.op := rfl
@[simp] theorem awaitHeader_variant (s : State) : (awaitHeader s).variant = s.variant := rfl
@[simp] theorem awaitHeader_ovl (s : State) : (awaitHeader s).ovl = s.ovl := rfl
@[simp] theorem awaitHeader_dispExtra (s : State) : (awaitHeader s).dispExtra = s.dispExtra := rfl
@[simp] theorem awaitHeader_size (s : State) : (awaitHeader s).size = s.size := rfl
@[simp] theorem awaitHeader_ip (s : State) : (awaitHeader s).ip = s.ip := rfl
@[simp] theorem awaitHeader_flags (s : State) : (awaitHeader s).flags = s.flags := rfl
@[simp] theorem awaitHeader_fcnt (s : State) : (awaitHeader s).fcnt = s.fcnt := rfl
@[simp] theorem awaitHeader_fpos (s : State) : (awaitHeader s).fpos = s.fpos := rfl
@[simp] theorem awaitHeader_tpos (s : State) : (awaitHeader s).tpos = s.tpos := rfl
@[simp] theorem awaitHeader_total (s : State) : (awaitHeader s).total = s.total := rfl
@[simp] theorem awaitHeader_out (s : State) : (awaitHeader s).out = s.out := rfl
@[simp] theorem awaitHeader_inp (s : State) : (awaitHeader s).inp = s.inp := rfl
@[simp] theorem awaitHeader_pos (s : State) : (awaitHeader s).pos = s.pos := rfl
@[simp] theorem awaitHeader_win (s : State) : (awaitHeader s).win = s.win := rfl
@[simp] theorem awaitHeader_wfill (s : State) : (awaitHeader s).wfill = s.wfill := rfl
@[simp] theorem awaitHeader_chunk (s : State) : (awaitHeader s).chunk = s.chunk := rfl
@[simp] theorem awaitHeader_ccnt (s : State) : (awaitHeader s).ccnt = s.ccnt := rfl
@[simp] theorem awaitHeader_len (s : State) : (awaitHeader s).len = s.len := rfl
@[simp] theorem awaitHeader_endField (s : State) : (awaitHeader s).endField = s.endField := rfl
@[simp] theorem awaitHeader_startDelta (s : State) :
    (awaitHeader s).startDelta = s.startDelta := rfl
@[simp] theorem awaitHeader_padding (s : State) : (awaitHeader s).padding = s.padding := rfl
@[simp] theorem awaitHeader_endDelta (s : State) : (awaitHeader s).endDelta = s.endDelta := rfl
@[simp] theorem awaitHeader_src (s : State) : (awaitHeader s).src = s.src := rfl
@[simp] theorem awaitHeader_inPort (s : State) : (awaitHeader s).inPort = s.inPort := rfl
@[simp] theorem awaitHeader_hostQ (s : State) : (awaitHeader s).hostQ = s.hostQ := rfl
@[simp] theorem awaitHeader_hostData (s : State) : (awaitHeader s).hostData = s.hostData := rfl
@[simp] theorem awaitHeader_hostBytes (s : State) : (awaitHeader s).hostBytes = s.hostBytes := rfl
@[simp] theorem awaitHeader_config (s : State) : (awaitHeader s).config = s.config := rfl
@[simp] theorem awaitHeader_freeIx (s : State) : (awaitHeader s).freeIx = s.freeIx := rfl

/-! `awaitInput` -/

@[simp] theorem awaitInput_st (s : State) : (awaitInput s).st = .busy .gather := rfl
@[simp] theorem awaitInput_errKind (s : State) : (awaitInput s).errKind = s.errKind := rfl
@[simp] theorem awaitInput_errSub (s : State) : (awaitInput s).errSub = s.errSub := rfl
@[simp] theorem awaitInput_rawsize (s : State) : (awaitInput s).rawsize = s.rawsize := rfl
@[simp] theorem awaitInput_result (s : State) : (awaitInput s).result = s.result := rfl
@[simp] theorem awaitInput_erroff (s : State) : (awaitInput s).erroff = s.erroff := rfl
@[simp] theorem awaitInput_errfoff (s : State) : (awaitInput s).errfoff = s.errfoff := rfl
@[simp] theorem awaitInput_op (s : State) : (awaitInput s).op = s.op := rfl
@[simp] theorem awaitInput_variant (s : State) : (awaitInput s).variant = s.variant := rfl
@[simp] theorem awaitInput_ovl (s : State) : (awaitInput s).ovl = s.ovl := rfl
@[simp] theorem awaitInput_dispExtra (s : State) : (awaitInput s).dispExtra = s.dispExtra := rfl
@[simp] theorem awaitInput_size (s : State) : (awaitInput s).size = s.size := rfl
@[simp] theorem awaitInput_ip (s : State) : (awaitInput s).ip = s.ip := rfl
@[simp] theorem awaitInput_flags (s : State) : (awaitInput s).flags = s.flags := rfl
@[simp] theorem awaitInput_fcnt (s : State) : (awaitInput s).fcnt = s.fcnt := rfl
@[simp] theorem awaitInput_fpos (s : State) : (awaitInput s).fpos = s.fpos := rfl
@[simp] theorem awaitInput_tpos (s : State) : (awaitInput s).tpos = s.tpos := rfl
@[simp] theorem awaitInput_total (s : State) : (awaitInput s).total = s.total := rfl
@[simp] theorem awaitInput_out (s : State) : (awaitInput s).out = s.out := rfl
@[simp] theorem awaitInput_inp (s : State) : (awaitInput s).inp = s.inp := rfl
@[simp] theorem awaitInput_pos (s : State) : (awaitInput s).pos = s.pos := rfl
@[simp] theorem awaitInput_win (s : State) : (awaitInput s).win = s.win := rfl
@[simp] theorem awaitInput_wfill (s : State) : (awaitInput s).wfill = s.wfill := rfl
@[simp] theorem awaitInput_chunk (s : State) : (awaitInput s).chunk = s.chunk := rfl
@[simp] theorem awaitInput_ccnt (s : State) : (awaitInput s).ccnt = s.ccnt := rfl
@[simp] theorem awaitInput_len (s : State) : (awaitInput s).len = s.len := rfl
@[simp] theorem awaitInput_endField (s : State) : (awaitInput s).endField = s.endField := rfl
@[simp] theorem awaitInput_startDelta (s : State) : (awaitInput s).startDelta = s.startDelta := rfl
@[simp] theorem awaitInput_padding (s : State) : (awaitInput s).padding = s.padding := rfl
@[simp] theorem awaitInput_endDelta (s : State) : (awaitInput s).endDelta = s.endDelta := rfl
@[simp] theorem awaitInput_src (s : State) : (awaitInput s).src = s.src := rfl
@[simp] theorem awaitInput_inPort (s : State) : (awaitInput s).inPort = s.inPort := rfl
@[simp] theorem awaitInput_hostQ (s : State) : (awaitInput s).hostQ = s.hostQ := rfl
@[simp] theorem awaitInput_hostData (s : State) : (awaitInput s).hostData = s.hostData := rfl
@[simp] theorem awaitInput_hostBytes (s : State) : (awaitInput s).hostBytes = s.hostBytes := rfl
@[simp] theorem awaitInput_config (s : State) : (awaitInput s).config = s.config := rfl
@[simp] theorem awaitInput_freeIx (s : State) : (awaitInput s).freeIx = s.freeIx := rfl

/-! `hostReset`: what is not the block's own; every other field is that of `State.reset`. -/

@[simp] theorem hostReset_st (s : State) : (hostReset s).st = State.reset.st := rfl
@[simp] theorem hostReset_errKind (s : State) : (hostReset s).errKind = State.reset.errKind := rfl
@[simp] theorem hostReset_errSub (s : State) : (hostReset s).errSub = State.reset.errSub := rfl
@[simp] theorem hostReset_rawsize (s : State) : (hostReset s).rawsize = State.reset.rawsize := rfl
@[simp] theorem hostReset_result (s : State) : (hostReset s).result = State.reset.result := rfl
@[simp] theorem hostReset_erroff (s : State) : (hostReset s).erroff = State.reset.erroff := rfl
@[simp] theorem hostReset_errfoff (s : State) : (hostReset s).errfoff = State.reset.errfoff := rfl
@[simp] theorem hostReset_op (s : State) : (hostReset s).op = State.reset.op := rfl
@[simp] theorem hostReset_variant (s : State) : (hostReset s).variant = State.reset.variant := rfl
@[simp] theorem hostReset_ovl (s : State) : (hostReset s).ovl = State.reset.ovl := rfl
@[simp] theorem hostReset_dispExtra (s : State) : (hostReset s).dispExtra = State.reset.dispExtra := rfl
@[simp] theorem hostReset_size (s : State) : (hostReset s).size = State.reset.size := rfl
@[simp] theorem hostReset_ip (s : State) : (hostReset s).ip = State.reset.ip := rfl
@[simp] theorem hostReset_flags (s : State) : (hostReset s).flags = State.reset.flags := rfl
@[simp] theorem hostReset_fcnt (s : State) : (hostReset s).fcnt = State.reset.fcnt := rfl
@[simp] theorem hostReset_fpos (s : State) : (hostReset s).fpos = State.reset.fpos := rfl
@[simp] theorem hostReset_tpos (s : State) : (hostReset s).tpos = State.reset.tpos := rfl
@[simp] theorem hostReset_total (s : State) : (hostReset s).total = State.reset.total := rfl
@[simp] theorem hostReset_out (s : State) : (hostReset s).out = State.reset.out := rfl
@[simp] theorem hostReset_inp (s : State) : (hostReset s).inp = State.reset.inp := rfl
@[simp] theorem hostReset_pos (s : State) : (hostReset s).pos = State.reset.pos := rfl
@[simp] theorem hostReset_win (s : State) : (hostReset s).win = State.reset.win := rfl
@[simp] theorem hostReset_wfill (s : State) : (hostReset s).wfill = State.reset.wfill := rfl
@[simp] theorem hostReset_chunk (s : State) : (hostReset s).chunk = State.reset.chunk := rfl
@[simp] theorem hostReset_ccnt (s : State) : (hostReset s).ccnt = State.reset.ccnt := rfl
@[simp] theorem hostReset_len (s : State) : (hostReset s).len = State.reset.len := rfl
@[simp] theorem hostReset_endField (s : State) : (hostReset s).endField = State.reset.endField := rfl
@[simp] theorem hostReset_startDelta (s : State) : (hostReset s).startDelta = State.reset.startDelta := rfl
@[simp] theorem hostReset_padding (s : State) : (hostReset s).padding = State.reset.padding := rfl
@[simp] theorem hostReset_endDelta (s : State) : (hostReset s).endDelta = State.reset.endDelta := rfl
@[simp] theorem hostReset_src (s : State) : (hostReset s).src = State.reset.src := rfl
@[simp] theorem hostReset_inPort (s : State) : (hostReset s).inPort = State.reset.inPort := rfl
@[simp] theorem hostReset_hostQ (s : State) : (hostReset s).hostQ = s.hostQ := rfl
@[simp] theorem hostReset_hostData (s : State) : (hostReset s).hostData = s.hostData := rfl
@[simp] theorem hostReset_hostBytes (s : State) : (hostReset s).hostBytes = s.hostBytes := rfl
@[simp] theorem hostReset_config (s : State) : (hostReset s).config = s.config := rfl
@[simp] theorem hostReset_freeIx (s : State) : (hostReset s).freeIx = s.freeIx := rfl

/-! `countDelay`: only the queue changes. -/

theorem countDelay_eq (s : State) : countDelay s = { s with hostQ := (countDelay s).hostQ } := by
  unfold countDelay
  split <;> rfl

@[simp] theorem countDelay_st (s : State) : (countDelay s).st = s.st := by
  rw [countDelay_eq]
@[simp] theorem countDelay_errKind (s : State) : (countDelay s).errKind = s.errKind := by
  rw [countDelay_eq]
@[simp] theorem countDelay_errSub (s : State) : (countDelay s).errSub = s.errSub := by
  rw [countDelay_eq]
@[simp] theorem countDelay_rawsize (s : State) : (countDelay s).rawsize = s.rawsize := by
  rw [countDelay_eq]
@[simp] theorem countDelay_result (s : State) : (countDelay s).result = s.result := by
  rw [countDelay_eq]
@[simp] theorem countDelay_erroff (s : State) : (countDelay s).erroff = s.erroff := by
  rw [countDelay_eq]
@[simp] theorem countDelay_errfoff (s : State) : (countDelay s).errfoff = s.errfoff := by
  rw [countDelay_eq]
@[simp] theorem countDelay_op (s : State) : (countDelay s).op = s.op := by
  rw [countDelay_eq]
@[simp] theorem countDelay_variant (s : State) : (countDelay s).variant = s.variant := by
  rw [countDelay_eq]
@[simp] theorem countDelay_ovl (s : State) : (countDelay s).ovl = s.ovl := by
  rw [countDelay_eq]
@[simp] theorem countDelay_dispExtra (s : State) : (countDelay s).dispExtra = s.dispExtra := by
  rw [countDelay_eq]
@[simp] theorem countDelay_size (s : State) : (countDelay s).size = s.size := by
  rw [countDelay_eq]
@[simp] theorem countDelay_ip (s : State) : (countDelay s).ip = s.ip := by
  rw [countDelay_eq]
@[simp] theorem countDelay_flags (s : State) : (countDelay s).flags = s.flags := by
  rw [countDelay_eq]
@[simp] theorem countDelay_fcnt (s : State) : (countDelay s).fcnt = s.fcnt := by
  rw [countDelay_eq]
@[simp] theorem countDelay_fpos (s : State) : (countDelay s).fpos = s.fpos := by
  rw [countDelay_eq]
@[simp] theorem countDelay_tpos (s : State) : (countDelay s).tpos = s.tpos := by
  rw [countDelay_eq]
@[simp] theorem countDelay_total (s : State) : (countDelay s).total = s.total := by
  rw [countDelay_eq]
@[simp] theorem countDelay_out (s : State) : (countDelay s).out = s.out := by
  rw [countDelay_eq]
@[simp] theorem countDelay_inp (s : State) : (countDelay s).inp = s.inp := by
  rw [countDelay_eq]
@[simp] theorem countDelay_pos (s : State) : (countDelay s).pos = s.pos := by
  rw [countDelay_eq]
@[simp] theorem countDelay_win (s : State) : (countDelay s).win = s.win := by
  rw [countDelay_eq]
@[simp] theorem countDelay_wfill (s : State) : (countDelay s).wfill = s.wfill := by
  rw [countDelay_eq]
@[simp] theorem countDelay_chunk (s : State) : (countDelay s).chunk = s.chunk := by
  rw [countDelay_eq]
@[simp] theorem countDelay_ccnt (s : State) : (countDelay s).ccnt = s.ccnt := by
  rw [countDelay_eq]
@[simp] theorem countDelay_len (s : State) : (countDelay s).len = s.len := by
  rw [countDelay_eq]
@[simp] theorem countDelay_endField (s : State) : (countDelay s).endField = s.endField := by
  rw [countDelay_eq]
@[simp] theorem countDelay_startDelta (s : State) : (countDelay s).startDelta = s.startDelta := by
  rw [countDelay_eq]
@[simp] theorem countDelay_padding (s : State) : (countDelay s).padding = s.padding := by
  rw [countDelay_eq]
@[simp] theorem countDelay_endDelta (s : State) : (countDelay s).endDelta = s.endDelta := by
  rw [countDelay_eq]
@[simp] theorem countDelay_src (s : State) : (countDelay s).src = s.src := by
  rw [countDelay_eq]
@[simp] theorem countDelay_inPort (s : State) : (countDelay s).inPort = s.inPort := by
  rw [countDelay_eq]
@[simp] theorem countDelay_hostData (s : State) : (countDelay s).hostData = s.hostData := by
  rw [countDelay_eq]
@[simp] theorem countDelay_hostBytes (s : State) : (countDelay s).hostBytes = s.hostBytes := by
  rw [countDelay_eq]
@[simp] theorem countDelay_config (s : State) : (countDelay s).config = s.config := by
  rw [countDelay_eq]
@[simp] theorem countDelay_freeIx (s : State) : (countDelay s).freeIx = s.freeIx := by
  rw [countDelay_eq]

/-! What the engine computes from a state does not depend on the queue. -/

@[simp] theorem countDelay_searchToken (s : State) (v : Byte) :
    (countDelay s).searchToken v = s.searchToken v := by
  rw [countDelay_eq]
  rfl

end Sys2Proof.Machine
end

