-- ==== Sys2Proof/Laws/Ops.lean ====
section
/-! SUPPORT. One lemma per shared operation that says what it can do; the provers cite these and do not unfold. -/

namespace Sys2Proof.Machine

/-! ## Registers -/

/-- A store of a count that fits is exact. -/
@[simp] theorem wide32_of_lt {k n : Nat} (h : n < 4294967296) : wide32 k n = BitVec.ofNat 32 n := by
  simp [wide32, h]

@[simp] theorem wide32_zero (k : Nat) : wide32 k 0 = 0#32 := rfl

@[simp] theorem offsetWord_none (k : Nat) : offsetWord k none = noneWord := rfl

@[simp] theorem offsetWord_some (k f : Nat) : offsetWord k (some f) = wide32 k f := rfl

/-- BUSY is one of the engine's phases. -/
theorem busy_iff {s : State} : s.busy = true ↔ ∃ p, s.st = .busy p := by
  cases h : s.st with
  | busy p => simp [State.busy, h]
  | idle => simp [State.busy, h]
  | done => simp [State.busy, h]
  | error => simp [State.busy, h]

@[simp] theorem busy_of_st {s : State} {p : Phase} (h : s.st = .busy p) : s.busy = true :=
  busy_iff.2 ⟨p, h⟩

theorem not_busy_iff {s : State} : s.busy = false ↔ ∀ p, s.st ≠ .busy p := by
  rw [Bool.eq_false_iff, ne_eq, busy_iff, not_exists]

/-- `raise` ends in ERROR with the error's record. -/
theorem raise_busy (e : ErrCode) (off : Nat) (foff : Option Nat) (s : State) :
    (raise e off foff s).busy = false := rfl

@[simp] theorem overOut_congr {s t : State} (h : t.config = s.config) (n : Nat) :
    t.overOut n = s.overOut n := by simp [State.overOut, h]

/-! ## The input port -/

theorem view_congr {s t : State} (h1 : t.op = s.op) (h2 : t.st = s.st) (h3 : t.src = s.src)
    (h4 : t.ip = s.ip) (h5 : t.inPort = s.inPort) (h6 : t.config = s.config) :
    t.view = s.view := by simp [State.view, State.readsSrc, h1, h2, h3, h4, h5, h6]

@[simp] theorem view_takeFlagBit (s : State) : (takeFlagBit s).view = s.view :=
  view_congr rfl rfl rfl rfl rfl rfl

@[simp] theorem view_countDelay (s : State) : (countDelay s).view = s.view := by
  apply view_congr <;> simp

/-- The view of `SRC` always ends in `EOI`. -/
theorem view_src {s : State} (h : s.readsSrc = true) :
    s.view = { bytes := s.src.drop s.ip, stop := .eoi } := by simp [State.view, h]

/-! ## The output buffer -/

/-- What `Append` does: the bytes at the end, if they fit. -/
theorem appendChecked_eq_some {bs : List Byte} {s t : State} (h : appendChecked bs s = some t) :
    t = { s with out := s.out ++ bs } ∧ s.overOut (s.out.length + bs.length) = false := by
  unfold appendChecked at h
  split at h
  · cases h
  · rename_i hn
    exact ⟨by simpa using h.symm, by simpa using hn⟩

theorem appendChecked_of_fits {bs : List Byte} {s : State}
    (h : s.overOut (s.out.length + bs.length) = false) :
    appendChecked bs s = some { s with out := s.out ++ bs } := by simp [appendChecked, h]

/-- What the match copy does when the displacement reaches a byte there is: it never fails, keeps the bytes before it,
and each new byte is the one `disp` behind it. -/
theorem copyMatch_spec (disp n : Nat) (out : List Byte) (h1 : 1 ≤ disp) (h2 : disp ≤ out.length) :
    ∃ o, copyMatch disp n out = some o ∧ o.length = out.length + n ∧
      (∀ a, a < out.length → o[a]? = out[a]?) ∧
      (∀ k, k < n → o[out.length + k]? = o[out.length + k - disp]?) := by
  induction n generalizing out with
  | zero => exact ⟨out, rfl, rfl, fun _ _ => rfl, fun k hk => absurd hk (Nat.not_lt_zero k)⟩
  | succ n ih =>
    have hlt : out.length - disp < out.length := by omega
    obtain ⟨b, hb⟩ : ∃ b, out[out.length - disp]? = some b :=
      ⟨_, List.getElem?_eq_getElem hlt⟩
    obtain ⟨o, ho, hl, hk, hc⟩ := ih (out ++ [b]) (by simp; omega)
    simp only [List.length_append, List.length_singleton] at hl hk hc
    refine ⟨o, by simp [copyMatch, hb, ho], by omega, fun a ha => ?_, fun k hkn => ?_⟩
    · rw [hk a (by omega), List.getElem?_append_left ha]
    · rcases Nat.eq_zero_or_pos k with rfl | hpos
      · rw [Nat.add_zero, hk _ (by omega), hk _ (by omega), List.getElem?_append_left hlt, hb]
        simp
      · have := hc (k - 1) (by omega)
        have e1 : out.length + 1 + (k - 1) = out.length + k := by omega
        rwa [e1] at this

/-! ## The consumers -/

/-- What `Emit` can answer: the token's effect, or an error entry; never a refusal, and never a fault. -/
inductive Emitted (tok : Token) (s : State) : State → Prop
  | literal (v : Byte) (h : tok = .literal v) (ho : s.op ≠ opVerify) :
      Emitted tok s { s with out := s.out ++ [v], total := s.total + 1 }
  | copied (len disp : Nat) (o : List Byte) (h : tok = .matchRef len disp) (ho : s.op ≠ opVerify)
      (h1 : 1 ≤ disp) (h2 : disp ≤ s.out.length) (h3 : s.out.length + len ≤ s.size)
      (hc : copyMatch disp len s.out = some o) :
      Emitted tok s { s with out := o, total := s.total + len }
  | counted (h : s.op = opVerify) : Emitted tok s { s with total := s.total + tok.count }
  | failed (e : ErrCode) : Emitted tok s (raise e s.tpos s.fpos s)

theorem emit_spec (tok : Token) (s : State) : ∃ t, emit tok s = .next t ∧ Emitted tok s t := by
  unfold emit
  split
  · rename_i ho
    cases tok with
    | literal v => exact ⟨_, rfl, .counted ho⟩
    | matchRef len disp =>
      simp only [verifyToken]
      split
      · exact ⟨_, rfl, .failed _⟩
      · split
        · exact ⟨_, rfl, .failed _⟩
        · exact ⟨_, rfl, .counted ho⟩
  · rename_i ho
    cases tok with
    | literal v => exact ⟨_, rfl, .literal v rfl ho⟩
    | matchRef len disp =>
      simp only [decodeToken, decodeMatch]
      split
      · exact ⟨_, rfl, .failed _⟩
      · rename_i hd
        split
        · exact ⟨_, rfl, .failed _⟩
        · rename_i hs
          obtain ⟨o, hc, -⟩ := copyMatch_spec disp len s.out (by omega) (by omega)
          simp only [hc]
          exact ⟨_, rfl, .copied len disp o rfl ho (by omega) (by omega) (by omega) hc⟩

theorem emit_next {tok : Token} {s t : State} (h : emit tok s = .next t) : Emitted tok s t := by
  obtain ⟨t', h', he⟩ := emit_spec tok s
  rw [h] at h'
  cases h'
  exact he

/-! The answers of `Emit`, one equation per case. -/

theorem emit_decode_literal {s : State} (ho : s.op ≠ opVerify) (v : Byte) :
    emit (.literal v) s = .next { s with out := s.out ++ [v], total := s.total + 1 } := by
  rw [emit, if_neg ho, decodeToken]

theorem emit_decode_range {s : State} {len disp : Nat} (ho : s.op ≠ opVerify)
    (h : disp < 1 ∨ s.out.length < disp) :
    emit (.matchRef len disp) s = .next (raise .decodeDispRange s.tpos s.fpos s) := by
  simp only [emit, if_neg ho, decodeToken, decodeMatch, if_pos h]

theorem emit_decode_overrun {s : State} {len disp : Nat} (ho : s.op ≠ opVerify) (h1 : 1 ≤ disp)
    (h2 : disp ≤ s.out.length) (h3 : s.size < s.out.length + len) :
    emit (.matchRef len disp) s = .next (raise .decodeOverrun s.tpos s.fpos s) := by
  have h : ¬ (disp < 1 ∨ s.out.length < disp) := by omega
  simp only [emit, if_neg ho, decodeToken, decodeMatch, if_neg h, if_pos h3]

theorem emit_decode_copy {s : State} {len disp : Nat} {o : List Byte} (ho : s.op ≠ opVerify)
    (h1 : 1 ≤ disp) (h2 : disp ≤ s.out.length) (h3 : s.out.length + len ≤ s.size)
    (hc : copyMatch disp len s.out = some o) :
    emit (.matchRef len disp) s = .next { s with out := o, total := s.total + len } := by
  have h : ¬ (disp < 1 ∨ s.out.length < disp) := by omega
  have h' : ¬ s.size < s.out.length + len := by omega
  simp only [emit, if_neg ho, decodeToken, decodeMatch, if_neg h, if_neg h', hc]

theorem emit_verify_literal {s : State} (ho : s.op = opVerify) (v : Byte) :
    emit (.literal v) s = .next { s with total := s.total + 1 } := by
  rw [emit, if_pos ho, verifyToken]

theorem emit_verify_nonpositive {s : State} {len disp : Nat} (ho : s.op = opVerify)
    (h : disp = 0) :
    emit (.matchRef len disp) s = .next (raise .verifyDispNonpositive s.tpos s.fpos s) := by
  simp only [emit, if_pos ho, verifyToken, if_pos (Nat.le_of_eq h)]

theorem emit_verify_before {s : State} {len disp : Nat} (ho : s.op = opVerify) (h1 : 1 ≤ disp)
    (h2 : s.total < disp) :
    emit (.matchRef len disp) s = .next (raise .verifyDispBeforeStart s.tpos s.fpos s) := by
  have h : ¬ disp ≤ 0 := by omega
  simp only [emit, if_pos ho, verifyToken, if_neg h, if_pos h2]

theorem emit_verify_match {s : State} {len disp : Nat} (ho : s.op = opVerify) (h1 : 1 ≤ disp)
    (h2 : disp ≤ s.total) :
    emit (.matchRef len disp) s = .next { s with total := s.total + len } := by
  have h : ¬ disp ≤ 0 := by omega
  have h' : ¬ s.total < disp := by omega
  simp only [emit, if_pos ho, verifyToken, if_neg h, if_neg h']

/-! ## Command words -/

/-- What a write of a word to CMD can do. -/
inductive Commanded (s : State) : State → Prop
  | ignored (h : s.busy = true) : Commanded s s
  | illegal (op : BitVec 4) (ovl : Bool) (h : s.busy = false) :
      Commanded s (raise .commandIllegal 0 none (commandInit op ovl s))
  | raw (op : BitVec 4) (ovl : Bool) (h : s.busy = false)
      (ho : op = opDecodeRaw10 ∨ op = opDecodeRaw11) :
      Commanded s (startDecode (commandInit op ovl s))
  | framed (op : BitVec 4) (h : s.busy = false) (ho : op = opDecode ∨ op = opVerify) :
      Commanded s (awaitHeader (commandInit op false s))
  | whole (op : BitVec 4) (h : s.busy = false)
      (ho : op = opOverlay ∨ op = opEncode10 ∨ op = opEncode11) :
      Commanded s (awaitInput (commandInit op false s))

theorem issueIllegal_spec (op : BitVec 4) (ovl : Bool) (s : State) :
    ∃ t, issueIllegal op ovl s = .next t ∧ Commanded s t := by
  unfold issueIllegal
  split
  · exact ⟨_, rfl, .ignored ‹_›⟩
  · exact ⟨_, rfl, .illegal op ovl (by simpa using ‹¬ s.busy = true›)⟩

theorem issue_raw_spec (op : BitVec 4) (ovl : Bool) (s : State)
    (ho : op = opDecodeRaw10 ∨ op = opDecodeRaw11) :
    ∃ t, issue op ovl startDecode s = .next t ∧ Commanded s t := by
  unfold issue
  split
  · exact ⟨_, rfl, .ignored ‹_›⟩
  · exact ⟨_, rfl, .raw op ovl (by simpa using ‹¬ s.busy = true›) ho⟩

theorem issue_framed_spec (op : BitVec 4) (s : State) (ho : op = opDecode ∨ op = opVerify) :
    ∃ t, issue op false awaitHeader s = .next t ∧ Commanded s t := by
  unfold issue
  split
  · exact ⟨_, rfl, .ignored ‹_›⟩
  · exact ⟨_, rfl, .framed op (by simpa using ‹¬ s.busy = true›) ho⟩

theorem issue_whole_spec (op : BitVec 4) (s : State)
    (ho : op = opOverlay ∨ op = opEncode10 ∨ op = opEncode11) :
    ∃ t, issue op false awaitInput s = .next t ∧ Commanded s t := by
  unfold issue
  split
  · exact ⟨_, rfl, .ignored ‹_›⟩
  · exact ⟨_, rfl, .whole op (by simpa using ‹¬ s.busy = true›) ho⟩

theorem decodeOp_slot : ∀ (ovl : Bool) (op : BitVec 4), (decodeOp ovl op).slot = .command := by
  decide

/-- Every word written to CMD is a command word. -/
theorem decodeCmd_slot (w : Word) : (decodeCmd w).slot = .command := by
  unfold decodeCmd
  split
  · rfl
  · split
    · rfl
    · exact decodeOp_slot _ _

/-- Every command word answers a next state of one of these kinds. -/
theorem exec_command_spec (i : Instr) (s : State) (hi : i.slot = .command) :
    ∃ t, exec i s = .next t ∧ Commanded s t := by
  cases i with
  | cmdDecode => exact issue_framed_spec _ s (.inl rfl)
  | cmdVerify => exact issue_framed_spec _ s (.inr rfl)
  | cmdDecodeRaw10 ovl => exact issue_raw_spec _ ovl s (.inl rfl)
  | cmdDecodeRaw11 => exact issue_raw_spec _ _ s (.inr rfl)
  | cmdOverlay => exact issue_whole_spec _ s (.inl rfl)
  | cmdEncode10 => exact issue_whole_spec _ s (.inr (.inl rfl))
  | cmdEncode11 => exact issue_whole_spec _ s (.inr (.inr rfl))
  | cmdReserved0 ovl => exact issueIllegal_spec _ _ s
  | cmdReserved8 ovl => exact issueIllegal_spec _ _ s
  | cmdReserved9 ovl => exact issueIllegal_spec _ _ s
  | cmdReservedA ovl => exact issueIllegal_spec _ _ s
  | cmdReservedB ovl => exact issueIllegal_spec _ _ s
  | cmdReservedC ovl => exact issueIllegal_spec _ _ s
  | cmdReservedD ovl => exact issueIllegal_spec _ _ s
  | cmdReservedE ovl => exact issueIllegal_spec _ _ s
  | cmdReservedF ovl => exact issueIllegal_spec _ _ s
  | cmdIllegalOvl op => exact issueIllegal_spec _ _ s
  | cmdIllegalRsvd rsvd ovl op => exact issueIllegal_spec _ _ s
  | hdr10 size => cases hi
  | hdr11 size => cases hi
  | flag f => cases hi
  | lit v => cases hi
  | m10 l d => cases hi
  | m11e8 n d => cases hi
  | m11e16 n d => cases hi
  | m11s i d => cases hi
  | trl e p sd => cases hi
  | pad c => cases hi

theorem exec_decodeCmd_spec (w : Word) (s : State) :
    ∃ t, exec (decodeCmd w) s = .next t ∧ Commanded s t :=
  exec_command_spec _ s (decodeCmd_slot w)

/-- The rows RESERVED_x with OVL = 1 share their words with the row ILLEGAL_OVL (assumption 5); the meanings agree, so
nothing hangs on which row the decoder gives. -/
theorem reserved_ovl_agrees (s : State) :
    exec (.cmdReserved0 true) s = exec (.cmdIllegalOvl 0x0#4) s ∧
    exec (.cmdReserved8 true) s = exec (.cmdIllegalOvl 0x8#4) s ∧
    exec (.cmdReserved9 true) s = exec (.cmdIllegalOvl 0x9#4) s ∧
    exec (.cmdReservedA true) s = exec (.cmdIllegalOvl 0xA#4) s ∧
    exec (.cmdReservedB true) s = exec (.cmdIllegalOvl 0xB#4) s ∧
    exec (.cmdReservedC true) s = exec (.cmdIllegalOvl 0xC#4) s ∧
    exec (.cmdReservedD true) s = exec (.cmdIllegalOvl 0xD#4) s ∧
    exec (.cmdReservedE true) s = exec (.cmdIllegalOvl 0xE#4) s ∧
    exec (.cmdReservedF true) s = exec (.cmdIllegalOvl 0xF#4) s :=
  ⟨rfl, rfl, rfl, rfl, rfl, rfl, rfl, rfl, rfl⟩

/-! ## The packer -/

/-- A smaller output passes MAX_OUT no sooner. -/
theorem overOut_mono {s : State} {n m : Nat} (h : n ≤ m) (hm : s.overOut m = false) :
    s.overOut n = false := by
  unfold State.overOut at *
  cases hc : s.config.maxOut with
  | none => rfl
  | some k =>
    simp only [hc, decide_eq_false_iff_not] at hm ⊢
    omega

/-- The packer's errors are the two range errors. -/
theorem packToken_error {v : Variant} {dx : Nat} {tok : Token} {c : ErrCode}
    (h : packToken v dx tok = .error c) : c = .encodeDispRange ∨ c = .encodeLengthRange := by
  unfold packToken packM10 packM11 at h
  split at h
  · cases h
  · split at h <;> split_ifs at h <;> cases h <;> simp

/-- A token's bytes are at most 4 (30_encoding.md R91). -/
theorem packToken_length {v : Variant} {dx : Nat} {tok : Token} {bs : List Byte}
    (h : packToken v dx tok = .ok bs) : bs.length ≤ 4 := by
  unfold packToken packM10 packM11 at h
  split at h
  · cases h
    simp [encode]
  · split at h <;> split_ifs at h <;> cases h <;> simp [encode]

/-- Tokens that all pack, within MAX_OUT, are appended in order. -/
theorem packEntries_ok {v : Variant} {dx : Nat} {es : List ChunkEntry} {bss : List (List Byte)}
    {s : State} (h : List.Forall₂ (fun e b => packToken v dx e.tok = .ok b) es bss)
    (ho : s.overOut (s.out.length + bss.flatten.length) = false) :
    packEntries v dx es s = .ok { s with out := s.out ++ bss.flatten } := by
  induction h generalizing s with
  | nil => simp [packEntries]
  | cons hp _ ih =>
    simp only [List.flatten_cons, List.length_append] at ho
    rw [packEntries]
    simp only [hp]
    rw [appendChecked_of_fits (overOut_mono (by omega) ho)]
    simp only
    rw [ih (by simpa [State.overOut, Nat.add_assoc] using ho)]
    simp

/-- Tokens that all pack and pass MAX_OUT end in the capacity error. -/
theorem packEntries_full {v : Variant} {dx : Nat} {es : List ChunkEntry} {bss : List (List Byte)}
    {s : State} (h : List.Forall₂ (fun e b => packToken v dx e.tok = .ok b) es bss)
    (h0 : s.overOut s.out.length = false)
    (ho : s.overOut (s.out.length + bss.flatten.length) = true) :
    packEntries v dx es s = .error (.formatCapacity, 0) := by
  induction h generalizing s with
  | nil => simp [h0] at ho
  | @cons e b es bss hp _ ih =>
    rw [packEntries]
    simp only [hp]
    cases hc : s.overOut (s.out.length + b.length) with
    | true => simp [appendChecked, hc]
    | false =>
      rw [appendChecked_of_fits hc]
      exact ih (by simpa [State.overOut] using hc)
        (by simpa [State.overOut, Nat.add_assoc] using ho)

/-- The first token that does not pack ends in its error, where it starts. -/
theorem packEntries_fails {v : Variant} {dx : Nat} {es1 es2 : List ChunkEntry} {e : ChunkEntry}
    {c : ErrCode} {bss : List (List Byte)} {s : State}
    (h : List.Forall₂ (fun e b => packToken v dx e.tok = .ok b) es1 bss)
    (ho : s.overOut (s.out.length + bss.flatten.length) = false)
    (hp : packToken v dx e.tok = .error c) :
    packEntries v dx (es1 ++ e :: es2) s = .error (c, e.start) := by
  induction h generalizing s with
  | nil => simp [packEntries, hp]
  | cons h1 _ ih =>
    simp only [List.flatten_cons, List.length_append] at ho
    rw [List.cons_append, packEntries]
    simp only [h1]
    rw [appendChecked_of_fits (overOut_mono (by omega) ho)]
    exact ih (by simpa [State.overOut, Nat.add_assoc] using ho)

/-- Packing adds at most 4 bytes a token. -/
theorem packEntries_length {v : Variant} {dx : Nat} {es : List ChunkEntry} {s t : State}
    (h : packEntries v dx es s = .ok t) : t.out.length ≤ s.out.length + 4 * es.length := by
  induction es generalizing s with
  | nil =>
    simp only [packEntries] at h
    cases h
    simp
  | cons e es ih =>
    simp only [packEntries] at h
    split at h
    · cases h
    · rename_i bs hb
      split at h
      · cases h
      · rename_i s' ha
        obtain ⟨rfl, -⟩ := appendChecked_eq_some ha
        have h1 := ih h
        have h2 := packToken_length hb
        simp only [List.length_append, List.length_cons] at h1 ⊢
        omega

/-- Packing touches OUT alone, and only at its end. -/
theorem packEntries_frame {v : Variant} {dx : Nat} {es : List ChunkEntry} {s t : State}
    (h : packEntries v dx es s = .ok t) : ∃ bs, t = { s with out := s.out ++ bs } := by
  induction es generalizing s with
  | nil =>
    simp only [packEntries] at h
    cases h
    exact ⟨[], by simp⟩
  | cons e es ih =>
    simp only [packEntries] at h
    split at h
    · cases h
    · split at h
      · cases h
      · rename_i s' ha
        obtain ⟨rfl, -⟩ := appendChecked_eq_some ha
        obtain ⟨bs', rfl⟩ := ih h
        exact ⟨_, by simp; rfl⟩

/-- A flush touches OUT, at its end, and empties the chunk. -/
theorem flushChunk_frame {s t : State} (h : flushChunk s = .ok t) :
    (s.ccnt = 0 ∧ t = s) ∨
      (s.ccnt ≠ 0 ∧ ∃ bs, t = { s with out := s.out ++ bs, chunk := [], ccnt := 0 }) := by
  unfold flushChunk at h
  split at h
  · cases h
    exact .inl ⟨‹_›, rfl⟩
  · simp only at h
    split at h
    · cases h
    · rename_i hn _ s1 ha
      obtain ⟨rfl, -⟩ := appendChecked_eq_some ha
      split at h
      · cases h
      · rename_i s2 hp
        obtain ⟨bs, rfl⟩ := packEntries_frame hp
        cases h
        exact .inr ⟨hn, _, by simp; rfl⟩

/-- A flush adds at most the flag byte and 4 bytes a token. -/
theorem flushChunk_length {s t : State} (h : flushChunk s = .ok t) :
    t.out.length ≤ s.out.length + 1 + 4 * s.chunk.length := by
  unfold flushChunk at h
  split at h
  · cases h
    omega
  · simp only at h
    split at h
    · cases h
    · rename_i s1 ha
      obtain ⟨rfl, -⟩ := appendChecked_eq_some ha
      split at h
      · cases h
      · rename_i s2 hp
        cases h
        have h1 := packEntries_length hp
        simp only [List.length_append, List.length_cons, List.length_nil, List.length_take] at h1 ⊢
        omega

theorem flushIfFull_frame {s t : State} (h : flushIfFull s = .ok t) :
    (s.ccnt ≠ flagGroup ∧ t = s) ∨
      (s.ccnt = flagGroup ∧ ∃ bs, t = { s with out := s.out ++ bs, chunk := [], ccnt := 0 }) := by
  unfold flushIfFull at h
  split at h
  · rename_i hf
    rcases flushChunk_frame h with ⟨h0, -⟩ | ⟨-, h⟩
    · rw [hf] at h0
      cases h0
    · exact .inr ⟨hf, h⟩
  · cases h
    exact .inl ⟨‹_›, rfl⟩

/-! ## The end of the tokenizer -/

/-- What END can answer. -/
inductive Ended (eoi : Bool) (s : State) : State → Prop
  | failed (e : ErrCode) : Ended eoi s (raise e s.ip s.fpos s)
  | verified (h : s.op = opVerify) (hs : s.total = s.size) : Ended eoi s (finish s.size s)
  | spliced (h : s.op = opOverlay) (he : eoi = false) :
      Ended eoi s (finish (spliceOverlay s).length { s with out := spliceOverlay s })
  | decoded (h1 : s.op ≠ opVerify) (h2 : s.op ≠ opOverlay) (he : eoi = false) :
      Ended eoi s (finish s.out.length s)

theorem endTokens_spec (eoi : Bool) (s : State) :
    ∃ t, endTokens eoi s = .next t ∧ Ended eoi s t := by
  unfold endTokens
  split
  · rename_i ho
    unfold endVerify
    split
    · exact ⟨_, rfl, .failed _⟩
    · exact ⟨_, rfl, .verified ho (by omega)⟩
  · rename_i ho
    unfold endDecode
    cases eoi with
    | true => exact ⟨_, rfl, .failed _⟩
    | false =>
      simp only [Bool.false_eq_true, if_false]
      split
      · exact ⟨_, rfl, .spliced ‹_› rfl⟩
      · exact ⟨_, rfl, .decoded ho ‹_› rfl⟩

/-! ## The start of a decode -/

theorem startDecode_spec (s : State) :
    (s.overOut s.size = false ∧
      startDecode s =
        { s with out := [], total := 0, fcnt := 0, fpos := none, st := .busy .tokens }) ∨
    (s.overOut s.size = true ∧
      startDecode s =
        raise .formatCapacity 0 none { s with out := [], total := 0, fcnt := 0, fpos := none }) := by
  cases h : s.overOut s.size with
  | false => exact .inl ⟨rfl, by simp [startDecode, h, overOut_congr (s := s)]⟩
  | true => exact .inr ⟨rfl, by simp [startDecode, h, overOut_congr (s := s)]⟩

end Sys2Proof.Machine
end

