-- ==== Sys2Proof/Laws/PerInstr.lean ====
section
/-! SUPPORT. The law made per instruction, EncodedLength: how many bytes each instruction's encoding has, the opcode
table's width_bytes (30_encoding.md R81 to R89, R95). -/

namespace Sys2Proof.Laws.EncodedLength

/-- The width of a row of the opcode table. -/
def width : Instr → Nat
  | .hdr10 _ => 4
  | .hdr11 _ => 4
  | .flag _ => 1
  | .lit _ => 1
  | .m10 _ _ => 2
  | .m11e8 _ _ => 3
  | .m11e16 _ _ => 4
  | .m11s _ _ => 2
  | .trl _ _ _ => 8
  | .pad count => count.val
  | .cmdReserved0 _ => 4
  | .cmdDecode => 4
  | .cmdDecodeRaw10 _ => 4
  | .cmdDecodeRaw11 => 4
  | .cmdOverlay => 4
  | .cmdEncode10 => 4
  | .cmdEncode11 => 4
  | .cmdVerify => 4
  | .cmdReserved8 _ => 4
  | .cmdReserved9 _ => 4
  | .cmdReservedA _ => 4
  | .cmdReservedB _ => 4
  | .cmdReservedC _ => 4
  | .cmdReservedD _ => 4
  | .cmdReservedE _ => 4
  | .cmdReservedF _ => 4
  | .cmdIllegalOvl _ => 4
  | .cmdIllegalRsvd _ _ _ => 4

/-- The statement of the family. -/
def Statement (i : Instr) : Prop := (encode i).length = width i

theorem hdr10 (size : BitVec 24) : Statement (.hdr10 size) := rfl
theorem hdr11 (size : BitVec 24) : Statement (.hdr11 size) := rfl
theorem flag (f : Byte) : Statement (.flag f) := rfl
theorem lit (v : Byte) : Statement (.lit v) := rfl
theorem m10 (l : BitVec 4) (d : BitVec 12) : Statement (.m10 l d) := rfl
theorem m11e8 (n : BitVec 8) (d : BitVec 12) : Statement (.m11e8 n d) := rfl
theorem m11e16 (n : BitVec 16) (d : BitVec 12) : Statement (.m11e16 n d) := rfl
theorem m11s (i : BitVec 4) (d : BitVec 12) : Statement (.m11s i d) := rfl
theorem trl (e : BitVec 24) (p : BitVec 8) (s : BitVec 32) : Statement (.trl e p s) := rfl
theorem pad (count : Fin 4) : Statement (.pad count) := List.length_replicate
theorem cmdReserved0 (ovl : Bool) : Statement (.cmdReserved0 ovl) := rfl
theorem cmdDecode : Statement .cmdDecode := rfl
theorem cmdDecodeRaw10 (ovl : Bool) : Statement (.cmdDecodeRaw10 ovl) := rfl
theorem cmdDecodeRaw11 : Statement .cmdDecodeRaw11 := rfl
theorem cmdOverlay : Statement .cmdOverlay := rfl
theorem cmdEncode10 : Statement .cmdEncode10 := rfl
theorem cmdEncode11 : Statement .cmdEncode11 := rfl
theorem cmdVerify : Statement .cmdVerify := rfl
theorem cmdReserved8 (ovl : Bool) : Statement (.cmdReserved8 ovl) := rfl
theorem cmdReserved9 (ovl : Bool) : Statement (.cmdReserved9 ovl) := rfl
theorem cmdReservedA (ovl : Bool) : Statement (.cmdReservedA ovl) := rfl
theorem cmdReservedB (ovl : Bool) : Statement (.cmdReservedB ovl) := rfl
theorem cmdReservedC (ovl : Bool) : Statement (.cmdReservedC ovl) := rfl
theorem cmdReservedD (ovl : Bool) : Statement (.cmdReservedD ovl) := rfl
theorem cmdReservedE (ovl : Bool) : Statement (.cmdReservedE ovl) := rfl
theorem cmdReservedF (ovl : Bool) : Statement (.cmdReservedF ovl) := rfl
theorem cmdIllegalOvl (op : BitVec 4) : Statement (.cmdIllegalOvl op) := rfl
theorem cmdIllegalRsvd (rsvd : BitVec 27) (ovl : Bool) (op : BitVec 4) :
    Statement (.cmdIllegalRsvd rsvd ovl op) := rfl

end Sys2Proof.Laws.EncodedLength
end

