-- ==== Sys2Proof/Laws/Step.lean ====
section
/-! SUPPORT. What a step can do, said once: `EngineMove` for the engine, `HostMove` for the host, `step_cases` for both.
Invariants are proved from these. -/

namespace Sys2Proof.Machine

/-! ## Decoding, by slot -/

theorem decode_header_ok {bs rest : List Byte} {i : Instr}
    (h : decode .header bs = .ok (i, rest)) :
    ∃ size, i = .hdr10 size ∨ i = .hdr11 size := by
  rcases bs with _ | ⟨tag, _ | ⟨s0, _ | ⟨s1, _ | ⟨s2, bs⟩⟩⟩⟩ <;>
    simp only [decode, decodeHeader, reduceCtorEq] at h
  split_ifs at h with h0 h1
  · cases h
    exact ⟨_, .inl rfl⟩
  · cases h
    exact ⟨_, .inr rfl⟩

theorem decode_trailer_ok {bs rest : List Byte} {i : Instr}
    (h : decode .trailer bs = .ok (i, rest)) : ∃ e p sd, i = .trl e p sd := by
  rcases bs with
    _ | ⟨e0, _ | ⟨e1, _ | ⟨e2, _ | ⟨p, _ | ⟨s0, _ | ⟨s1, _ | ⟨s2, _ | ⟨s3, bs⟩⟩⟩⟩⟩⟩⟩⟩ <;>
    simp only [decode, decodeTrailer, reduceCtorEq] at h
  cases h
  exact ⟨_, _, _, rfl⟩

theorem decode_flag_ok {bs rest : List Byte} {i : Instr} (h : decode .flag bs = .ok (i, rest)) :
    ∃ f, i = .flag f := by
  rcases bs with _ | ⟨f, bs⟩ <;> simp only [decode, decodeFlag, reduceCtorEq] at h
  cases h
  exact ⟨_, rfl⟩

/-- A token instruction: what it emits and how many bytes it takes. -/
inductive TokenInstr (dispExtra : Nat) : Instr → Token → Nat → Prop
  | lit (v : Byte) : TokenInstr dispExtra (.lit v) (.literal v) 1
  | m10 (l : BitVec 4) (d : BitVec 12) : TokenInstr dispExtra (.m10 l d) (m10Token dispExtra l d) 2
  | m11s (i : BitVec 4) (d : BitVec 12) : TokenInstr dispExtra (.m11s i d) (m11sToken i d) 2
  | m11e8 (n : BitVec 8) (d : BitVec 12) : TokenInstr dispExtra (.m11e8 n d) (m11e8Token n d) 3
  | m11e16 (n : BitVec 16) (d : BitVec 12) :
      TokenInstr dispExtra (.m11e16 n d) (m11e16Token n d) 4

/-- A token instruction takes its bytes and emits its token. -/
theorem exec_token {i : Instr} {tok : Token} {n : Nat} {s : State}
    (h : TokenInstr s.dispExtra i tok n) : exec i s = emit tok (consume n s) := by
  cases h <;> rfl

theorem tokenInstr_pos {dx : Nat} {i : Instr} {tok : Token} {n : Nat}
    (h : TokenInstr dx i tok n) : 1 ≤ n := by
  cases h <;> decide

theorem decode_literal_ok {bs rest : List Byte} {i : Instr} (dx : Nat)
    (h : decode .literal bs = .ok (i, rest)) : ∃ tok n, TokenInstr dx i tok n := by
  rcases bs with _ | ⟨v, bs⟩ <;> simp only [decode, decodeLiteral, reduceCtorEq] at h
  cases h
  exact ⟨_, _, .lit _⟩

theorem decode_match10_ok {bs rest : List Byte} {i : Instr} (dx : Nat)
    (h : decode .match10 bs = .ok (i, rest)) : ∃ tok n, TokenInstr dx i tok n := by
  rcases bs with _ | ⟨b0, _ | ⟨b1, bs⟩⟩ <;> simp only [decode, decodeMatch10, reduceCtorEq] at h
  cases h
  exact ⟨_, _, .m10 _ _⟩

theorem decodeE8_ok {b0 : Byte} {bs rest : List Byte} {i : Instr} (dx : Nat)
    (h : decodeE8 b0 bs = .ok (i, rest)) : ∃ tok n, TokenInstr dx i tok n := by
  rcases bs with _ | ⟨b1, _ | ⟨b2, bs⟩⟩ <;> simp only [decodeE8, reduceCtorEq] at h
  cases h
  exact ⟨_, _, .m11e8 _ _⟩

theorem decodeE16_ok {b0 : Byte} {bs rest : List Byte} {i : Instr} (dx : Nat)
    (h : decodeE16 b0 bs = .ok (i, rest)) : ∃ tok n, TokenInstr dx i tok n := by
  rcases bs with _ | ⟨b1, _ | ⟨b2, _ | ⟨b3, bs⟩⟩⟩ <;> simp only [decodeE16, reduceCtorEq] at h
  cases h
  exact ⟨_, _, .m11e16 _ _⟩

theorem decodeS_ok {b0 : Byte} {bs rest : List Byte} {i : Instr} (dx : Nat)
    (h : decodeS b0 bs = .ok (i, rest)) : ∃ tok n, TokenInstr dx i tok n := by
  rcases bs with _ | ⟨b1, bs⟩ <;> simp only [decodeS, reduceCtorEq] at h
  cases h
  exact ⟨_, _, .m11s _ _⟩

theorem decode_match11_ok {bs rest : List Byte} {i : Instr} (dx : Nat)
    (h : decode .match11 bs = .ok (i, rest)) : ∃ tok n, TokenInstr dx i tok n := by
  rcases bs with _ | ⟨b0, bs⟩ <;> simp only [decode, decodeMatch11, reduceCtorEq] at h
  split_ifs at h
  · exact decodeE8_ok dx h
  · exact decodeE16_ok dx h
  · exact decodeS_ok dx h

/-- What a token slot other than the flag byte's decodes to. -/
theorem decode_token_ok {s : State} {bs rest : List Byte} {i : Instr} (hf : s.fcnt ≠ 0) (dx : Nat)
    (h : decode s.tokenSlot bs = .ok (i, rest)) : ∃ tok n, TokenInstr dx i tok n := by
  unfold State.tokenSlot at h
  rw [if_neg hf] at h
  split_ifs at h
  · exact decode_literal_ok dx h
  · cases hv : s.variant <;> rw [hv] at h
    · exact decode_match10_ok dx h
    · exact decode_match11_ok dx h

/-! ## The engine -/

/-- The state of `acceptHeader`. -/
def headerState (v : Variant) (size : BitVec 24) (s : State) : State :=
  { consume headerLen s with variant := v, size := size.toNat, dispExtra := 1 }

/-- What the engine can do in one step. -/
inductive EngineMove (s : State) : State → Prop
  | headerVerify (v : Variant) (size : BitVec 24) (h : s.st = .busy .header)
      (ho : s.op = opVerify) : EngineMove s (startVerify (headerState v size s))
  | headerDecode (v : Variant) (size : BitVec 24) (h : s.st = .busy .header)
      (ho : s.op ≠ opVerify) : EngineMove s (startDecode (headerState v size s))
  | headerFails (e : ErrCode) (n : Nat) (h : s.st = .busy .header) :
      EngineMove s (raise e 0 none (consume n s))
  | gatherByte (b : Byte) (h : s.st = .busy .gather) :
      EngineMove s { consume 1 s with inp := s.inp ++ [b] }
  | gatherFails (e : ErrCode) (h : s.st = .busy .gather) : EngineMove s (raise e 0 none s)
  | encodeStarts (h : s.st = .busy .gather) (he : s.encoding = true) :
      EngineMove s { s with
        out := headerBytes s.variant s.inp.length, pos := 0, wfill := 0, chunk := [], ccnt := 0, st := .busy .search }
  | encodeStartFails (h : s.st = .busy .gather) (he : s.encoding = true) :
      EngineMove s (raise .formatCapacity 0 none
        { s with out := [], pos := 0, wfill := 0, chunk := [], ccnt := 0 })
  | gathered (h : s.st = .busy .gather) (he : s.encoding = false) :
      EngineMove s { s with len := s.inp.length, st := .busy .trailer }
  | trailerFails (off : Nat) (h : s.st = .busy .trailer) :
      EngineMove s (raise .formatBadTrailer off none s)
  | trailerRefused (e : BitVec 24) (p : BitVec 8) (sd : BitVec 32) (c : ErrCode) (off : Nat)
      (h : s.st = .busy .trailer) : EngineMove s (raise c off none (loadTrailer e p sd s))
  | trailerStarts (e : BitVec 24) (p : BitVec 8) (sd : BitVec 32) (h : s.st = .busy .trailer)
      (he : e.toNat ≤ s.len) (hp : p.toNat ≤ e.toNat) :
      EngineMove s (startOverlay (loadTrailer e p sd s))
  | ends (h : s.st = .busy .tokens) (hs : s.size ≤ s.total) {t : State} (ht : Ended false s t) :
      EngineMove s t
  | flagByte (f : Byte) (h : s.st = .busy .tokens) (hs : s.total < s.size) (hf : s.fcnt = 0) :
      EngineMove s (loadFlags f (consume 1 s))
  | token (i : Instr) (tok : Token) (n : Nat) (h : s.st = .busy .tokens) (hs : s.total < s.size)
      (hf : s.fcnt ≠ 0) (hi : TokenInstr s.dispExtra i tok n) {t : State}
      (ht : Emitted tok (consume n (takeFlagBit s)) t) : EngineMove s t
  | flagEnds (n : Nat) (h : s.st = .busy .tokens) (hs : s.total < s.size) (hf : s.fcnt = 0)
      {t : State} (ht : Ended true (consume n s) t) : EngineMove s t
  | tokenEnds (n : Nat) (h : s.st = .busy .tokens) (hs : s.total < s.size) (hf : s.fcnt ≠ 0)
      {t : State} (ht : Ended true (consume n (takeFlagBit s)) t) : EngineMove s t
  | flagFull (n : Nat) (h : s.st = .busy .tokens) (hs : s.total < s.size) (hf : s.fcnt = 0) :
      EngineMove s (raise .formatCapacity 0 none (consume n s))
  | tokenFull (n : Nat) (h : s.st = .busy .tokens) (hs : s.total < s.size) (hf : s.fcnt ≠ 0) :
      EngineMove s (raise .formatCapacity 0 none (consume n (takeFlagBit s)))
  | searched (v : Byte) (s1 : State) (h : s.st = .busy .search) (hv : s.inp[s.pos]? = some v)
      (hp : flushIfFull (noteToken (s.searchToken v) s) = .ok s1) :
      EngineMove s (slideWindow (s.searchToken v).count s1)
  | searchFails (v : Byte) (c : ErrCode) (off : Nat) (h : s.st = .busy .search)
      (hv : s.inp[s.pos]? = some v) :
      EngineMove s (raise c off none (noteToken (s.searchToken v) s))
  | flushed (s1 : State) (h : s.st = .busy .search) (hv : s.inp[s.pos]? = none)
      (hp : flushChunk s = .ok s1) : EngineMove s { s1 with st := .busy .pad }
  | flushFails (c : ErrCode) (off : Nat) (h : s.st = .busy .search) :
      EngineMove s (raise c off none s)
  | padded (h : s.st = .busy .pad) :
      EngineMove s { s with
        out := s.out ++ List.replicate (padCount s.out.length).val padByte, st := .busy .finish }
  | padFails (h : s.st = .busy .pad) : EngineMove s (raise .formatCapacity 0 none s)
  | finished (h : s.st = .busy .finish) : EngineMove s (finish s.out.length s)

theorem acceptHeader_move {s : State} (hs : s.st = .busy .header) (v : Variant)
    (size : BitVec 24) : ∃ t, acceptHeader v size s = .next t ∧ EngineMove s t := by
  by_cases ho : s.op = opVerify
  · refine ⟨_, ?_, .headerVerify v size hs ho⟩
    exact congrArg Host.Outcome.next (if_pos ho)
  · refine ⟨_, ?_, .headerDecode v size hs ho⟩
    exact congrArg Host.Outcome.next (if_neg ho)

theorem headerStep_move {s : State} {o : Out} (hs : s.st = .busy .header)
    (h : headerStep s = some o) : ∃ t, o = .next t ∧ EngineMove s t := by
  unfold headerStep at h
  split at h
  · rename_i i rest hd
    cases h
    obtain ⟨size, rfl | rfl⟩ := decode_header_ok hd
    · exact acceptHeader_move hs .v10 size
    · exact acceptHeader_move hs .v11 size
  · cases h
    exact ⟨_, rfl, .headerFails _ _ hs⟩
  · split at h
    · cases h
    · cases h
      exact ⟨_, rfl, .headerFails _ _ hs⟩
    · cases h
      exact ⟨_, rfl, .headerFails _ _ hs⟩

theorem startEncode_move {s : State} (hs : s.st = .busy .gather) (he : s.encoding = true) :
    ∃ t, startEncode s = .next t ∧ EngineMove s t := by
  simp only [startEncode]
  split
  · exact ⟨_, rfl, .encodeStartFails hs he⟩
  · rename_i s2 ha
    obtain ⟨rfl, -⟩ := appendChecked_eq_some ha
    exact ⟨_, rfl, .encodeStarts hs he⟩

theorem gatherStep_move {s : State} {o : Out} (hs : s.st = .busy .gather)
    (h : gatherStep s = some o) : ∃ t, o = .next t ∧ EngineMove s t := by
  unfold gatherStep at h
  split at h
  · split at h
    · cases h; exact ⟨_, rfl, .gatherFails _ hs⟩
    · cases h; exact ⟨_, rfl, .gatherByte _ hs⟩
  · split at h
    · cases h
    · split at h
      · rename_i he
        cases h
        exact startEncode_move hs he
      · rename_i he
        cases h
        exact ⟨_, rfl, .gathered hs (by simpa using he)⟩
    · split at h
      · cases h; exact ⟨_, rfl, .gatherFails _ hs⟩
      · cases h; exact ⟨_, rfl, .gatherFails _ hs⟩

theorem execTrl_move {s : State} (hs : s.st = .busy .trailer) (e : BitVec 24) (p : BitVec 8)
    (sd : BitVec 32) : ∃ t, execTrl e p sd s = .next t ∧ EngineMove s t := by
  simp only [execTrl]
  split
  · exact ⟨_, rfl, .trailerRefused e p sd _ _ hs⟩
  · split
    · exact ⟨_, rfl, .trailerRefused e p sd _ _ hs⟩
    · rename_i hv _
      have hv : ¬ (s.len < e.toNat ∨ e.toNat < p.toNat) := hv
      exact ⟨_, rfl, .trailerStarts e p sd hs (by omega) (by omega)⟩

theorem trailerStep_move {s : State} (hs : s.st = .busy .trailer) :
    ∃ t, trailerStep s = .next t ∧ EngineMove s t := by
  unfold trailerStep
  split
  · rename_i i rest hd
    obtain ⟨e, p, sd, rfl⟩ := decode_trailer_ok hd
    split
    · exact ⟨_, rfl, .trailerFails _ hs⟩
    · exact execTrl_move hs e p sd
  · exact ⟨_, rfl, .trailerFails _ hs⟩

theorem tokenStep_move {s : State} {o : Out} (hs : s.st = .busy .tokens)
    (h : tokenStep s = some o) : ∃ t, o = .next t ∧ EngineMove s t := by
  unfold tokenStep at h
  split at h
  · rename_i hz
    cases h
    obtain ⟨t, ht, he⟩ := endTokens_spec false s
    exact ⟨t, ht, .ends hs hz he⟩
  · rename_i hz
    have hz : s.total < s.size := by omega
    split at h
    · rename_i hf
      unfold runUnit at h
      split at h
      · rename_i i rest hd
        cases h
        obtain ⟨f, rfl⟩ := decode_flag_ok hd
        exact ⟨_, rfl, .flagByte f hs hz hf⟩
      · split at h
        · cases h
        · cases h
          obtain ⟨t, ht, he⟩ := endTokens_spec true (consume s.view.bytes.length s)
          exact ⟨t, ht, .flagEnds _ hs hz hf he⟩
        · cases h
          exact ⟨_, rfl, .flagFull _ hs hz hf⟩
    · rename_i hf
      unfold runUnit at h
      split at h
      · rename_i i rest hd
        cases h
        obtain ⟨tok, n, hi⟩ := decode_token_ok hf s.dispExtra hd
        rw [exec_token (s := takeFlagBit s) hi]
        obtain ⟨t, ht, he⟩ := emit_spec tok (consume n (takeFlagBit s))
        exact ⟨t, ht, .token i tok n hs hz hf hi he⟩
      · split at h
        · cases h
        · cases h
          obtain ⟨t, ht, he⟩ :=
            endTokens_spec true (consume (takeFlagBit s).view.bytes.length (takeFlagBit s))
          exact ⟨t, ht, .tokenEnds _ hs hz hf he⟩
        · cases h
          exact ⟨_, rfl, .tokenFull _ hs hz hf⟩

theorem searchStep_move {s : State} (hs : s.st = .busy .search) :
    ∃ t, searchStep s = .next t ∧ EngineMove s t := by
  unfold searchStep
  split
  · rename_i v hv
    cases hp : flushIfFull (noteToken (s.searchToken v) s) with
    | ok s1 =>
      simp only [hp, Except.map, settle]
      exact ⟨_, rfl, .searched v s1 hs hv hp⟩
    | error r =>
      simp only [hp, Except.map, settle]
      exact ⟨_, rfl, .searchFails v _ _ hs hv⟩
  · rename_i hv
    cases hp : flushChunk s with
    | ok s1 =>
      simp only [Except.map, settle]
      exact ⟨_, rfl, .flushed s1 hs hv hp⟩
    | error r =>
      simp only [Except.map, settle]
      exact ⟨_, rfl, .flushFails _ _ hs⟩

theorem padStep_move {s : State} (hs : s.st = .busy .pad) :
    ∃ t, exec (.pad (padCount s.out.length)) s = .next t ∧ EngineMove s t := by
  simp only [exec, execPad]
  split
  · exact ⟨_, rfl, .padFails hs⟩
  · rename_i s1 ha
    obtain ⟨rfl, -⟩ := appendChecked_eq_some ha
    exact ⟨_, rfl, .padded hs⟩

/-- Whatever the engine does is a next state, and one of these moves. -/
theorem engine_move {s : State} {o : Out} (h : engine s = some o) :
    ∃ t, o = .next t ∧ EngineMove s t := by
  unfold engine at h
  split at h
  · cases h
  · cases h
  · cases h
  · exact headerStep_move ‹_› h
  · exact gatherStep_move ‹_› h
  · cases h
    exact trailerStep_move ‹_›
  · exact tokenStep_move ‹_› h
  · cases h
    exact searchStep_move ‹_›
  · cases h
    exact padStep_move ‹_›
  · cases h
    exact ⟨_, rfl, .finished ‹_›⟩

/-! ## The host -/

/-- What the host can do in one step. -/
inductive HostMove (s : State) : State → Prop
  | commanded {t : State} (h : Commanded s t) : HostMove s t
  | aborted (h : s.busy = true) : HostMove s (abort s)
  | sized (r : BitVec 24) (h : s.busy = false) : HostMove s { s with rawsize := r }
  | nothing : HostMove s s
  | read (w : Word) : HostMove s { s with hostData := w }
  | offered (a : InAnswer) (h : s.busy = true) : HostMove s { s with inPort := s.inPort ++ [a] }
  | readOut (bs : List Byte) : HostMove s { s with hostBytes := bs }
  | reset : HostMove s (hostReset s)

theorem writeRegister_move (off : Nat) (val : Word) (s : State) :
    HostMove s (writeRegister off val s) := by
  unfold writeRegister
  split
  · split
    · rename_i h
      exact .aborted h.2
    · exact .nothing
  · split
    · split
      · exact .nothing
      · exact .sized _ (by simpa using ‹¬ s.busy = true›)
    · exact .nothing

/-- Whatever the host does is a next state of one of these kinds, or a refusal. -/
theorem hostAct_move (a : HostAction) (s : State) :
    (∃ t, hostAct a s = .next t ∧ HostMove s t) ∨ ∃ r, hostAct a s = .refused r := by
  cases a with
  | writeReg off width val =>
    simp only [hostAct]
    split
    · exact .inr ⟨_, rfl⟩
    · split
      · obtain ⟨t, ht, hc⟩ := exec_decodeCmd_spec val s
        exact .inl ⟨t, ht, .commanded hc⟩
      · exact .inl ⟨_, rfl, writeRegister_move off val s⟩
  | readReg off width =>
    simp only [hostAct]
    split
    · exact .inr ⟨_, rfl⟩
    · exact .inl ⟨_, rfl, .read _⟩
  | offer x =>
    refine .inl ⟨_, rfl, ?_⟩
    unfold acceptAnswer
    split
    · exact .offered x ‹_›
    · exact .nothing
  | readOut start count => exact .inl ⟨_, rfl, .readOut _⟩
  | alterInput index b =>
    simp only [hostAct]
    split
    · exact .inr ⟨_, rfl⟩
    · exact .inl ⟨_, rfl, .nothing⟩
  | reset => exact .inl ⟨_, rfl, .reset⟩

/-! ## The step -/

/-- What a step that answers a next state has done: the host on the state with a shorter queue, the engine on the state
with the delay counted down, or nothing. -/
theorem step_cases {s t : State} (h : step s = .next t) :
    (∃ q, HostMove { s with hostQ := q } t) ∨
      (∃ q, EngineMove { s with hostQ := q } t) ∨ t = s := by
  unfold step stepOnce at h
  split at h
  · rename_i a s' ht
    have hs' : ∃ q, s' = { s with hostQ := q } := by
      unfold hostTurn at ht
      split at ht
      · cases ht
      · split at ht
        · cases ht
          exact ⟨_, rfl⟩
        · cases ht
    obtain ⟨q, rfl⟩ := hs'
    rcases hostAct_move a { s with hostQ := q } with ⟨t', ht', hm⟩ | ⟨r, hr⟩
    · rw [ht'] at h
      cases h
      exact .inl ⟨q, hm⟩
    · rw [hr] at h
      cases h
  · split at h
    · rename_i o ho
      obtain ⟨t', rfl, hm⟩ := engine_move ho
      cases h
      rw [countDelay_eq s] at hm
      exact .inr (.inl ⟨_, hm⟩)
    · cases h
      exact .inr (.inr rfl)

/-- The step where the engine moves. -/
theorem step_engine {s : State} {o : Out} (ht : hostTurn s = none)
    (he : engine (countDelay s) = some o) : step s = o := by
  simp only [step, stepOnce, ht, he]

/-- The step where the host acts. -/
theorem step_host {s : State} {a : HostAction} {d : Nat} {q : List HostTurn}
    (hq : s.hostQ = { delay := d, act := a } :: q) (h : d = 0 ∨ engine s = none) :
    step s = hostAct a { s with hostQ := q } := by
  have h' : d = 0 ∨ (engine s).isNone = true := h.imp id (fun h => by rw [h]; rfl)
  simp only [step, stepOnce, hostTurn, hq, if_pos h']

/-- The step where nobody has anything to do. -/
theorem step_idle {s : State} (hq : s.hostQ = []) (he : engine s = none) : step s = .next s := by
  have ht : hostTurn s = none := by rw [hostTurn, hq]
  have hc : countDelay s = s := by rw [countDelay, hq]
  simp only [step, stepOnce, ht, hc, he]

/-- Where the engine waits on its turn, no host action is pending. -/
theorem hostQ_of_wait {s : State} (ht : hostTurn s = none) (he : engine s = none) :
    s.hostQ = [] := by
  cases hq : s.hostQ with
  | nil => rfl
  | cons t q =>
    simp [hostTurn, hq, he] at ht

/-- Counting the host's delay down does not change whether the engine waits. -/
theorem engine_wait_countDelay {s : State} (h : engine (countDelay s) = none) :
    engine s = none := by
  have hs : (countDelay s).tokenSlot = s.tokenSlot := by simp [State.tokenSlot]
  have he : (countDelay s).encoding = s.encoding := by simp [State.encoding]
  unfold engine at *
  rw [countDelay_st] at h
  cases hst : s.st with
  | idle => rfl
  | done => rfl
  | error => rfl
  | busy p =>
    rw [hst] at h
    cases p <;> simp only [reduceCtorEq] at h ⊢
    · simp only [headerStep, view_countDelay] at h ⊢
      split at h
      · cases h
      · cases h
      · split at h
        · simp only [*]
        · cases h
        · cases h
    · simp only [gatherStep, view_countDelay, he, countDelay_inp] at h ⊢
      split at h
      · split at h <;> cases h
      · split at h
        · simp only [*]
        · split at h <;> cases h
        · split at h <;> cases h
    · simp only [tokenStep, countDelay_size, countDelay_total, countDelay_fcnt, hs] at h ⊢
      split at h
      · cases h
      · split at h
        · simp only [runUnit, view_countDelay] at h
          split at h
          · cases h
          · split at h <;> simp_all [runUnit]
        · simp only [runUnit, view_countDelay, view_takeFlagBit] at h
          split at h
          · cases h
          · split at h <;> simp_all [runUnit]

/-- A step on the engine's turn is a move of the engine on the state with the host's delay counted down, or the rest of
a machine that waits with no host action pending. -/
theorem step_engine_cases {s t : State} (ht : hostTurn s = none) (h : step s = .next t) :
    EngineMove (countDelay s) t ∨ (t = s ∧ s.hostQ = [] ∧ engine s = none) := by
  simp only [step, stepOnce, ht] at h
  split at h
  · rename_i o ho
    obtain ⟨t', rfl, hm⟩ := engine_move ho
    cases h
    exact .inl hm
  · rename_i ho
    cases h
    have he := engine_wait_countDelay ho
    exact .inr ⟨rfl, hostQ_of_wait ht he, he⟩

/-- A step on the host's turn is the first queued action, on the state whose queue is the rest. -/
theorem step_host_cases {s s' t : State} {a : HostAction} (ht : hostTurn s = some (a, s'))
    (h : step s = .next t) : ∃ d q, s.hostQ = { delay := d, act := a } :: q ∧
      s' = { s with hostQ := q } ∧ hostAct a s' = .next t := by
  simp only [step, stepOnce, ht] at h
  unfold hostTurn at ht
  split at ht
  · cases ht
  · rename_i u q hq
    split at ht
    · cases ht
      exact ⟨u.delay, q, hq, rfl, h⟩
    · cases ht

end Sys2Proof.Machine
end

