-- ==== Sys2Proof/Machine/Assembler.lean ====
section
/-! DEFINITION. The notation of the spec: the listing of a stream (30_encoding.md R97) and the assembler (30_encoding.md
R98). Neither is state of the block. -/

namespace Sys2Proof.Machine

/-! ## Listing -/

/-- One upper-case hexadecimal digit. -/
def hexDigit (n : BitVec 4) : Char := (Nat.digitChar n.toNat).toUpper

/-- A byte as two hexadecimal digits. -/
def hexByte (b : Byte) : List Char := [hexDigit (hiNibble b), hexDigit (loNibble b)]

/-- A natural number in decimal. -/
def decimal (n : Nat) : List Char := Nat.toDigits 10 n

/-- The 8 bits of a flag byte, bit 7 first. -/
def bits8 (b : Byte) : List Char :=
  [7, 6, 5, 4, 3, 2, 1, 0].map (fun i => if b.getLsbD i then '1' else '0')

/-- The spelling of a token (30_encoding.md R97, 00_scope.md R12). -/
def spellToken : Token → List Char
  | .literal v => "Literal(0x".toList ++ hexByte v ++ [')']
  | .matchRef len disp => "Match(".toList ++ decimal len ++ [',', ' '] ++ decimal disp ++ [')']

/-- The spelling of a header. -/
def spellHeader (v : Variant) (size : Nat) : List Char :=
  "HEADER tag=0x".toList ++ hexByte (tagOf v) ++ " size=".toList ++ decimal size

/-- The spelling of a unit of a stream in the given displacement mode (30_encoding.md R97); a command word is no unit of
a stream. -/
def spell (dispExtra : Nat) : Instr → Option (List Char)
  | .hdr10 size => some (spellHeader .v10 size.toNat)
  | .hdr11 size => some (spellHeader .v11 size.toNat)
  | .flag f => some ("FLAGS 0b".toList ++ bits8 f)
  | .lit v => some (spellToken (.literal v))
  | .m10 l d => some (spellToken (m10Token dispExtra l d))
  | .m11e8 n d => some (spellToken (m11e8Token n d))
  | .m11e16 n d => some (spellToken (m11e16Token n d))
  | .m11s i d => some (spellToken (m11sToken i d))
  | .trl e p s =>
    some ("TRAILER end_delta=".toList ++ decimal e.toNat ++ " padding=".toList ++ decimal p.toNat ++
      " start_delta=".toList ++ decimal s.toNat)
  | .pad _ => some "PAD".toList
  | .cmdReserved0 _ => none
  | .cmdDecode => none
  | .cmdDecodeRaw10 _ => none
  | .cmdDecodeRaw11 => none
  | .cmdOverlay => none
  | .cmdEncode10 => none
  | .cmdEncode11 => none
  | .cmdVerify => none
  | .cmdReserved8 _ => none
  | .cmdReserved9 _ => none
  | .cmdReservedA _ => none
  | .cmdReservedB _ => none
  | .cmdReservedC _ => none
  | .cmdReservedD _ => none
  | .cmdReservedE _ => none
  | .cmdReservedF _ => none
  | .cmdIllegalOvl _ => none
  | .cmdIllegalRsvd _ _ _ => none

/-- Bytes in hexadecimal, a space between them. -/
def hexBytes : List Byte → List Char
  | [] => []
  | [b] => hexByte b
  | b :: bs => hexByte b ++ ' ' :: hexBytes bs

/-- One line of a listing: offset, bytes, spelling (30_encoding.md R97). -/
def listingLine (offset dispExtra : Nat) (i : Instr) : Option (List Char) :=
  (spell dispExtra i).map
    (fun sp => decimal offset ++ [':', ' '] ++ hexBytes (encode i) ++ [' ', ' '] ++ sp)

/-! ## Assembler -/

/-- A line of an assembly source (30_encoding.md R98). -/
inductive AsmLine where
  | variant (v : Variant)
  | mode (overlay : Bool)
  | header (size : Nat)
  | raw (size : Nat)
  | byte (bs : List Byte)
  | pad
  | token (t : Token)
  deriving DecidableEq, Repr

/-- An assembly error: a match out of range (30_encoding.md R98), a size the 24-bit field cannot hold, or a line that
needs a variant before any `.variant`. -/
inductive AsmError where
  | range (e : ErrCode)
  | sizeRange
  | noVariant
  deriving DecidableEq, Repr

/-- The assembler's state: the bytes so far, the size for RAWSIZE, and the tokens of the current group with their
bytes. A source begins in standalone mode (DEDUCED from program P3 of 95_test_vectors.md, assumption 9). -/
structure AsmState where
  variant : Option Variant
  overlay : Bool
  rawsize : Option (BitVec 24)
  out     : List Byte
  group   : List (Token × List Byte)
  deriving DecidableEq, Repr

/-- Before the first line. -/
def asmStart : AsmState :=
  { variant := none, overlay := false, rawsize := none, out := [], group := [] }

/-- The mode's `DISP_EXTRA` (40_tokenizer.md R131). -/
def asmDispExtra (v : Variant) (overlay : Bool) : Nat :=
  match v with
  | .v10 => if overlay then 3 else 1
  | .v11 => 1

/-- The current group ends: its flag byte, then its tokens (44_encoder.md R218). -/
def endGroup (a : AsmState) : AsmState :=
  match a.group with
  | [] => a
  | g =>
    { a with
      out := a.out ++ flagByte (g.map Prod.fst) 0 :: (g.map Prod.snd).flatten
      group := [] }

/-- A token line joins the group, which ends at 8 tokens. -/
def asmToken (t : Token) (a : AsmState) : Except AsmError AsmState :=
  match a.variant with
  | none => .error .noVariant
  | some v =>
    match packToken v (asmDispExtra v a.overlay) t with
    | .error e => .error (.range e)
    | .ok bs =>
      let a1 := { a with group := a.group ++ [(t, bs)] }
      .ok (if a1.group.length = flagGroup then endGroup a1 else a1)

/-- One line. A line other than a token line ends the current group (30_encoding.md R98). -/
def asmLine (a : AsmState) (l : AsmLine) : Except AsmError AsmState :=
  match l with
  | .token t => asmToken t a
  | .variant v => .ok { endGroup a with variant := some v }
  | .mode o => .ok { endGroup a with overlay := o }
  | .byte bs => .ok { endGroup a with out := (endGroup a).out ++ bs }
  | .pad =>
    .ok { endGroup a with
      out := (endGroup a).out ++ List.replicate (padCount (endGroup a).out.length).val padByte }
  | .raw size =>
    if sizeMax < size then .error .sizeRange
    else .ok { endGroup a with rawsize := some (BitVec.ofNat 24 size) }
  | .header size =>
    match a.variant with
    | none => .error .noVariant
    | some v =>
      if sizeMax < size then .error .sizeRange
      else .ok { endGroup a with out := (endGroup a).out ++ headerBytes v size }

/-- All lines in order. -/
def asmLines : List AsmLine → AsmState → Except AsmError AsmState
  | [], a => .ok (endGroup a)
  | l :: ls, a =>
    match asmLine a l with
    | .error e => .error e
    | .ok a1 => asmLines ls a1

/-- The assembler: the stream's bytes and the value for RAWSIZE, if one is given. -/
def assemble (ls : List AsmLine) : Except AsmError (List Byte × Option (BitVec 24)) :=
  match asmLines ls asmStart with
  | .error e => .error e
  | .ok a => .ok (a.out, a.rawsize)

end Sys2Proof.Machine
end

