-- ==== Sys2Proof/Tests/Slice0.lean ====
section
/-! SUPPORT. The model's own tests. Expected values are the spec's worked examples and tables (95_test_vectors.md, and
the examples of the rules) or a hand calculation from a rule; each group names its source. The witnesses at the end
meet the hypotheses of the statements of Certificates/Slice0/Obligations.lean, clause by clause. -/

open Sys2Proof Sys2Proof.Machine

namespace Sys2Proof.Tests

/-- The next state of an outcome. -/
def after : Out → Option State
  | .next s => some s
  | .fault _ => none
  | .refused _ => none

/-- One field of the next state. -/
def field {α : Type} (o : Out) (f : State → α) : Option α := (after o).map f

/-! ## Well-formedness: an ill-formed term for each check -/

theorem test_wf_m11s_indicator_zero : ¬ (Instr.m11s 0#4 5#12).WellFormed := by decide
theorem test_wf_m11s_indicator_one : ¬ (Instr.m11s 1#4 5#12).WellFormed := by decide
theorem test_wf_m11s_indicator_two : (Instr.m11s 2#4 5#12).WellFormed := by decide
theorem test_wf_reserved_with_ovl :
    ¬ (Instr.cmdReserved0 true).WellFormed ∧ ¬ (Instr.cmdReserved8 true).WellFormed ∧
    ¬ (Instr.cmdReserved9 true).WellFormed ∧ ¬ (Instr.cmdReservedA true).WellFormed ∧
    ¬ (Instr.cmdReservedB true).WellFormed ∧ ¬ (Instr.cmdReservedC true).WellFormed ∧
    ¬ (Instr.cmdReservedD true).WellFormed ∧ ¬ (Instr.cmdReservedE true).WellFormed ∧
    ¬ (Instr.cmdReservedF true).WellFormed := by decide
theorem test_wf_ovl_with_raw10 : ¬ (Instr.cmdIllegalOvl 0x2#4).WellFormed := by decide
theorem test_wf_no_reserved_bit : ¬ (Instr.cmdIllegalRsvd 0#27 true 0x1#4).WellFormed := by decide

/-! ## Decoding: a word of every row, written out from its diagram (30_encoding.md R81 to R89, R95) -/

/-- R81: tag 0x10, then 0x123456 little-endian. -/
theorem test_decode_hdr10 :
    decode .header [0x10#8, 0x56#8, 0x34#8, 0x12#8] = .ok (.hdr10 0x123456#24, []) := by decide
theorem test_decode_hdr11 :
    decode .header [0x11#8, 0x90#8, 0x01#8, 0x00#8] = .ok (.hdr11 400#24, []) := by decide
theorem test_decode_bad_tag :
    decode .header [0x12#8, 0x14#8, 0x00#8, 0x00#8] = .error (.badTag 0x12#8) := by decide
theorem test_decode_short_header : decode .header [0x10#8, 0x14#8] = .error .short := by decide
theorem test_decode_flag : decode .flag [0x08#8, 0x61#8] = .ok (.flag 0x08#8, [0x61#8]) := by decide
theorem test_decode_lit : decode .literal [0x61#8] = .ok (.lit 0x61#8, []) := by decide
/-- R84: 1010 0001 0010 0011, l = 0xA, D = 0x123. -/
theorem test_decode_m10 : decode .match10 [0xA1#8, 0x23#8] = .ok (.m10 0xA#4 0x123#12, []) := by
  decide
theorem test_decode_m10_cut : decode .match10 [0xD0#8] = .error .short := by decide
/-- R86: 0000 0001 0010 0011 0100 0101, n = 0x12, D = 0x345. -/
theorem test_decode_m11e8 :
    decode .match11 [0x01#8, 0x23#8, 0x45#8] = .ok (.m11e8 0x12#8 0x345#12, []) := by decide
/-- R87: 0001 0010 0011 0100 0101 0110 0111 1000, n = 0x2345, D = 0x678. -/
theorem test_decode_m11e16 :
    decode .match11 [0x12#8, 0x34#8, 0x56#8, 0x78#8] = .ok (.m11e16 0x2345#16 0x678#12, []) := by
  decide
/-- R85: 1111 0000 0000 0011, i = 0xF, D = 0x003. -/
theorem test_decode_m11s : decode .match11 [0xF0#8, 0x03#8] = .ok (.m11s 0xF#4 0x003#12, []) := by
  decide
/-- R88: end_delta 0x00000F, padding 8, start_delta 5 (95_test_vectors.md P4). -/
theorem test_decode_trl :
    decode .trailer [0x0F#8, 0x00#8, 0x00#8, 0x08#8, 0x05#8, 0x00#8, 0x00#8, 0x00#8] =
      .ok (.trl 15#24 8#8 5#32, []) := by decide
theorem test_decode_pad :
    decode .padding [] = .ok (.pad 0, []) ∧
    decode .padding [0xFF#8, 0xFF#8, 0xFF#8] = .ok (.pad 3, []) ∧
    decode .padding [0xFF#8, 0xFE#8] = .error .notPadding ∧
    decode .padding [0xFF#8, 0xFF#8, 0xFF#8, 0xFF#8] = .error .notPadding := by decide

/-! R95: CMD[3:0] the opcode, CMD[4] OVL, CMD[31:5] reserved. -/

theorem test_decode_cmd_legal :
    decodeCmd 0x01#32 = .cmdDecode ∧ decodeCmd 0x02#32 = .cmdDecodeRaw10 false ∧
    decodeCmd 0x12#32 = .cmdDecodeRaw10 true ∧ decodeCmd 0x03#32 = .cmdDecodeRaw11 ∧
    decodeCmd 0x04#32 = .cmdOverlay ∧ decodeCmd 0x05#32 = .cmdEncode10 ∧
    decodeCmd 0x06#32 = .cmdEncode11 ∧ decodeCmd 0x07#32 = .cmdVerify := by decide
theorem test_decode_cmd_reserved :
    decodeCmd 0x00#32 = .cmdReserved0 false ∧ decodeCmd 0x08#32 = .cmdReserved8 false ∧
    decodeCmd 0x09#32 = .cmdReserved9 false ∧ decodeCmd 0x0A#32 = .cmdReservedA false ∧
    decodeCmd 0x0B#32 = .cmdReservedB false ∧ decodeCmd 0x0C#32 = .cmdReservedC false ∧
    decodeCmd 0x0D#32 = .cmdReservedD false ∧ decodeCmd 0x0E#32 = .cmdReservedE false ∧
    decodeCmd 0x0F#32 = .cmdReservedF false := by decide
theorem test_decode_cmd_illegal :
    decodeCmd 0x11#32 = .cmdIllegalOvl 0x1#4 ∧ decodeCmd 0x1F#32 = .cmdIllegalOvl 0xF#4 ∧
    decodeCmd 0x21#32 = .cmdIllegalRsvd 1#27 false 0x1#4 ∧
    decodeCmd 0x80000012#32 = .cmdIllegalRsvd 0x4000000#27 true 0x2#4 := by decide

/-! ## The table's numbering: byte k of an instruction is bits 8k+7 to 8k -/

theorem test_table_words :
    decodeTableWord 32 0x00000005 = some .cmdEncode10 ∧
    decodeTableWord 8 0x10 = some (.hdr10 0#24) ∧ decodeTableWord 8 0x11 = some (.hdr11 0#24) ∧
    decodeTableWord 24 0x003000 = some (.m11e8 3#8 0#12) ∧
    decodeTableWord 16 0x0120 = some (.m11s 2#4 1#12) ∧
    decodeTableWord 24 0xFFFFFF = some (.pad 3) ∧
    decodeTableWord 64 0x000000050800000F = some (.trl 15#24 8#8 5#32) := by decide

/-- The next step from the placed state runs a header's instruction: a decode of 5 bytes begins. -/
theorem test_fetch_header :
    field (step (placeWord .header [0x10#8, 0x05#8, 0x00#8, 0x00#8] State.reset)) (·.size) =
      some 5 := by decide
/-- A placed command word runs in the next step. -/
theorem test_fetch_command :
    field (step (State.reset.withFetchWord 32 0x00000005)) (·.st) = some (.busy .gather) := by
  decide
/-- A placed tier-0 match runs in the next step: no output yet, so its displacement is out of range. -/
theorem test_fetch_match :
    field (step (State.reset.withFetchWord 24 0x003000)) (·.errSub) = some 3#4 := by decide

/-! ## States for the tests -/

/-- A raw variant-10 decode of 20 bytes with "abcd" produced and a match's flag bit next. -/
def decoding : State :=
  { State.reset with
    st := .busy .tokens
    op := opDecodeRaw10
    size := 20
    total := 4
    out := [0x61#8, 0x62#8, 0x63#8, 0x64#8]
    fcnt := 4
    flags := 0x80#8
    fpos := some 0
    ip := 5
    tpos := 4 }

/-- The same in variant 11, with room for the longest forms of the tests. -/
def decoding11 : State := { decoding with op := opDecodeRaw11, variant := .v11, size := 500 }

/-- The same command word as a verification: nothing in OUT. -/
def verifying : State := { decoding with op := opVerify, out := [] }

/-- An encode of "abcXabcYabc" before the token at input index 4 (95_test_vectors.md E6). -/
def searching : State :=
  { State.reset with
    st := .busy .search
    op := opEncode10
    inp := [0x61#8, 0x62#8, 0x63#8, 0x58#8, 0x61#8, 0x62#8, 0x63#8, 0x59#8, 0x61#8, 0x62#8, 0x63#8]
    pos := 4
    wfill := 4
    win := [(0, 0x61#8), (1, 0x62#8), (2, 0x63#8), (3, 0x58#8)]
    chunk := [{ tok := .literal 0x61#8, start := 0 }]
    ccnt := 1 }

/-- A command that gathers its input, with the port's answers. -/
def gathering (op : BitVec 4) (port : List InAnswer) : State :=
  { State.reset with st := .busy .gather, op := op, inPort := port }

/-! ## The stream's instructions -/

/-- 40_tokenizer.md R122 and the walk-through of S3: flag byte at offset 0. -/
theorem test_flag :
    field (exec (.flag 0x08#8) { State.reset with st := .busy .tokens })
      (fun s => (s.flags, s.fcnt, s.fpos, s.ip)) = some (0x08#8, 8, some 0, 1) := by decide
theorem test_lit :
    field (exec (.lit 0x65#8) decoding) (fun s => (s.out, s.total, s.ip)) =
      some ([0x61#8, 0x62#8, 0x63#8, 0x64#8, 0x65#8], 5, 6) := by decide
/-- T1: Match(16, 2) overlaps itself. -/
theorem test_m10_overlaps :
    field (exec (.m10 0xD#4 1#12) decoding) (fun s => (s.out.drop 4, s.total)) =
      some ([0x63#8, 0x64#8, 0x63#8, 0x64#8, 0x63#8, 0x64#8, 0x63#8, 0x64#8,
        0x63#8, 0x64#8, 0x63#8, 0x64#8, 0x63#8, 0x64#8, 0x63#8, 0x64#8], 20) := by decide
/-- T2: the same word in overlay mode is Match(16, 4). -/
theorem test_m10_overlay_mode :
    field (exec (.m10 0xD#4 1#12) { decoding with dispExtra := 3 }) (fun s => s.out.drop 16) =
      some [0x61#8, 0x62#8, 0x63#8, 0x64#8] := by decide
/-- T14's tier 0: length 3 + 17. -/
theorem test_m11e8 : field (exec (.m11e8 3#8 0#12) decoding11) (·.total) = some 24 := by decide
/-- S4's tier 1: length 123 + 273 = 396. -/
theorem test_m11e16 :
    field (exec (.m11e16 0x07B#16 3#12) decoding11) (fun s => (s.total, s.ip)) =
      some (400, 9) := by decide
/-- T13's tier 2: Match(3, 1). -/
theorem test_m11s :
    field (exec (.m11s 2#4 0#12) decoding11) (fun s => s.out.drop 4) =
      some [0x64#8, 0x64#8, 0x64#8] := by decide
/-- T6: 4 + 18 passes the declared size of 20. -/
theorem test_match_overrun :
    field (exec (.m10 0xF#4 0#12) decoding)
      (fun s => (s.st, s.status, s.erroff, s.errfoff, s.result)) =
      some (.error, 0x213#32, 4#32, 0#32, 4#32) := by decide
/-- T7: a displacement of 6 after 4 bytes is reported before the overrun. -/
theorem test_match_disp_first :
    field (exec (.m10 0xF#4 5#12) decoding) (fun s => (s.status, s.out)) =
      some (0x313#32, []) := by decide
/-- V3: the verifier's own code for the same fault. -/
theorem test_verify_disp :
    field (exec (.m10 0xF#4 5#12) verifying) (·.status) = some 0x233#32 := by decide
/-- V5's overshoot is no error token by token. -/
theorem test_verify_overshoot :
    field (exec (.m10 0xF#4 0#12) verifying) (fun s => (s.total, s.out)) = some (22, []) := by
  decide
theorem test_hdr10 :
    field (exec (.hdr10 20#24) { State.reset with st := .busy .header, op := opDecode })
      (fun s => (s.variant, s.size, s.ip, s.st)) = some (.v10, 20, 4, .busy .tokens) := by decide
theorem test_hdr11 :
    field (exec (.hdr11 326#24) { State.reset with st := .busy .header, op := opVerify })
      (fun s => (s.variant, s.size, s.ip, s.st)) = some (.v11, 326, 4, .busy .tokens) := by decide
/-- P4: the fields and SRC of the 19-byte file. -/
theorem test_trl :
    field (exec (.trl 15#24 8#8 5#32)
      { State.reset with
        st := .busy .trailer
        op := opOverlay
        len := 19
        inp := [0xAA#8, 0xBB#8, 0xCC#8, 0xDD#8, 0x01#8, 0xD0#8, 0x61#8, 0x62#8, 0x63#8, 0x64#8,
          0x08#8, 0x0F#8, 0x00#8, 0x00#8, 0x08#8, 0x05#8, 0x00#8, 0x00#8, 0x00#8] })
      (fun s => (s.size, s.endField, s.src)) =
      some (20, 0x0800000F#32, [0x08#8, 0x64#8, 0x63#8, 0x62#8, 0x61#8, 0xD0#8, 0x01#8]) := by
  decide
/-- O3: padding 5 greater than end_delta 4 in a file of 12 bytes. -/
theorem test_trl_bad :
    field (exec (.trl 4#24 5#8 0#32) { State.reset with st := .busy .trailer, len := 12 })
      (fun s => (s.status, s.erroff)) = some (0x343#32, 4#32) := by decide
/-- E7: 14 bytes of output get 2 bytes of filler, E2: 8 bytes get none. -/
theorem test_pad :
    field (exec (.pad 2) { State.reset with st := .busy .pad, out := [0x00#8] }) (·.out) =
      some [0x00#8, 0xFF#8, 0xFF#8] := by decide
theorem test_pad_count : padCount 14 = 2 ∧ padCount 8 = 0 ∧ padCount 15 = 1 ∧ padCount 9 = 3 := by
  decide

/-! ## Command words (95_test_vectors.md C2 to C10) -/

theorem test_cmd_starts :
    field (exec .cmdDecode State.reset) (·.st) = some (.busy .header) ∧
    field (exec .cmdVerify State.reset) (·.st) = some (.busy .header) ∧
    field (exec .cmdOverlay State.reset) (fun s => (s.st, s.dispExtra, s.ovl)) =
      some (.busy .gather, 3, false) ∧
    field (exec .cmdEncode10 State.reset) (fun s => (s.st, s.variant)) =
      some (.busy .gather, .v10) ∧
    field (exec .cmdEncode11 State.reset) (fun s => (s.st, s.variant)) =
      some (.busy .gather, .v11) := by decide
theorem test_cmd_raw10 :
    field (exec (.cmdDecodeRaw10 true) { State.reset with rawsize := 20#24 })
      (fun s => (s.st, s.size, s.dispExtra, s.ovl)) = some (.busy .tokens, 20, 3, true) := by
  decide
theorem test_cmd_raw11 :
    field (exec .cmdDecodeRaw11 { State.reset with rawsize := 400#24 })
      (fun s => (s.size, s.variant, s.dispExtra)) = some (400, .v11, 1) := by decide
/-- C2 to C5. -/
theorem test_cmd_illegal :
    field (exec (decodeCmd 0x00#32) State.reset) (·.status) = some 0x153#32 ∧
    field (exec (decodeCmd 0x08#32) State.reset) (·.status) = some 0x153#32 ∧
    field (exec (decodeCmd 0x11#32) State.reset) (·.status) = some 0x153#32 ∧
    field (exec (decodeCmd 0x21#32) State.reset) (·.status) = some 0x153#32 := by decide
/-- C10: a legal command after an error clears the error registers. -/
theorem test_cmd_after_error :
    field (exec .cmdDecode { State.reset with st := .error, errKind := 5, errSub := 1, result := 3 })
      (fun s => (s.status, s.result)) = some (0x001#32, 0#32) := by decide
/-- C9: while BUSY both writes are ignored. -/
theorem test_busy_writes :
    field (hostAct (.writeReg 0x00 4 0x5#32) decoding) (·.op) = some opDecodeRaw10 ∧
    field (hostAct (.writeReg 0x08 4 0x7#32) decoding) (·.rawsize) = some 0#24 := by decide
/-- C8: abort. -/
theorem test_abort :
    field (hostAct (.writeReg 0x04 4 0x1#32) decoding)
      (fun s => (s.status, s.result, s.out, s.errfoff)) =
      some (0#32, 0#32, [], 0xFFFFFFFF#32) := by decide
/-- C1: the registers after reset, as the host reads them. -/
theorem test_reset_registers :
    readRegister State.reset 0x08 = 0 ∧ readRegister State.reset 0x0C = 0 ∧
    readRegister State.reset 0x10 = 0 ∧ readRegister State.reset 0x14 = 0 ∧
    readRegister State.reset 0x18 = 0xFFFFFFFF#32 := by decide
/-- The output port at DONE, and otherwise the empty sequence (46_commands.md R269). -/
theorem test_read_out :
    field (hostAct (.readOut 1 2) { decoding with st := .done }) (·.hostBytes) =
      some [0x62#8, 0x63#8] ∧
    field (hostAct (.readOut 1 2) decoding) (·.hostBytes) = some [] := by decide

/-! ## The engine's own moves -/

/-- T9: a match cut after one byte is not emitted, and the byte is consumed. -/
theorem test_cut_match :
    field (step { decoding with inPort := [.byte 0xD0#8, .eoi] })
      (fun s => (s.status, s.erroff, s.result, s.out)) =
      some (0x113#32, 6#32, 4#32, []) := by decide
/-- The engine waits inside a token: nothing has changed. -/
theorem test_wait : after (step { decoding with inPort := [.byte 0xD0#8] }) =
    some { decoding with inPort := [.byte 0xD0#8] } := by decide
/-- M6: at index 4 of "abcXabcYabc" the finder takes Match(3, 4). -/
theorem test_search :
    field (step searching) (fun s => (s.chunk.map (·.tok), s.pos, s.wfill)) =
      some ([.literal 0x61#8, .matchRef 3 4], 7, 7) := by decide
/-- M7: with ENC_DMIN = 3 displacements 1 and 2 are not offered. -/
theorem test_search_dmin :
    ({ searching with
        config := { Config.standard with encDmin := 3 }
        inp := List.replicate 8 0x61#8
        pos := 3
        wfill := 3
        win := [(0, 0x61#8), (1, 0x61#8), (2, 0x61#8)] } : State).searchToken 0x61#8 =
      .matchRef 5 3 := by decide
/-- 44_encoder.md R218's example: literal, match, literal gives the flag byte 0x40. -/
theorem test_flag_byte :
    flagByte [.literal 0x61#8, .matchRef 3 1, .literal 0x62#8] 0 = 0x40#8 := by decide
/-- The packing table of 95_test_vectors.md, variant 10. -/
theorem test_pack10 :
    packToken .v10 1 (.matchRef 18 4096) = .ok [0xFF#8, 0xFF#8] ∧
    packToken .v10 1 (.matchRef 17 1) = .ok [0xE0#8, 0x00#8] ∧
    packToken .v10 1 (.matchRef 19 1) = .error .encodeLengthRange ∧
    packToken .v10 1 (.matchRef 2 0) = .error .encodeDispRange := by decide
/-- The packing table, variant 11. -/
theorem test_pack11 :
    packToken .v11 1 (.matchRef 16 4096) = .ok [0xFF#8, 0xFF#8] ∧
    packToken .v11 1 (.matchRef 17 4096) = .ok [0x00#8, 0x0F#8, 0xFF#8] ∧
    packToken .v11 1 (.matchRef 272 4096) = .ok [0x0F#8, 0xFF#8, 0xFF#8] ∧
    packToken .v11 1 (.matchRef 273 1) = .ok [0x10#8, 0x00#8, 0x00#8, 0x00#8] ∧
    packToken .v11 1 (.matchRef 65808 1) = .ok [0x1F#8, 0xFF#8, 0xF0#8, 0x00#8] ∧
    packToken .v11 1 (.matchRef 65809 1) = .error .encodeLengthRange ∧
    packToken .v11 1 (.matchRef 3 4097) = .error .encodeDispRange := by decide
/-- The header of an encode of 400 bytes (E14). -/
theorem test_header_bytes : headerBytes .v11 400 = [0x11#8, 0x90#8, 0x01#8, 0x00#8] := by decide
/-- The window's storage: a write, an overwrite, and a write of the unlisted value. -/
theorem test_memory :
    Memory.write (Memory.write [(1, 0x61#8)] 3 0x62#8) 2 0x63#8 =
      [(1, 0x61#8), (2, 0x63#8), (3, 0x62#8)] ∧
    Memory.write [(1, 0x61#8), (2, 0x63#8)] 1 0x00#8 = [(2, 0x63#8)] ∧
    Memory.read [(1, 0x61#8)] 1 = 0x61#8 := by decide

/-! ## Listing and assembler (30_encoding.md R97, R98) -/

/-- P2's listing, offset 12: "10 01 B0 04" and "Match(300, 5)"; and offset 4's flag bits. -/
theorem test_listing_bytes :
    decimal 12 = ['1', '2'] ∧
    hexBytes (encode (.m11e16 0x01B#16 4#12)) =
      ['1', '0', ' ', '0', '1', ' ', 'B', '0', ' ', '0', '4'] ∧
    bits8 0x38#8 = ['0', '0', '1', '1', '1', '0', '0', '0'] := by decide
theorem test_listing_spelling :
    spell 1 (.m11e16 0x01B#16 4#12) =
      some ['M', 'a', 't', 'c', 'h', '(', '3', '0', '0', ',', ' ', '5', ')'] := by decide
/-- P2's source and its 20 bytes. -/
theorem test_assemble_p2 :
    (assemble [.variant .v11, .mode false, .header 326, .token (.literal 0x61#8),
      .token (.literal 0x62#8), .token (.matchRef 3 2), .token (.matchRef 20 1),
      .token (.matchRef 300 5), .token (.literal 0x7A#8), .pad]).toOption =
      some ([0x11#8, 0x46#8, 0x01#8, 0x00#8, 0x38#8, 0x61#8, 0x62#8, 0x20#8, 0x01#8, 0x00#8,
        0x30#8, 0x00#8, 0x10#8, 0x01#8, 0xB0#8, 0x04#8, 0x7A#8, 0xFF#8, 0xFF#8, 0xFF#8],
        none) := by decide
/-- P3's source: two groups; no mode line, so standalone. -/
theorem test_assemble_p3 :
    (assemble [.variant .v10, .header 17, .token (.literal 0x61#8), .token (.literal 0x62#8),
      .token (.literal 0x63#8), .token (.literal 0x64#8), .token (.literal 0x65#8),
      .token (.literal 0x66#8), .token (.literal 0x67#8), .token (.literal 0x68#8),
      .token (.matchRef 8 8), .token (.literal 0x21#8), .pad]).toOption =
      some ([0x10#8, 0x11#8, 0x00#8, 0x00#8, 0x00#8, 0x61#8, 0x62#8, 0x63#8, 0x64#8, 0x65#8,
        0x66#8, 0x67#8, 0x68#8, 0x80#8, 0x50#8, 0x07#8, 0x21#8, 0xFF#8, 0xFF#8, 0xFF#8],
        none) := by decide

/-! ## Witnesses: concrete states and operands that meet the hypotheses of the statements -/

theorem reset_registersAgree : RegistersAgree State.reset :=
  ⟨by decide, fun h => absurd h (by decide), fun _ => rfl, fun _ => rfl, fun _ => rfl⟩

theorem reset_lengthsAgree : LengthsAgree State.reset :=
  ⟨fun _ h => (nomatch h), fun h => (nomatch h), fun h => (nomatch h),
    fun _ h => h.elim (fun h => (nomatch h)) (fun h => (nomatch h)),
    fun h => absurd h (by decide), fun h => absurd h (by decide), fun h => absurd h (by decide)⟩

theorem reset_windowHolds : WindowHolds State.reset :=
  ⟨by decide, by decide, fun i _ h => absurd h (Nat.not_lt_zero i)⟩

theorem reset_windowCanonical : WindowCanonical State.reset :=
  ⟨rfl, fun c h => (by cases h)⟩

theorem reset_countersInRange : CountersInRange State.reset :=
  ⟨by decide, by decide, rfl, by decide, by decide⟩

theorem reset_paddedOutput : PaddedOutput State.reset := by
  rintro (h | ⟨h, -⟩) <;> cases h

/-- With nothing pending, a step from reset answers the same state. -/
theorem step_reset : step State.reset = .next State.reset := rfl

theorem witness_UnmappedOffsetsReadZero : 0x1C ≤ 0x1C ∧ 0x1C % 4 = 0 := by decide

/-- Each of STATE's values. -/
theorem witness_StatusShowsStateAndError :
    RegistersAgree State.reset ∧ RegistersAgree { State.reset with st := .busy .tokens } ∧
    RegistersAgree { State.reset with st := .done } ∧
    RegistersAgree { State.reset with st := .error, errKind := 5, errSub := 1 } := by
  refine ⟨reset_registersAgree, ⟨?_, ?_, ?_, ?_, ?_⟩, ⟨?_, ?_, ?_, ?_, ?_⟩, ⟨?_, ?_, ?_, ?_, ?_⟩⟩
  all_goals first
    | decide
    | exact fun _ => ⟨.commandIllegal, rfl, rfl⟩
    | (intro h; cases h)

/-- A BUSY state whose registers agree, for the clause about BUSY. -/
theorem witness_StatusShowsStateAndError_busy :
    ({ State.reset with st := .busy .tokens } : State).busy = true := by decide
/-- Every register read in a state where no two of them are equal. -/
theorem test_register_reads :
    let s : State :=
      { State.reset with
        st := .error
        errKind := 2
        errSub := 1
        rawsize := 0x00FFFFFF#24
        result := 7
        erroff := 8
        errfoff := 9 }
    [0x00, 0x04, 0x08, 0x0C, 0x10, 0x14, 0x18].map
        (fun off => field (hostAct (.readReg off 4) s) (·.hostData)) =
      [some 0#32, some 0#32, some 0x00FFFFFF#32, some 0x123#32, some 7#32, some 8#32, some 9#32] :=
  by decide

theorem witness_RawsizeHolds24Bits :
    State.reset.busy = false ∧ decoding.busy = true ∧
    field (exec (.cmdDecodeRaw10 false) State.reset) (·.size) = some 0 ∧
    field (exec .cmdDecodeRaw11 State.reset) (·.size) = some 0 := by decide

theorem witness_NarrowAccessesAreRefused : (2 ≠ 4 ∨ 0 % 4 ≠ 0) ∧ (4 ≠ 4 ∨ 2 % 4 ≠ 0) := by decide

theorem witness_AbortEndsRunningCommand :
    decoding.busy = true ∧ (1#32).getLsbD 0 = true ∧ State.reset.busy = false ∧
    (2#32).getLsbD 0 = false := by decide

theorem witness_OutputIsVisibleAtDoneOnly :
    decoding.st ≠ .done ∧ ({ decoding with st := .done } : State).st = .done ∧ 3 < 4 := by decide

theorem witness_BusyWritesAreIgnored : decoding.busy = true := by decide

/-- At the ends of the legal opcodes, with OVL on the one opcode that takes it, and beyond each limit. -/
theorem witness_IllegalWordsEndInError :
    State.reset.busy = false ∧ LegalWord 1#32 ∧ LegalWord 7#32 ∧ LegalWord 0x12#32 ∧
    ¬ LegalWord 0#32 ∧ ¬ LegalWord 8#32 ∧ ¬ LegalWord 0x11#32 ∧ ¬ LegalWord 0x22#32 := by
  unfold LegalWord
  decide

theorem witness_idle :
    State.reset.busy = false ∧ ({ State.reset with st := .done } : State).busy = false ∧
    ({ State.reset with st := .error } : State).busy = false := by decide

/-- A MAX_OUT below the range of 00_scope.md R7 is needed to pass it with a 24-bit size. -/
theorem witness_RawCommandsStartTokens :
    State.reset.overOut State.reset.rawsize.toNat = false ∧
    ({ State.reset with
        config := { Config.standard with maxOut := some 5 }
        rawsize := 6#24 } : State).overOut 6 = true := by decide

/-- `s` under the given MAX_OUT, to be passed by a small output where it is below the range of 00_scope.md R7. -/
def bounded (n : Nat) (s : State) : State :=
  { s with config := { Config.standard with maxOut := some n } }

theorem witness_HeaderStartsItsCommand :
    State.reset.op ≠ opVerify ∧ State.reset.overOut (0xFFFFFF#24).toNat = false ∧
    (bounded 5 State.reset).op ≠ opVerify ∧ (bounded 5 State.reset).overOut (5#24).toNat = false ∧
    (bounded 5 State.reset).overOut (6#24).toNat = true ∧ verifying.op = opVerify := by decide

/-- A DECODE and a VERIFY at their header. -/
def atHeader (op : BitVec 4) (port : List InAnswer) : State :=
  { State.reset with st := .busy .header, op := op, inPort := port }

theorem witness_BadHeadersAreReported :
    EngineTurn (atHeader opDecode [.byte 0x12#8, .byte 0#8, .byte 0#8, .byte 0#8]) ∧
    (atHeader opDecode [.byte 0x12#8, .byte 0#8, .byte 0#8, .byte 0#8]).view.bytes =
      [0x12#8, 0#8, 0#8, 0#8] ∧ 0x12#8 ≠ 0x10#8 ∧ 0x12#8 ≠ 0x11#8 ∧
    EngineTurn (atHeader opVerify [.byte 0x10#8, .byte 0#8, .byte 0#8, .eoi]) ∧
    (atHeader opVerify [.byte 0x10#8, .byte 0#8, .byte 0#8, .eoi]).view.bytes.length < 4 ∧
    (atHeader opVerify [.byte 0x10#8, .byte 0#8, .byte 0#8, .eoi]).view.stop = .eoi :=
  ⟨rfl, rfl, by decide, by decide, rfl, by decide, rfl⟩

/-- A block that accepts `n` input bytes. -/
def limited (n : Nat) (s : State) : State :=
  { s with config := { Config.standard with maxIn := some n } }

/-- The fourth byte of a header would pass MAX_IN. -/
def cutHeader (op : BitVec 4) : State :=
  limited 3 (atHeader op [.byte 0x10#8, .byte 0#8, .byte 0#8, .byte 0#8])

theorem witness_BadHeadersAreReported_full :
    EngineTurn (cutHeader opDecode) ∧ (cutHeader opDecode).view.bytes.length < 4 ∧
    (cutHeader opDecode).view.stop = .full ∧ (cutHeader opDecode).op ≠ opVerify :=
  ⟨rfl, by decide, by decide, by decide⟩

/-- SRC; the open port; MAX_IN met exactly and passed by one byte. -/
theorem witness_PortDeliversAnswersInOrder :
    ({ State.reset with st := .busy .tokens, op := opOverlay } : State).readsSrc = true ∧
    State.reset.readsSrc = false ∧ State.reset.config.maxIn = none ∧
    [0x61#8, 0x62#8].length ≤ 2 - State.reset.ip ∧ 1 - State.reset.ip < [0x61#8, 0x62#8].length ∧
    (gathering opEncode10 [.byte 0x61#8, .byte 0x62#8]).inPort =
      [0x61#8, 0x62#8].map InAnswer.byte := by decide

/-- A VERIFY whose header, and whose match, is cut by MAX_IN. -/
theorem witness_PortDeliversAnswersInOrder_verify :
    EngineTurn (cutHeader opVerify) ∧ (cutHeader opVerify).view.stop = .full ∧
    (cutHeader opVerify).view.bytes.length < 4 ∧
    EngineTurn (limited 6 { verifying with inPort := [.byte 0xD0#8, .byte 0x03#8] }) ∧
    (limited 6 { verifying with inPort := [.byte 0xD0#8, .byte 0x03#8] }).view.stop = .full ∧
    verifying.total < verifying.size ∧
    decode .match10 (limited 6 { verifying with inPort := [.byte 0xD0#8, .byte 0x03#8] }).view.bytes =
      .error .short := ⟨rfl, by decide, by decide, rfl, by decide⟩

theorem witness_LiteralAppendsOneByte : decoding.op ≠ opVerify := by decide

/-- Each form, at its least length and displacement. -/
theorem witness_MatchCopiesCyclically :
    decoding.op ≠ opVerify ∧ decoding11.op ≠ opVerify ∧
    matchOf decoding (.m10 0#4 0#12) = some (3, 1) ∧
    matchOf decoding (.m10 0xD#4 3#12) = some (16, 4) ∧
    matchOf decoding11 (.m11s 2#4 0#12) = some (3, 1) ∧
    matchOf decoding11 (.m11e8 0#8 3#12) = some (17, 4) ∧
    matchOf decoding11 (.m11e16 0#16 0#12) = some (273, 1) ∧
    1 ≤ 4 ∧ 4 ≤ decoding.out.length ∧ decoding.out.length + 16 ≤ decoding.size ∧
    decoding11.out.length + 273 ≤ decoding11.size := by decide

theorem witness_VerifierCountsTokens :
    verifying.op = opVerify ∧ matchOf verifying (.m10 0xF#4 3#12) = some (18, 4) ∧ 1 ≤ 4 ∧
    4 ≤ verifying.total := by decide

theorem decoding_countsFit : CountsFit decoding := by
  refine ⟨by decide, by decide, by decide, fun f h => ?_⟩
  cases h
  decide

theorem verifying_countsFit : CountsFit verifying := by
  refine ⟨by decide, by decide, by decide, fun f h => ?_⟩
  cases h
  decide

/-- One beyond the output; the whole output, one byte too long. -/
theorem witness_DecodeMatchErrors :
    CountsFit decoding ∧ decoding.op ≠ opVerify ∧
    matchOf decoding (.m10 0#4 4#12) = some (3, 5) ∧ decoding.out.length < 5 ∧
    matchOf decoding (.m10 0xE#4 3#12) = some (17, 4) ∧ 4 ≤ decoding.out.length ∧
    decoding.size < decoding.out.length + 17 := ⟨decoding_countsFit, by decide⟩

theorem witness_VerifyMatchErrors :
    CountsFit verifying ∧ verifying.op = opVerify ∧ 1 ≤ verifying.dispExtra ∧
    matchOf { verifying with dispExtra := 0 } (.m10 0#4 0#12) = some (3, 0) ∧
    matchOf verifying (.m10 0#4 4#12) = some (3, 5) ∧ verifying.total < 5 :=
  ⟨verifying_countsFit, by decide⟩

theorem witness_DecoderAndVerifierAgreePerToken :
    decoding.op ≠ opVerify ∧ verifying.op = opVerify ∧ decoding.total = decoding.out.length ∧
    verifying.total = decoding.total ∧ verifying.size = decoding.size ∧
    verifying.tpos = decoding.tpos ∧ verifying.fpos = decoding.fpos ∧ CountsFit decoding ∧
    decoding.total < decoding.size ∧ ∀ n m, Token.matchRef 3 1 = .matchRef n m → 1 ≤ m := by
  refine ⟨by decide, rfl, rfl, rfl, rfl, rfl, rfl, decoding_countsFit, by decide, ?_⟩
  intro n m h
  cases h
  decide

/-- A flag byte due, and a match due. -/
theorem witness_StepRunsDecodedUnit :
    EngineTurn { decoding with fcnt := 0, inPort := [.byte 0x08#8] } ∧
    decoding.total < decoding.size ∧
    decode (State.tokenSlot { decoding with fcnt := 0, inPort := [.byte 0x08#8] })
      (State.view { decoding with fcnt := 0, inPort := [.byte 0x08#8] }).bytes =
      .ok (.flag 0x08#8, []) ∧
    decoding.fcnt ≠ 0 ∧
    EngineTurn { decoding with inPort := [.byte 0xD0#8, .byte 0x03#8] } ∧
    decode (State.tokenSlot { decoding with inPort := [.byte 0xD0#8, .byte 0x03#8] })
      (State.view { decoding with inPort := [.byte 0xD0#8, .byte 0x03#8] }).bytes =
      .ok (.m10 0xD#4 3#12, []) :=
  ⟨rfl, by decide, by decide, by decide, rfl, by decide⟩

theorem witness_StepRunsFramingAndCommands :
    EngineTurn (atHeader opDecode [.byte 0x10#8, .byte 1#8, .byte 0#8, .byte 0#8]) ∧
    decode .header (atHeader opDecode [.byte 0x10#8, .byte 1#8, .byte 0#8, .byte 0#8]).view.bytes =
      .ok (.hdr10 1#24, []) ∧
    EngineTurn { State.reset with st := .busy .trailer, inp := List.replicate 8 0#8, len := 8 } ∧
    decode .trailer ((List.replicate 8 0#8).drop (8 - 8)) = .ok (.trl 0#24 0#8 0#32, []) ∧
    EngineTurn { State.reset with st := .busy .pad } :=
  ⟨rfl, by decide, rfl, by decide, rfl⟩

/-- A decode whose declared size is reached. -/
def decoded : State := { decoding with size := 4 }

theorem lengths_of_decoding (s : State) (h1 : s.st = .busy .tokens) (h2 : s.op = opDecodeRaw10)
    (h3 : s.total = s.out.length) (h4 : s.total ≤ s.size) : LengthsAgree s := by
  have hop : s.op ≠ opOverlay := by
    rw [h2]
    decide
  refine ⟨fun p h => ?_, fun h => ?_, fun _ _ => ⟨h3, h4⟩, fun h => ?_, fun h => absurd h hop,
    fun h => absurd h hop, fun h => absurd h hop⟩
  · rw [h1] at h
    cases h
    rw [h2]
    decide
  · rw [h1] at h
    cases h
  · rw [h2] at h
    exact absurd h (by decide)

theorem witness_DecodeEndsAtDeclaredSize :
    EngineTurn decoded ∧ LengthsAgree decoded ∧ decoded.op ≠ opVerify ∧ decoded.op ≠ opOverlay ∧
    decoded.size < 4294967296 ∧ decoded.size ≤ decoded.total ∧
    EngineTurn { decoding with inPort := [.byte 0xD0#8, .byte 0x03#8] } ∧
    LengthsAgree { decoding with inPort := [.byte 0xD0#8, .byte 0x03#8] } ∧
    decoding.total < decoding.size :=
  ⟨rfl, lengths_of_decoding _ rfl rfl rfl (by decide), by decide, by decide, by decide,
    by decide, rfl, lengths_of_decoding _ rfl rfl rfl (by decide), by decide⟩

/-- The input ends inside a match, of a decode and of a verification. -/
theorem witness_InputEndsBeforeSize :
    EngineTurn { decoding with inPort := [.byte 0xD0#8, .eoi] } ∧
    decoding.total < decoding.size ∧ CountsFit { decoding with inPort := [.byte 0xD0#8, .eoi] } ∧
    decode (State.tokenSlot { decoding with inPort := [.byte 0xD0#8, .eoi] })
      (State.view { decoding with inPort := [.byte 0xD0#8, .eoi] }).bytes = .error .short ∧
    (State.view { decoding with inPort := [.byte 0xD0#8, .eoi] }).stop = .eoi ∧
    decoding.op ≠ opVerify ∧ verifying.op = opVerify :=
  ⟨rfl, by decide, decoding_countsFit, by decide, by decide, by decide, by decide⟩

/-- The second byte of a match would pass MAX_IN. -/
theorem witness_InputEndsBeforeSize_full :
    EngineTurn (limited 6 { decoding with inPort := [.byte 0xD0#8, .byte 0x03#8] }) ∧
    decode .match10 (limited 6 { decoding with inPort := [.byte 0xD0#8, .byte 0x03#8] }).view.bytes =
      .error .short ∧
    (limited 6 { decoding with inPort := [.byte 0xD0#8, .byte 0x03#8] }).view.stop = .full ∧
    (limited 6 { decoding with inPort := [.byte 0xD0#8, .byte 0x03#8] }).tokenSlot = .match10 :=
  ⟨rfl, by decide, by decide, by decide⟩

theorem witness_VerifierEndsOnExactLength :
    verifying.op = opVerify ∧ CountsFit verifying ∧ verifying.size < 4294967296 ∧
    verifying.total ≠ verifying.size ∧
    CountsFit { verifying with size := 4 } ∧ verifying.total = 4 :=
  ⟨rfl, verifying_countsFit, by decide, by decide, verifying_countsFit, rfl⟩

/-- The step at the declared size: met exactly, and passed by one byte. -/
theorem witness_VerifierEndsOnExactLength_step :
    EngineTurn { verifying with size := 4 } ∧ 4 ≤ verifying.total ∧
    EngineTurn { verifying with size := 3 } ∧ 3 < verifying.total ∧
    CountsFit { verifying with size := 3 } := ⟨rfl, by decide, rfl, by decide, verifying_countsFit⟩

/-- A literal is read; and the engine waits. -/
theorem witness_TokenStepsReadInput :
    EngineTurn { decoding with flags := 0, inPort := [.byte 0x65#8] } ∧
    field (step { decoding with flags := 0, inPort := [.byte 0x65#8] }) (·.st) =
      some (.busy .tokens) ∧
    EngineTurn decoding ∧ field (step decoding) (·.st) = some (.busy .tokens) :=
  ⟨rfl, by decide, rfl, by decide⟩

/-- All of a file of 8 bytes is compressed, and of that all is padding. -/
theorem witness_ValidTrailerStartsInnerDecode :
    let s : State :=
      { State.reset with st := .busy .trailer, op := opOverlay, inp := List.replicate 8 0#8, len := 8 }
    s.len = s.inp.length ∧ (8#24).toNat ≤ s.len ∧ (8#8).toNat ≤ (8#24).toNat ∧
    s.overOut (s.len + (0#32).toNat) = false := by decide

theorem witness_InvalidTrailersAreRejected :
    EngineTurn { State.reset with st := .busy .trailer, len := 7 } ∧ 7 < 8 ∧
    8 - 8 < 4294967296 ∧ 8 < (9#24).toNat ∧ (8#24).toNat < (9#8).toNat ∧ (8#24).toNat ≤ 8 ∧
    (8#8).toNat ≤ (8#24).toNat := ⟨rfl, by decide⟩

/-- A valid trailer at the edge of a MAX_OUT inside the range of 00_scope.md R7, and one byte past it. -/
theorem witness_InvalidTrailersAreRejected_capacity :
    (bounded 16777216 State.reset).config.wf = true ∧ (8#24).toNat ≤ 8 ∧
    (8#8).toNat ≤ (8#24).toNat ∧
    (bounded 16777216 State.reset).overOut (8 + (0xFFFFF8#32).toNat) = false ∧
    (bounded 16777216 State.reset).overOut (8 + (0xFFFFF9#32).toNat) = true := by decide

/-- An OVERLAY of two bytes, the second of them padding, whose inner decode has its three bytes. -/
def overlaid : State :=
  { State.reset with
    st := .busy .tokens
    op := opOverlay
    inp := [0xAA#8, 0xBB#8]
    len := 2
    endDelta := 1
    padding := 1
    startDelta := 2
    size := 3
    total := 3
    out := [0x63#8, 0x62#8, 0x61#8] }

theorem overlaid_lengthsAgree : LengthsAgree overlaid := by
  refine ⟨fun p h => ?_, fun h => ?_, fun _ _ => by decide, fun h => absurd h (by decide),
    fun _ _ => rfl, fun _ _ => by decide, fun _ _ => rfl⟩
  · cases h
    rfl
  · cases h

theorem witness_OverlaySplicesDecodedTail :
    overlaid.op = opOverlay ∧ overlaid.len = overlaid.inp.length ∧
    overlaid.endDelta.toNat ≤ overlaid.len ∧
    overlaid.size = overlaid.startDelta.toNat + overlaid.endDelta.toNat ∧
    overlaid.out.length = overlaid.size ∧
    overlaid.len + overlaid.startDelta.toNat < 4294967296 ∧ EngineTurn overlaid ∧
    LengthsAgree overlaid ∧ overlaid.size ≤ overlaid.total :=
  ⟨rfl, rfl, by decide, by decide, rfl, by decide, rfl, overlaid_lengthsAgree, by decide⟩

theorem searching_windowHolds : WindowHolds searching := by
  refine ⟨by decide, by decide, fun i _ h => ?_⟩
  have h : i < 4 := h
  rcases i with _ | _ | _ | _ | i
  · rfl
  · rfl
  · rfl
  · rfl
  · omega

/-- The nearest candidate, and the farthest. -/
theorem witness_MatchLengthIsLinear :
    WindowHolds searching ∧ 1 ≤ 1 ∧ 1 ≤ searching.wfill ∧ 4 ≤ searching.wfill ∧
    0 < searching.matchLen 4 ∧ searching.matchLen 4 < searching.matchCap :=
  ⟨searching_windowHolds, by decide⟩

/-- A match is found at index 4; a literal at index 3, where the byte is new. -/
theorem witness_SelectionIsLongestFirstFound :
    searching.searchToken 0x61#8 = .matchRef 3 4 ∧
    ({ searching with pos := 3, wfill := 3 } : State).searchToken 0x58#8 = .literal 0x58#8 := by
  decide

theorem witness_FinderTokenReproducesInput :
    WindowHolds searching ∧ 1 ≤ searching.config.encDmin ∧
    searching.inp[searching.pos]? = some 0x61#8 ∧
    ({ decoding with out := searching.inp.take 4 } : State).op ≠ opVerify ∧
    ({ decoding with out := searching.inp.take 4 } : State).out =
      searching.inp.take searching.pos ∧
    searching.pos + (searching.searchToken 0x61#8).count ≤ decoding.size :=
  ⟨searching_windowHolds, by decide⟩

theorem witness_FinderTokensArePackable :
    WindowHolds searching ∧ 1 ≤ searching.config.encDmin ∧
    searching.searchToken 0x61#8 = .matchRef 3 4 := ⟨searching_windowHolds, by decide⟩

/-- The least and the greatest of every range; the two modes of variant 10. -/
theorem witness_PackedMatchesDecode :
    3 ≤ 3 ∧ 3 ≤ 18 ∧ 18 ≤ 18 ∧ 65808 ≤ 65808 ∧ State.reset.dispExtra ≤ 1 ∧
    4096 ≤ 4095 + State.reset.dispExtra ∧
    ({ State.reset with dispExtra := 3 } : State).dispExtra ≤ 3 ∧
    4098 ≤ 4095 + ({ State.reset with dispExtra := 3 } : State).dispExtra := by decide

theorem witness_PackerRefusesOutOfRange :
    (0 < 1 ∨ 4095 + 1 < 0) ∧ (4097 < 1 ∨ 4095 + 1 < 4097) ∧ (2 < 3 ∨ 18 < 2) ∧
    (19 < 3 ∨ 18 < 19) ∧ (65809 < 3 ∨ 65808 < 65809) := by decide

theorem witness_FlagByteMarksMatches :
    (List.replicate 8 (Token.matchRef 3 1)).length ≤ 8 ∧ 7 < 8 ∧
    ([] : List Token).length ≤ 8 := by decide

theorem witness_GroupBytesFollowFlagByte :
    State.reset.ccnt = 0 ∧ searching.chunk ≠ [] ∧ searching.ccnt = searching.chunk.length ∧
    List.Forall₂ (fun e bs => packToken searching.variant searching.dispExtra e.tok = .ok bs)
      searching.chunk [[0x61#8]] ∧
    searching.overOut (searching.out.length + 1 + [[0x61#8]].flatten.length) = false :=
  ⟨rfl, by decide, rfl, .cons rfl .nil, by decide⟩

theorem witness_PaddingFillsToFour :
    State.reset.overOut (State.reset.out.length + (3 : Fin 4).val) = false ∧
    (bounded 2 State.reset).overOut (State.reset.out.length + (3 : Fin 4).val) = true ∧
    EngineTurn { State.reset with st := .busy .finish } ∧
    State.reset.out.length < 4294967296 := ⟨by decide, by decide, rfl, by decide⟩

/-- The input at its limit, and one byte below it. -/
theorem witness_InputIsGatheredByteByByte :
    EngineTurn (gathering opEncode10 [.byte 0x61#8]) ∧
    (gathering opEncode10 [.byte 0x61#8]).view.bytes = [0x61#8] ∧
    (gathering opEncode10 [.byte 0x61#8]).inp.length < 0xFFFFFF ∧
    (gathering opOverlay [.byte 0x61#8]).encoding = false ∧
    (gathering opEncode10 []).encoding = true ∧
    0xFFFFFF ≤ (List.replicate 0xFFFFFF 0x61#8).length ∧
    (gathering opOverlay [.eoi]).view.stop = .eoi ∧ (gathering opOverlay [.eoi]).view.bytes = [] ∧
    (gathering opOverlay []).view.stop = .wait ∧
    (State.view { gathering opOverlay [.byte 0x61#8] with
      config := { Config.standard with maxIn := some 1 }, ip := 1 }).stop = .full :=
  ⟨rfl, by decide, by decide, by decide, by decide, by rw [List.length_replicate], by decide,
    by decide, by decide, by decide⟩

theorem witness_EncoderStartsWithHeader :
    EngineTurn (gathering opEncode10 [.eoi]) ∧ (gathering opEncode10 [.eoi]).encoding = true ∧
    (gathering opEncode10 [.eoi]).view.bytes = [] ∧
    (gathering opEncode10 [.eoi]).view.stop = .eoi ∧
    (gathering opEncode10 [.eoi]).inp.length ≤ 0xFFFFFF ∧
    (gathering opEncode10 [.eoi]).overOut 4 = false ∧
    EngineTurn (bounded 3 (gathering opEncode10 [.eoi])) ∧
    (bounded 3 (gathering opEncode10 [.eoi])).overOut 4 = true :=
  ⟨rfl, by decide, by decide, by decide, by decide, by decide, rfl, by decide⟩

theorem witness_SearchStepTakesOneToken :
    EngineTurn searching ∧ searching.st = .busy .search ∧
    searching.inp[searching.pos]? = some 0x61#8 ∧ searching.ccnt < 7 := ⟨rfl, by decide⟩

/-- The encode before the eighth token of a group, and at the end of its input, with displacement mode `dx`. -/
def searching8 (dx : Nat) : State :=
  { searching with
    chunk := List.replicate 7 { tok := .literal 0x61#8, start := 0 }
    ccnt := 7
    dispExtra := dx }

def searched (dx : Nat) : State :=
  { searching with pos := 11, chunk := [{ tok := .matchRef 3 4, start := 4 }], dispExtra := dx }

/-- Seven literals and Match(3, 4): flag byte 0x01 and 9 bytes; the match alone: flag byte 0x80 and 2 bytes. -/
theorem witness_SearchStepTakesOneToken_group :
    EngineTurn (searching8 1) ∧ (searching8 1).ccnt = 7 ∧ (searching8 1).chunk.length = 7 ∧
    PacksTo (searching8 1) (chunkWith (searching8 1) 0x61#8)
      (0x01#8 :: List.replicate 7 0x61#8 ++ [0x00#8, 0x03#8]) ∧
    (searching8 1).overOut 10 = false ∧ (bounded 9 (searching8 1)).overOut 10 = true ∧
    (searched 1).inp[(searched 1).pos]? = none ∧ (searched 1).chunk ≠ [] ∧
    (searched 1).ccnt = (searched 1).chunk.length ∧
    PacksTo (searched 1) (searched 1).chunk [0x80#8, 0x00#8, 0x03#8] := by
  refine ⟨rfl, rfl, rfl, ⟨List.replicate 7 [0x61#8] ++ [[0x00#8, 0x03#8]], ?_, by decide⟩, by decide,
    by decide, by decide, by decide, rfl, ⟨[[0x00#8, 0x03#8]], ?_, by decide⟩⟩
  · rw [show chunkWith (searching8 1) 0x61#8 =
      List.replicate 7 { tok := .literal 0x61#8, start := 0 } ++
        [{ tok := .matchRef 3 4, start := 4 }] by decide]
    repeat' constructor
  · repeat' constructor

/-- A displacement extra of 5, which no command has, makes the same match fail. -/
theorem witness_SearchStepTakesOneToken_fails :
    PackFails (searching8 5) (chunkWith (searching8 5) 0x61#8) .encodeDispRange 4 ∧
    PackFails (searched 5) (searched 5).chunk .encodeDispRange 4 := by
  constructor
  · refine ⟨List.replicate 7 { tok := .literal 0x61#8, start := 0 }, [],
      { tok := .matchRef 3 4, start := 4 }, 0x00#8 :: List.replicate 7 0x61#8, by decide,
      ⟨List.replicate 7 [0x61#8], ?_, by decide⟩, by decide, by decide, rfl⟩
    repeat' constructor
  · exact ⟨[], [], { tok := .matchRef 3 4, start := 4 }, [0x00#8], rfl, ⟨[], .nil, by decide⟩,
      by decide, by decide, rfl⟩

/-- The invariants' premises, and a step they are about. -/
theorem witness_invariants :
    RegistersAgree State.reset ∧ LengthsAgree State.reset ∧ WindowHolds State.reset ∧
    WindowCanonical State.reset ∧ CountersInRange State.reset ∧ PaddedOutput State.reset ∧
    step State.reset = .next State.reset :=
  ⟨reset_registersAgree, reset_lengthsAgree, reset_windowHolds, reset_windowCanonical,
    reset_countersInRange, reset_paddedOutput, step_reset⟩

/-- A step that changes the window, from a state that meets the window's invariants. -/
theorem witness_window_step :
    WindowHolds searching ∧ WindowCanonical searching ∧
    field (step searching) (·.win.length) = some 7 :=
  ⟨searching_windowHolds, by unfold WindowCanonical; decide, by decide⟩

/-- A decode whose input ends where a token is due: the error leaves RAWSIZE as it was. A write to RAWSIZE and the
host's reset are the steps that change it. -/
theorem witness_StepKeepsParameters :
    EngineTurn { decoding with rawsize := 20, inPort := [.eoi] } ∧
    field (step { decoding with rawsize := 20, inPort := [.eoi] })
      (fun t => (t.st, t.rawsize)) = some (.error, 20) ∧
    field (step { State.reset with hostQ := [⟨0, .writeReg 0x08 4 0xFF000014#32⟩] })
      (·.rawsize) = some 20 ∧
    field (step { decoding with rawsize := 20, hostQ := [⟨0, .reset⟩] }) (·.rawsize) = some 0 :=
  ⟨rfl, by decide, by decide, by decide⟩

theorem witness_EncodedStreamsDecodeBack :
    Config.standard.wf = true ∧ Config.standard.maxIn = none ∧ Config.standard.maxOut = none ∧
    [0x61#8].length ≤ 0xFFFFFF := by decide

theorem witness_DecodeAndVerifyAgree :
    Config.standard.maxIn = none ∧ Config.standard.maxOut = none := by decide

theorem witness_DecodeInvertsEncode :
    (Instr.m11s 2#4 0#12).WellFormed ∧ (Instr.m11s 15#4 0xFFF#12).WellFormed ∧
    (Instr.cmdIllegalOvl 0x1#4).WellFormed ∧ (Instr.pad 3).WellFormed := by decide

theorem witness_EncodeInvertsDecode :
    decode .match11 [0x2F#8, 0xFF#8, 0x61#8] = .ok (.m11s 2#4 0xFFF#12, [0x61#8]) := by decide

theorem witness_StreamByteOrders :
    2 ≤ (0x20#8).toNat / 16 ∧ (0x0F#8).toNat / 16 = 0 ∧ (0x1F#8).toNat / 16 = 1 := by decide

end Sys2Proof.Tests
end

/-! # Reset and the register space (10_state.md R31 to R38, R42) -/

namespace Sys2Proof

/-! ## A field of two joined words -/

/-- A field that starts above the low word is a field of the high word. -/
theorem extractLsb'_append_above {m n : Nat} (a : BitVec m) (b : BitVec n) (k len : Nat) :
    (a ++ b).extractLsb' (n + k) len = a.extractLsb' k len := by
  ext i hi
  simp [BitVec.getLsbD_append, Nat.add_assoc]

/-- A field that ends inside the low word is a field of the low word. -/
theorem extractLsb'_append_within {m n k len : Nat} (a : BitVec m) (b : BitVec n)
    (h : k + len ≤ n) : (a ++ b).extractLsb' k len = b.extractLsb' k len := by
  ext i hi
  have hlow : k + i < n := by omega
  simp [BitVec.getLsbD_append, hlow]

end Sys2Proof

namespace Sys2Proof.Machine

/-! ## The STATUS word -/

/-- STATE's number fits two bits. -/
theorem code_high (st : RunState) : st.code.extractLsb' 2 2 = 0#2 := by
  cases st with
  | idle => rfl
  | busy p => simp [RunState.code]
  | done => rfl
  | error => rfl

/-- Bits 3:0 of STATUS are STATE's number. -/
theorem status_low (s : State) {k len : Nat} (h : k + len ≤ 4) :
    s.status.extractLsb' k len = s.st.code.extractLsb' k len :=
  extractLsb'_append_within _ _ h

theorem status_errKind (s : State) : s.status.extractLsb' 4 4 = s.errKind :=
  (extractLsb'_append_above _ s.st.code 0 4).trans (extractLsb'_append_low _ _)

theorem status_errSub (s : State) : s.status.extractLsb' 8 4 = s.errSub :=
  calc s.status.extractLsb' 8 4
    _ = (0#20 ++ s.errSub ++ s.errKind).extractLsb' 4 4 := extractLsb'_append_above _ s.st.code 4 4
    _ = (0#20 ++ s.errSub).extractLsb' 0 4 := extractLsb'_append_above _ s.errKind 0 4
    _ = s.errSub := extractLsb'_append_low _ _

theorem status_reserved_high (s : State) : s.status.extractLsb' 12 20 = 0#20 :=
  calc s.status.extractLsb' 12 20
    _ = (0#20 ++ s.errSub ++ s.errKind).extractLsb' 8 20 :=
      extractLsb'_append_above _ s.st.code 8 20
    _ = (0#20 ++ s.errSub).extractLsb' 4 20 := extractLsb'_append_above _ s.errKind 4 20
    _ = 0#20 := extractLsb'_append_high _ _

theorem status_reserved_low (s : State) : s.status.extractLsb' 2 2 = 0#2 :=
  (status_low s (by decide)).trans (code_high s.st)

/-! ## Register reads -/

@[simp] theorem readRegister_cmd (s : State) : readRegister s 0x00 = 0#32 := rfl

@[simp] theorem readRegister_ctrl (s : State) : readRegister s 0x04 = 0#32 := rfl

@[simp] theorem readRegister_rawsize (s : State) : readRegister s 0x08 = 0#8 ++ s.rawsize := rfl

@[simp] theorem readRegister_status (s : State) : readRegister s 0x0C = s.status := rfl

@[simp] theorem readRegister_result (s : State) : readRegister s 0x10 = s.result := rfl

@[simp] theorem readRegister_erroff (s : State) : readRegister s 0x14 = s.erroff := rfl

@[simp] theorem readRegister_errfoff (s : State) : readRegister s 0x18 = s.errfoff := rfl

theorem readRegister_unmapped (s : State) {off : Nat} (h : 0x1C ≤ off) :
    readRegister s off = 0#32 := by
  have hne : ∀ r < 0x1C, off ≠ r := fun r hr => by omega
  simp [readRegister, hne, offRawsize, offStatus, offResult, offErroff, offErrfoff]

/-- RAWSIZE's reserved bits 31:24 read 0, so its word is its number. -/
theorem readRegister_rawsize_toNat (s : State) :
    (readRegister s 0x08).toNat = s.rawsize.toNat :=
  (BitVec.toNat_append 0#8 s.rawsize).trans (by simp)

theorem readRegister_rawsize_eq_ofNat (s : State) :
    readRegister s 0x08 = BitVec.ofNat 32 s.rawsize.toNat := by
  apply BitVec.eq_of_toNat_eq
  rw [readRegister_rawsize_toNat, BitVec.toNat_ofNat]
  omega

/-! ## Register writes -/

/-- Only CTRL and RAWSIZE (and CMD, whose write is an instruction) take a write. -/
theorem writeRegister_ignored {off : Nat} (v : Word) (s : State) (hctrl : off ≠ offCtrl)
    (hraw : off ≠ offRawsize) : writeRegister off v s = s := by
  simp [writeRegister, hctrl, hraw]

theorem writeRegister_rawsize_idle (v : Word) {s : State} (h : s.busy = false) :
    writeRegister 0x08 v s = { s with rawsize := v.extractLsb' 0 24 } := by
  simp [writeRegister, offCtrl, offRawsize, h]

theorem writeRegister_rawsize_busy (v : Word) {s : State} (h : s.busy = true) :
    writeRegister 0x08 v s = s := by
  simp [writeRegister, offCtrl, offRawsize, h]

/-! ## Whole-word accesses by the host -/

theorem wholeWord_of_aligned {off : Nat} (h : off % 4 = 0) : wholeWord off 4 = true := by
  simp [wholeWord, h]

theorem hostAct_readReg (s : State) {off : Nat} {w : Word} (h : off % 4 = 0)
    (hw : readRegister s off = w) :
    hostAct (.readReg off 4) s = .next { s with hostData := w } := by
  simp [hostAct, wholeWord_of_aligned h, hw]

theorem hostAct_writeReg (s : State) {off : Nat} (v : Word) (h : off % 4 = 0)
    (hcmd : off ≠ offCmd) :
    hostAct (.writeReg off 4 v) s = .next (writeRegister off v s) := by
  simp [hostAct, wholeWord_of_aligned h, hcmd]

theorem hostAct_writeReg_ignored (s : State) {off : Nat} (v : Word) (h : off % 4 = 0)
    (habove : 0x0C ≤ off) : hostAct (.writeReg off 4 v) s = .next s := by
  have hcmd : off ≠ offCmd := by simp only [offCmd]; omega
  have hctrl : off ≠ offCtrl := by simp only [offCtrl]; omega
  have hraw : off ≠ offRawsize := by simp only [offRawsize]; omega
  rw [hostAct_writeReg s v h hcmd, writeRegister_ignored v s hctrl hraw]

/-! ## SIZE at a raw decode's start -/

theorem issue_of_not_busy (op : BitVec 4) (ovl : Bool) (start : State → State) {s : State}
    (h : s.busy = false) : issue op ovl start s = .next (start (commandInit op ovl s)) := by
  simp [issue, h]

@[simp] theorem startDecode_size (s : State) : (startDecode s).size = s.size := by
  obtain ⟨-, h⟩ | ⟨-, h⟩ := startDecode_spec s
  · simp [h]
  · simp [h]

theorem issue_raw_size {op : BitVec 4} (ho : op = opDecodeRaw10 ∨ op = opDecodeRaw11) (ovl : Bool)
    {s t : State} (hidle : s.busy = false) (h : issue op ovl startDecode s = .next t) :
    t.size = s.rawsize.toNat := by
  rw [issue_of_not_busy op ovl startDecode hidle] at h
  cases h
  simp [startSize, ho]

/-! ## The obligations -/

/-- Settles O1: every value of R42, read off the reset state. -/
theorem resetLeavesStatedValues : Obligations.ResetLeavesStatedValues := by
  unfold Obligations.ResetLeavesStatedValues
  decide

/-- Settles O3: no register stands at 0x1C or above. -/
theorem unmappedOffsetsReadZero : Obligations.UnmappedOffsetsReadZero := by
  intro s off v habove haligned
  exact ⟨hostAct_readReg s haligned (readRegister_unmapped s habove),
    hostAct_writeReg_ignored s v haligned (by omega)⟩

/-- Settles O4: STATUS field by field, then the register reads and the writes that are ignored, then
what agreement with STATE leaves to read while BUSY. -/
theorem statusShowsStateAndError : Obligations.StatusShowsStateAndError := by
  refine ⟨rfl, fun s v hagree => ?_, fun s v => ?_, fun s hagree hbusy => ?_⟩
  · refine ⟨s.status, hostAct_readReg s rfl rfl, hostAct_writeReg_ignored s v rfl (by decide), ?_,
      status_reserved_low s, status_errKind s, status_errSub s, status_reserved_high s,
      fun hst => ?_⟩
    · rw [status_low s (by decide)]
      cases s.st <;> rfl
    · obtain ⟨hkind, hsub, -, -⟩ := hagree.noError hst
      exact ⟨(status_errKind s).trans hkind, (status_errSub s).trans hsub⟩
  · exact ⟨hostAct_readReg s rfl rfl, hostAct_readReg s rfl rfl,
      hostAct_readReg s rfl (readRegister_rawsize_eq_ofNat s), hostAct_readReg s rfl rfl,
      hostAct_readReg s rfl rfl, hostAct_readReg s rfl rfl,
      hostAct_writeReg_ignored s v rfl (by decide), hostAct_writeReg_ignored s v rfl (by decide),
      hostAct_writeReg_ignored s v rfl (by decide)⟩
  · obtain ⟨p, hp⟩ := busy_iff.1 hbusy
    obtain ⟨-, -, hoff, hfoff⟩ := hagree.noError (by simp [hp])
    have hresult : s.result = 0 := hagree.noResult (.inr hbusy)
    exact ⟨hostAct_readReg s rfl hresult, hostAct_readReg s rfl hoff,
      hostAct_readReg s rfl hfoff⟩

/-- Settles O5: the write keeps bits 23:0, and SIZE at a raw decode's start is RAWSIZE. -/
theorem rawsizeHolds24Bits : Obligations.RawsizeHolds24Bits := by
  refine ⟨rfl, fun s v => ⟨fun hidle => ?_, fun hbusy => ?_, fun hidle ovl t => ⟨?_, ?_⟩⟩⟩
  · have hbits : (v.extractLsb' 0 24).toNat = v.toNat % 16777216 := by
      simp [BitVec.extractLsb'_toNat]
    refine ⟨{ s with rawsize := v.extractLsb' 0 24 }, ?_, rfl, hbits, ?_⟩
    · rw [hostAct_writeReg s v rfl (by decide), writeRegister_rawsize_idle v hidle]
    · rw [readRegister_rawsize_toNat, hbits]
  · rw [hostAct_writeReg s v rfl (by decide), writeRegister_rawsize_busy v hbusy]
  · exact issue_raw_size (.inl rfl) ovl hidle
  · exact issue_raw_size (.inr rfl) false hidle

end Sys2Proof.Machine

/-! # Byte orders of the streams (20_memory.md R60 to R63) -/

namespace Sys2Proof

/-! ## Joined words as numbers -/

/-- The number of two joined words, the first one high: the big-endian reading of R61 and R62. -/
theorem toNat_join {m n : Nat} (a : BitVec m) (b : BitVec n) :
    (a ++ b).toNat = 2 ^ n * a.toNat + b.toNat := by
  rw [BitVec.toNat_append, ← Nat.shiftLeft_add_eq_or_of_lt b.isLt, Nat.shiftLeft_eq, Nat.mul_comm]

theorem toNat_nibbles (x : Byte) :
    16 * (hiNibble x).toNat + (loNibble x).toNat = x.toNat :=
  (toNat_join _ _).symm.trans (congrArg BitVec.toNat (nibbles_join x))

/-- A match's displacement bits: the last byte under the low nibble of the one before it. -/
theorem toNat_dispField (x y : Byte) :
    (loNibble x ++ y).toNat = 256 * (loNibble x).toNat + y.toNat := toNat_join _ _

theorem toNat_hiNibble (x : Byte) : (hiNibble x).toNat = x.toNat / 16 := by
  have hjoin := toNat_nibbles x
  have hlow := (loNibble x).isLt
  omega

/-- The indicator of a variant-11 match, read as a number. -/
theorem hiNibble_eq_iff (x : Byte) (k : BitVec 4) : hiNibble x = k ↔ x.toNat / 16 = k.toNat := by
  rw [← BitVec.toNat_inj, toNat_hiNibble]

/-! ## Decoding a variant-11 match, by tier -/

theorem decode_match11_tier0 {b0 : Byte} (rest : List Byte) (h : b0.toNat / 16 = 0) :
    decode .match11 (b0 :: rest) = decodeE8 b0 rest :=
  if_pos ((hiNibble_eq_iff b0 0x0#4).2 h)

theorem decode_match11_tier1 {b0 : Byte} (rest : List Byte) (h : b0.toNat / 16 = 1) :
    decode .match11 (b0 :: rest) = decodeE16 b0 rest := by
  have h0 : hiNibble b0 ≠ 0x0#4 := fun hk => by simp [hiNibble_eq_iff, h] at hk
  exact (if_neg h0).trans (if_pos ((hiNibble_eq_iff b0 0x1#4).2 h))

theorem decode_match11_tier2 {b0 : Byte} (rest : List Byte) (h : 2 ≤ b0.toNat / 16) :
    decode .match11 (b0 :: rest) = decodeS b0 rest := by
  have hne : ∀ k : BitVec 4, k.toNat < 2 → hiNibble b0 ≠ k := fun k hk heq => by
    have := (hiNibble_eq_iff b0 k).1 heq
    omega
  exact (if_neg (hne 0x0#4 (by decide))).trans (if_neg (hne 0x1#4 (by decide)))

/-! ## The fields of a match as one big-endian word -/

/-- Two bytes (variant 10 and tier 2): a nibble, then the displacement bits. -/
theorem bigEndian_two (b0 b1 : Byte) :
    256 * b0.toNat + b1.toNat =
      4096 * (hiNibble b0).toNat + (loNibble b0 ++ b1).toNat := by
  have hb0 := toNat_nibbles b0
  rw [toNat_dispField]
  omega

/-- Three bytes (tier 0): the indicator, 8 length bits, then the displacement bits. -/
theorem bigEndian_three (b0 b1 b2 : Byte) :
    65536 * b0.toNat + 256 * b1.toNat + b2.toNat =
      1048576 * (hiNibble b0).toNat + 4096 * (loNibble b0 ++ hiNibble b1).toNat +
        (loNibble b1 ++ b2).toNat := by
  have hb0 := toNat_nibbles b0
  have hb1 := toNat_nibbles b1
  rw [toNat_dispField, toNat_join]
  omega

/-- Four bytes (tier 1): the indicator, 16 length bits, then the displacement bits. -/
theorem bigEndian_four (b0 b1 b2 b3 : Byte) :
    16777216 * b0.toNat + 65536 * b1.toNat + 256 * b2.toNat + b3.toNat =
      268435456 * (hiNibble b0).toNat + 4096 * (loNibble b0 ++ b1 ++ hiNibble b2).toNat +
        (loNibble b2 ++ b3).toNat := by
  have hb0 := toNat_nibbles b0
  have hb2 := toNat_nibbles b2
  rw [toNat_dispField, toNat_join, toNat_join]
  omega

/-! ## The obligation -/

/-- Settles O60: the little-endian header and trailer, and each match form's fields as the
big-endian word of its bytes, the indicator being the tier's. -/
theorem streamByteOrders : Obligations.StreamByteOrders := by
  refine ⟨fun b1 b2 b3 _ => ⟨le24 b1 b2 b3, rfl, rfl, toNat_le24 b1 b2 b3⟩,
    fun b0 b1 _ => ⟨_, _, rfl, bigEndian_two b0 b1⟩,
    fun b0 b1 _ h => ⟨_, _, decode_match11_tier2 _ h, bigEndian_two b0 b1⟩,
    fun b0 b1 b2 _ h => ⟨_, _, decode_match11_tier0 _ h, ?_⟩,
    fun b0 b1 b2 b3 _ h => ⟨_, _, decode_match11_tier1 _ h, ?_⟩,
    fun e0 e1 e2 p s0 s1 s2 s3 _ =>
      ⟨_, _, rfl, toNat_le24 e0 e1 e2, toNat_le32 s0 s1 s2 s3⟩⟩
  · rw [bigEndian_three, toNat_hiNibble, h, Nat.mul_zero, Nat.zero_add]
  · rw [bigEndian_four, toNat_hiNibble, h, Nat.mul_one]

end Sys2Proof

/-! # The decoder's literal (40_tokenizer.md R123, 41_decoder.md R151) -/

namespace Sys2Proof.Machine

/-- The bytes an instruction takes move IP and the port, and nothing else. -/
theorem consume_eq_portAfter (n : Nat) (s : State) :
    consume n s = { s with ip := s.ip + n, inPort := portAfter n s } := rfl

/-- A literal in a decode command: its byte is taken, then appended. -/
theorem exec_lit_decode {s : State} (ho : s.op ≠ opVerify) (v : Byte) :
    exec (.lit v) s = .next { s with
      out := s.out ++ [v], total := s.total + 1, ip := s.ip + 1, inPort := portAfter 1 s } := by
  rw [exec_token (.lit v), emit_decode_literal (s := consume 1 s) ho, consume_eq_portAfter]

/-- Settles O19: the next state's OUT is the old one with the literal's byte at its end. -/
theorem literalAppendsOneByte : Obligations.LiteralAppendsOneByte := by
  intro s v ho
  exact ⟨_, exec_lit_decode ho v, rfl, List.length_append, List.getElem?_concat_length,
    fun _ ha => List.getElem?_append_left ha⟩

end Sys2Proof.Machine

/-! # The overlay's trailer (42_overlay.md R172, R173) -/

namespace Sys2Proof.Machine

/-! ## The record of an error -/

/-- What the host finds after a `raise` whose offset and count fit their registers (60_exceptions.md
R299). -/
theorem errorRecord_raise {e : ErrCode} {off : Nat} {s : State} (foff : Option Nat)
    (hoff : off < 4294967296) (hres : e.resultAt s.total off < 4294967296) :
    ErrorRecord (raise e off foff s) e (BitVec.ofNat 32 off) (offsetWord (s.freeIx + 1) foff)
      (BitVec.ofNat 32 (e.resultAt s.total off)) where
  state := rfl
  kind := rfl
  sub := rfl
  offset := wide32_of_lt hoff
  flagOffset := rfl
  count := wide32_of_lt hres
  noOutput := rfl
  portClosed := rfl

/-- The record of an error that has no flag byte to name and counts nothing. -/
theorem errorRecord_raise_countless {e : ErrCode} {off : Nat} {s : State} (hoff : off < 4294967296)
    (hres : e.resultAt s.total off = 0) :
    ErrorRecord (raise e off none s) e (BitVec.ofNat 32 off) 0xFFFFFFFF#32 0 := by
  have hrecord := errorRecord_raise (e := e) (s := s) none hoff (by omega)
  rwa [hres] at hrecord

/-! ## TRL, by what its trailer says -/

theorem exec_trl_invalid {s : State} {e : BitVec 24} {p : BitVec 8} (sd : BitVec 32)
    (h : s.len < e.toNat ∨ e.toNat < p.toNat) :
    exec (.trl e p sd) s =
      .next (raise .formatBadTrailer (s.len - 8) none (loadTrailer e p sd s)) :=
  if_pos h

/-- The copied prefix and the declared size together are the whole output (42_overlay.md R173). -/
theorem overlay_output_length {s : State} {e : BitVec 24} (sd : BitVec 32) (he : e.toNat ≤ s.len) :
    s.len - e.toNat + trailerSize e sd = s.len + sd.toNat := by
  simp only [trailerSize]
  omega

/-- A valid trailer: what is left to decide is the capacity test. -/
theorem exec_trl_valid {s : State} {e : BitVec 24} {p : BitVec 8} (sd : BitVec 32)
    (he : e.toNat ≤ s.len) (hp : p.toNat ≤ e.toNat) :
    exec (.trl e p sd) s =
      if s.overOut (s.len + sd.toNat) then
        .next (raise .formatCapacity 0 none (loadTrailer e p sd s))
      else .next (startOverlay (loadTrailer e p sd s)) := by
  have hvalid : ¬ (s.len < e.toNat ∨ e.toNat < p.toNat) := by omega
  rw [← overlay_output_length sd he]
  exact if_neg hvalid

/-! ## A file too short for a trailer -/

theorem trailerStep_short {s : State} (h : s.len < 8) :
    trailerStep s = .next (raise .formatBadTrailer 0 none s) := by
  unfold trailerStep
  split
  · exact if_pos h
  · rfl

theorem step_trailer {s : State} (hturn : EngineTurn s) (hst : s.st = .busy .trailer) :
    step s = trailerStep (countDelay s) :=
  step_engine hturn (by simp [engine, hst])

/-! ## The obligation -/

/-- Settles O32: the short file by the step that finds no trailer; a trailer that was read by its
validity, then by the capacity test. -/
theorem invalidTrailersAreRejected : Obligations.InvalidTrailersAreRejected := by
  refine ⟨fun s hturn hst hshort => ?_, fun s e p sd hlen => ?_⟩
  · refine ⟨_, ?_, errorRecord_raise_countless (s := countDelay s) (by decide) rfl⟩
    rw [step_trailer hturn hst, trailerStep_short (by simpa using hshort)]
  · by_cases hbad : s.len < e.toNat ∨ e.toNat < p.toNat
    · exact ⟨_, exec_trl_invalid sd hbad, fun _ => errorRecord_raise_countless hlen rfl,
        fun he hp => by omega⟩
    · rw [exec_trl_valid sd (by omega) (by omega)]
      cases s.overOut (s.len + sd.toNat) with
      | false =>
        exact ⟨_, rfl, fun h => absurd h hbad, fun _ _ => ⟨fun _ => rfl, nofun⟩⟩
      | true =>
        exact ⟨_, rfl, fun h => absurd h hbad, fun _ _ =>
          ⟨nofun, fun _ => errorRecord_raise_countless (by decide) rfl⟩⟩

end Sys2Proof.Machine

/-! # The match finder's selection (43_match_finder.md R191, R194) -/

namespace Sys2Proof.Machine

/-! ## The order of the candidates -/

/-- Of two candidates the one found first is the nearer or the farther, as `ENC_TIE` says
(43_match_finder.md R194). -/
theorem candidates_foundFirst {s : State} {l₁ l₂ : List Nat} {d d' : Nat}
    (hsplit : s.candidates = l₁ ++ d :: l₂) (hd' : d' ∈ l₂) :
    (s.config.encTie = .nearest → d ≤ d') ∧ (s.config.encTie = .farthest → d' ≤ d) := by
  have hordered := candidates_ordered s
  rw [hsplit] at hordered
  have htail := (List.pairwise_append.1 hordered).2.1
  have horder := List.rel_of_pairwise_cons htail hd'
  constructor <;> intro htie <;> simpa only [htie] using horder

/-! ## What the search answers, by the token -/

theorem searchToken_eq_literal {s : State} {v b : Byte} (h : s.searchToken v = .literal b) :
    b = v ∧ ∀ d ∈ s.candidates, s.matchLen d < matchMin := by
  rcases searchToken_spec s v with ⟨hlit, hshort⟩ | ⟨_, _, _, _, hmatch, _⟩
  · rw [hlit] at h
    exact ⟨(Token.literal.inj h).symm, hshort⟩
  · rw [hmatch] at h
    cases h

/-- A match is the first of the longest candidates: those before it are shorter, those after it
no longer. -/
theorem searchToken_eq_matchRef {s : State} {v : Byte} {n d : Nat}
    (h : s.searchToken v = .matchRef n d) :
    n = s.matchLen d ∧ matchMin ≤ n ∧
      ∃ l₁ l₂, s.candidates = l₁ ++ d :: l₂ ∧
        (∀ d' ∈ l₁, s.matchLen d' < n) ∧ ∀ d' ∈ l₂, s.matchLen d' ≤ n := by
  rcases searchToken_spec s v with ⟨hlit, _⟩ | ⟨l₁, _, l₂, hsplit, hmatch, hmin, hbefore, hafter⟩
  · rw [hlit] at h
    cases h
  · rw [hmatch] at h
    obtain ⟨rfl, rfl⟩ := Token.matchRef.inj h
    exact ⟨rfl, hmin, l₁, l₂, hsplit, hbefore, hafter⟩

/-! ## The obligation -/

/-- Settles O35: the finder answers the first of the longest candidates, so a candidate of the same
length stands after it in the order `ENC_TIE` gives. -/
theorem selectionIsLongestFirstFound : Obligations.SelectionIsLongestFirstFound := by
  refine fun s v => ⟨fun _ => mem_candidates, fun _ => searchToken_eq_literal, fun n d h => ?_⟩
  obtain ⟨hlen, hmin, l₁, l₂, hsplit, hbefore, hafter⟩ := searchToken_eq_matchRef h
  refine ⟨by simp [hsplit], hlen, hmin, fun d' hd' => ?_⟩
  rw [hsplit, List.mem_append, List.mem_cons] at hd'
  rcases hd' with hd' | rfl | hd'
  · exact ⟨Nat.le_of_lt (hbefore d' hd'), fun heq => absurd heq (Nat.ne_of_lt (hbefore d' hd'))⟩
  · exact ⟨Nat.le_of_eq hlen.symm, fun _ => ⟨fun _ => Nat.le_refl _, fun _ => Nat.le_refl _⟩⟩
  · exact ⟨hafter d' hd', fun _ => candidates_foundFirst hsplit hd'⟩

end Sys2Proof.Machine

/-! # The verifier's final length check (45_verifier.md R243) -/

namespace Sys2Proof.Machine

/-! ## FPOS, where the counts fit their registers -/

theorem offsetWord_fpos {s : State} (hfit : CountsFit s) (k : Nat) :
    offsetWord k s.fpos = fposWord s := by
  obtain ⟨-, -, -, hfpos⟩ := hfit
  cases hf : s.fpos with
  | none => simp [fposWord, hf]
  | some f => simp [fposWord, hf, hfpos f hf]

/-! ## What the host's delay leaves alone -/

@[simp] theorem countsFit_countDelay (s : State) : CountsFit (countDelay s) ↔ CountsFit s := by
  simp [CountsFit]

@[simp] theorem fposWord_countDelay (s : State) : fposWord (countDelay s) = fposWord s := by
  simp [fposWord]

/-! ## The check -/

/-- The verifier ends alike after either end of the tokenizer. -/
theorem endTokens_verify (eoi : Bool) {s : State} (ho : s.op = opVerify) :
    endTokens eoi s = .next (endVerify s) := by
  rw [endTokens, if_pos ho]

theorem endVerify_of_ne {s : State} (h : s.total ≠ s.size) :
    endVerify s = raise .verifyLengthMismatch s.ip s.fpos s := if_pos h

theorem endVerify_of_eq {s : State} (h : s.total = s.size) : endVerify s = finish s.size s :=
  if_neg (not_not_intro h)

theorem endVerify_mismatch {s : State} (hfit : CountsFit s) (h : s.total ≠ s.size) :
    ErrorRecord (endVerify s) .verifyLengthMismatch (BitVec.ofNat 32 s.ip) (fposWord s)
      (BitVec.ofNat 32 s.total) := by
  rw [endVerify_of_ne h, ← offsetWord_fpos hfit (s.freeIx + 1)]
  obtain ⟨hip, -, htotal, -⟩ := hfit
  exact errorRecord_raise s.fpos (by omega) htotal

theorem endVerify_exact {s : State} (hsize : s.size < 4294967296) (h : s.total = s.size) :
    (endVerify s).st = .done ∧ (endVerify s).result = BitVec.ofNat 32 s.size ∧
      (endVerify s).out = s.out := by
  rw [endVerify_of_eq h]
  exact ⟨rfl, wide32_of_lt hsize, rfl⟩

/-- The token step that finds the declared size reached is the end check (40_tokenizer.md R128). -/
theorem step_sizeReached {s : State} (hturn : EngineTurn s) (hst : s.st = .busy .tokens)
    (hreached : s.size ≤ s.total) : step s = endTokens false (countDelay s) :=
  step_engine hturn (by simp [engine, hst, tokenStep, hreached])

/-! ## The obligation -/

/-- Settles O29: either end runs the length check, and so does the step that finds SIZE reached. -/
theorem verifierEndsOnExactLength : Obligations.VerifierEndsOnExactLength := by
  refine fun s ho hfit hsize => ⟨fun eoi => ?_, fun hturn hst hreached => ?_⟩
  · exact ⟨_, endTokens_verify eoi ho, endVerify_mismatch hfit, endVerify_exact hsize⟩
  · refine ⟨endVerify (countDelay s), ?_, fun hpassed => ?_, fun hexact => ?_⟩
    · rw [step_sizeReached hturn hst hreached, endTokens_verify false (by simpa using ho)]
    · have hne : s.total ≠ s.size := by omega
      simpa using endVerify_mismatch (s := countDelay s) (by simpa using hfit) (by simpa using hne)
    · simpa using endVerify_exact (s := countDelay s) (by simpa using hsize) (by simpa using hexact)

end Sys2Proof.Machine

/-! # Command words and abort (46_commands.md R260 to R265) -/

namespace Sys2Proof.Machine

/-! ## A word's opcode and OVL bit, as numbers -/

theorem toNat_opcode (w : Word) : (w.extractLsb' 0 4).toNat = w.toNat % 16 := by
  simp [BitVec.extractLsb'_toNat]

theorem toNat_ovlBit (w : Word) : (w.getLsbD 4).toNat = w.toNat / 16 % 2 := by
  rw [← BitVec.testBit_toNat, Nat.toNat_testBit]

theorem reservedBits_eq_zero_iff (w : Word) : w.extractLsb' 5 27 = 0#27 ↔ w.toNat / 32 = 0 := by
  rw [← BitVec.toNat_inj, BitVec.extractLsb'_toNat, Nat.shiftRight_eq_div_pow]
  have := w.isLt
  simp only [BitVec.toNat_ofNat]
  omega

/-! ## Legality, on the fields the decoder looks at -/

/-- An opcode that names a command (46_commands.md R261). -/
def CommandOpcode (op : BitVec 4) : Prop := 1 ≤ op.toNat ∧ op.toNat ≤ 7

theorem legalWord_iff (w : Word) :
    LegalWord w ↔ w.extractLsb' 5 27 = 0#27 ∧ CommandOpcode (w.extractLsb' 0 4) ∧
      (w.getLsbD 4 = false ∨ w.extractLsb' 0 4 = 2#4) := by
  have hovl : w.getLsbD 4 = false ↔ w.toNat / 16 % 2 = 0 := by
    rw [← toNat_ovlBit, Bool.toNat_eq_zero]
  have hraw10 : w.extractLsb' 0 4 = 2#4 ↔ w.toNat % 16 = 2 := by
    rw [← BitVec.toNat_inj, toNat_opcode]
    rfl
  rw [LegalWord, CommandOpcode, reservedBits_eq_zero_iff, hovl, hraw10, toNat_opcode, and_assoc]

theorem eq_of_commandOpcode {op : BitVec 4} (h : CommandOpcode op) :
    op = 1#4 ∨ op = 2#4 ∨ op = 3#4 ∨ op = 4#4 ∨ op = 5#4 ∨ op = 6#4 ∨ op = 7#4 := by
  revert op
  unfold CommandOpcode
  decide

theorem eq_of_not_commandOpcode {op : BitVec 4} (h : ¬ CommandOpcode op) :
    op = 0#4 ∨ op = 8#4 ∨ op = 9#4 ∨ op = 10#4 ∨ op = 11#4 ∨ op = 12#4 ∨ op = 13#4 ∨ op = 14#4 ∨
      op = 15#4 := by
  revert op
  unfold CommandOpcode
  decide

/-- OVL goes with no opcode but `DECODE_RAW10` (46_commands.md R261); the decoder tests for the
opposite. -/
theorem not_ovlMisused_iff {ovl : Bool} {op : BitVec 4} :
    ¬ (ovl = true ∧ op ≠ 2#4) ↔ ovl = false ∨ op = 2#4 := by
  cases ovl <;> simp

/-! ## Running an illegal word -/

/-- The nine opcodes that name no command (60_exceptions.md R297). -/
theorem exec_decodeOp_reserved (ovl : Bool) {op : BitVec 4} (h : ¬ CommandOpcode op) (s : State) :
    exec (decodeOp ovl op) s = issueIllegal op ovl s := by
  obtain rfl | rfl | rfl | rfl | rfl | rfl | rfl | rfl | rfl := eq_of_not_commandOpcode h <;> rfl

/-- A reserved bit, a misused OVL and a reserved opcode all lead to the same entry. -/
theorem exec_decodeCmd_illegal {w : Word} (h : ¬ LegalWord w) (s : State) :
    exec (decodeCmd w) s = issueIllegal (w.extractLsb' 0 4) (w.getLsbD 4) s := by
  rw [decodeCmd]
  split
  case isTrue hrsvd => rfl
  case isFalse hrsvd =>
    split
    case isTrue hovl =>
      rw [hovl.1]
      rfl
    case isFalse hovl =>
      refine exec_decodeOp_reserved _ (fun hop => h ?_) s
      exact (legalWord_iff w).2 ⟨not_not.1 hrsvd, hop, not_ovlMisused_iff.1 hovl⟩

theorem issueIllegal_of_not_busy (op : BitVec 4) (ovl : Bool) {s : State} (h : s.busy = false) :
    issueIllegal op ovl s = .next (raise .commandIllegal 0 none (commandInit op ovl s)) := by
  simp [issueIllegal, h]

/-! ## Running a legal word -/

/-- Where a legal command stands once its word is written: in a phase of the engine, or ended by
the capacity test of a raw decode (60_exceptions.md R296). -/
inductive Begun (op : BitVec 4) (ovl : Bool) (s : State) : State → Prop
  | running (p : Phase) : Begun op ovl s { commandInit op ovl s with st := .busy p }
  | full : Begun op ovl s (raise .formatCapacity 0 none (commandInit op ovl s))

/-- What `Decode` clears at its start `CommandInit` has cleared already. -/
theorem begun_startDecode (op : BitVec 4) (ovl : Bool) (s : State) :
    Begun op ovl s (startDecode (commandInit op ovl s)) := by
  obtain ⟨-, h⟩ | ⟨-, h⟩ := startDecode_spec (commandInit op ovl s)
  · rw [h]
    exact .running .tokens
  · rw [h]
    exact .full

theorem exec_decodeOp_command {ovl : Bool} {op : BitVec 4} (hop : CommandOpcode op)
    (hovl : ovl = false ∨ op = 2#4) {s : State} (h : s.busy = false) :
    ∃ t, exec (decodeOp ovl op) s = .next t ∧ Begun op ovl s t := by
  by_cases hraw10 : op = 2#4
  · subst hraw10
    exact ⟨_, issue_of_not_busy _ ovl startDecode h, begun_startDecode _ ovl s⟩
  obtain rfl : ovl = false := hovl.resolve_right hraw10
  obtain rfl | rfl | rfl | rfl | rfl | rfl | rfl := eq_of_commandOpcode hop
  · exact ⟨_, issue_of_not_busy _ _ awaitHeader h, .running .header⟩
  · exact absurd rfl hraw10
  · exact ⟨_, issue_of_not_busy _ _ startDecode h, begun_startDecode _ _ s⟩
  · exact ⟨_, issue_of_not_busy _ _ awaitInput h, .running .gather⟩
  · exact ⟨_, issue_of_not_busy _ _ awaitInput h, .running .gather⟩
  · exact ⟨_, issue_of_not_busy _ _ awaitInput h, .running .gather⟩
  · exact ⟨_, issue_of_not_busy _ _ awaitHeader h, .running .header⟩

theorem exec_decodeCmd_legal {w : Word} (hlegal : LegalWord w) {s : State} (h : s.busy = false) :
    ∃ t, exec (decodeCmd w) s = .next t ∧ Begun (w.extractLsb' 0 4) (w.getLsbD 4) s t := by
  obtain ⟨hrsvd, hop, hovl⟩ := (legalWord_iff w).1 hlegal
  rw [decodeCmd, if_neg (not_not.2 hrsvd), if_neg (not_ovlMisused_iff.2 hovl)]
  exact exec_decodeOp_command hop hovl h

/-! ## What `CommandInit` leaves, and what the command's start keeps of it -/

theorem freshCommand_commandInit (op : BitVec 4) (ovl : Bool) (s : State) :
    FreshCommand op ovl s (commandInit op ovl s) where
  opcode := rfl
  overlayMode := rfl
  format := rfl
  extra := rfl
  declared := rfl
  token := ⟨rfl, rfl, rfl, rfl, rfl⟩
  buffers := ⟨rfl, rfl, rfl⟩
  encoder := ⟨rfl, rfl, rfl, rfl⟩
  overlay := ⟨rfl, rfl, rfl, rfl, rfl⟩
  stream := rfl
  kept := ⟨rfl, rfl, rfl⟩
  host := ⟨rfl, rfl, rfl, rfl⟩

/-- STATE is no part of what a command starts from. -/
theorem freshCommand_withSt {op : BitVec 4} {ovl : Bool} {s t : State} (st : RunState)
    (h : FreshCommand op ovl s t) : FreshCommand op ovl s { t with st := st } :=
  { h with }

/-- The error entry writes the host's registers and empties OUT and the port, nothing else. -/
theorem freshCommand_raise {op : BitVec 4} {ovl : Bool} {s t : State} (e : ErrCode) (off : Nat)
    (foff : Option Nat) (h : FreshCommand op ovl s t) :
    FreshCommand op ovl s (raise e off foff t) :=
  { h with
    buffers := ⟨h.buffers.1, rfl, h.buffers.2.2⟩
    stream := rfl }

theorem cleanRegisters_commandInit (op : BitVec 4) (ovl : Bool) (s : State) (st : RunState) :
    CleanRegisters { commandInit op ovl s with st := st } := ⟨rfl, rfl, rfl, rfl, rfl⟩

theorem freshCommand_of_begun {op : BitVec 4} {ovl : Bool} {s t : State} (h : Begun op ovl s t) :
    FreshCommand op ovl s t := by
  cases h with
  | running p => exact freshCommand_withSt _ (freshCommand_commandInit op ovl s)
  | full => exact freshCommand_raise _ _ _ (freshCommand_commandInit op ovl s)

theorem cleanRegisters_of_begun {op : BitVec 4} {ovl : Bool} {s t : State} (h : Begun op ovl s t)
    (hst : t.st ≠ .error) : CleanRegisters t := by
  cases h with
  | running p => exact cleanRegisters_commandInit op ovl s _
  | full => exact absurd rfl hst

theorem errKind_ne_illegal_of_begun {op : BitVec 4} {ovl : Bool} {s t : State}
    (h : Begun op ovl s t) : t.errKind ≠ ErrCode.commandIllegal.kind := by
  cases h with
  | running p => exact (by decide : (0 : BitVec 4) ≠ ErrCode.commandIllegal.kind)
  | full => exact (by decide : ErrCode.formatCapacity.kind ≠ ErrCode.commandIllegal.kind)

/-! ## Writes to CTRL -/

theorem hostAct_writeCtrl (s : State) (v : Word) :
    hostAct (.writeReg 0x04 4 v) s =
      .next (if v.getLsbD 0 = true ∧ s.busy = true then abort s else s) :=
  hostAct_writeReg s v rfl (by decide)

theorem hostAct_abort {s : State} {v : Word} (hbusy : s.busy = true) (hv : v.getLsbD 0 = true) :
    hostAct (.writeReg 0x04 4 v) s = .next (abort s) := by
  rw [hostAct_writeCtrl, if_pos ⟨hv, hbusy⟩]

theorem hostAct_writeCtrl_ignored {s : State} {v : Word}
    (h : s.busy = false ∨ v.getLsbD 0 = false) : hostAct (.writeReg 0x04 4 v) s = .next s := by
  rw [hostAct_writeCtrl, if_neg]
  rintro ⟨hv, hbusy⟩
  rcases h with hidle | hclear
  · exact Bool.false_ne_true (hidle.symm.trans hbusy)
  · exact Bool.false_ne_true (hclear.symm.trans hv)

/-! ## The obligations -/

/-- Settles O10: an illegal word takes the error entry; a legal one runs, or records
FORMAT.CAPACITY. -/
theorem illegalWordsEndInError : Obligations.IllegalWordsEndInError := by
  intro s w hidle
  by_cases hlegal : LegalWord w
  · obtain ⟨t, ht, hbegun⟩ := exec_decodeCmd_legal hlegal hidle
    exact ⟨t, ht, fun h => absurd hlegal h,
      fun _ ⟨hkind, _⟩ => errKind_ne_illegal_of_begun hbegun hkind⟩
  · exact ⟨_, (exec_decodeCmd_illegal hlegal s).trans (issueIllegal_of_not_busy _ _ hidle),
      fun _ => errorRecord_raise_countless (by decide) rfl, fun h => absurd h hlegal⟩

/-- Settles O12: both kinds of word start from `CommandInit`, and the registers are clean unless an
error was raised on it. -/
theorem everyCommandStartsFresh : Obligations.EveryCommandStartsFresh := by
  intro s w hidle
  by_cases hlegal : LegalWord w
  · obtain ⟨t, ht, hbegun⟩ := exec_decodeCmd_legal hlegal hidle
    exact ⟨t, ht, freshCommand_of_begun hbegun, cleanRegisters_of_begun hbegun⟩
  · exact ⟨_, (exec_decodeCmd_illegal hlegal s).trans (issueIllegal_of_not_busy _ _ hidle),
      freshCommand_raise _ _ _ (freshCommand_commandInit _ _ s), fun hst => absurd rfl hst⟩

/-- Settles O7: the write is `abort` on a running command and nothing otherwise. -/
theorem abortEndsRunningCommand : Obligations.AbortEndsRunningCommand := by
  refine fun s v => ⟨fun hbusy hv => ?_, hostAct_writeCtrl_ignored⟩
  exact ⟨abort s, hostAct_abort hbusy hv, rfl, rfl, rfl, rfl, rfl, rfl, rfl, rfl, rfl⟩

end Sys2Proof.Machine

/-! # The records of stream errors (60_exceptions.md R299) -/

namespace Sys2Proof.Machine

/-- An error whose code depends on whether VERIFY runs, told apart by the command. -/
theorem errorRecord_byCommand {op : BitVec 4} {verify other : ErrCode} {t : State}
    {off foff res : Word}
    (h : ErrorRecord t (if op = opVerify then verify else other) off foff res) :
    (op = opVerify → ErrorRecord t verify off foff res) ∧
      (op ≠ opVerify → ErrorRecord t other off foff res) :=
  ⟨fun ho => by rwa [if_pos ho] at h, fun ho => by rwa [if_neg ho] at h⟩

/-- An error of the token stream, raised where FPOS and TOTAL still are those of `s`, whose counts
fit: it records both. -/
theorem errorRecord_raise_counted {e : ErrCode} {off : Nat} {s t : State} (hfit : CountsFit s)
    (hfpos : t.fpos = s.fpos) (htotal : t.total = s.total) (hoff : off < 4294967296)
    (hres : e.resultAt s.total off = s.total) :
    ErrorRecord (raise e off t.fpos t) e (BitVec.ofNat 32 off) (fposWord s)
      (BitVec.ofNat 32 s.total) := by
  have hcount : e.resultAt t.total off = s.total := htotal ▸ hres
  rw [← offsetWord_fpos hfit (t.freeIx + 1), ← hfpos, ← hcount]
  obtain ⟨-, -, htotalFits, -⟩ := hfit
  exact errorRecord_raise t.fpos hoff (by omega)

end Sys2Proof.Machine

/-! # Headers that start no command (60_exceptions.md R291 to R294, R296) -/

namespace Sys2Proof.Machine

/-! ## Decoding -/

theorem decode_header_badTag {tag : Byte} (h10 : tag ≠ 0x10#8) (h11 : tag ≠ 0x11#8)
    (b1 b2 b3 : Byte) (rest : List Byte) :
    decode .header (tag :: b1 :: b2 :: b3 :: rest) = .error (.badTag tag) := by
  rw [decode, decodeHeader, if_neg h10, if_neg h11]

theorem decode_header_short {bs : List Byte} (h : bs.length < 4) :
    decode .header bs = .error .short := by
  match bs with
  | [] | [_] | [_, _] | [_, _, _] => rfl
  | _ :: _ :: _ :: _ :: _ =>
    simp only [List.length_cons] at h
    omega

/-! ## The header step, by what is wrong -/

@[simp] theorem badTagCode_countDelay (s : State) : badTagCode (countDelay s) = badTagCode s := by
  simp [badTagCode]

@[simp] theorem shortHeaderCode_countDelay (s : State) :
    shortHeaderCode (countDelay s) = shortHeaderCode s := by
  simp [shortHeaderCode]

theorem resultAt_badTagCode (s : State) (total off : Nat) :
    (badTagCode s).resultAt total off = 0 := by
  unfold badTagCode
  split <;> rfl

theorem resultAt_shortHeaderCode (s : State) (total off : Nat) :
    (shortHeaderCode s).resultAt total off = 0 := by
  unfold shortHeaderCode
  split <;> rfl

theorem headerStep_badTag {s : State} {tag : Byte}
    (hd : decode .header s.view.bytes = .error (.badTag tag)) :
    headerStep s = some (.next (raise (badTagCode s) 0 none (consume headerLen s))) := by
  simp only [headerStep, hd]

theorem headerStep_eoi {s : State} (hd : decode .header s.view.bytes = .error .short)
    (hstop : s.view.stop = .eoi) :
    headerStep s =
      some (.next (raise (shortHeaderCode s) 0 none (consume s.view.bytes.length s))) := by
  simp only [headerStep, hd, hstop]

theorem headerStep_full {s : State} (hd : decode .header s.view.bytes = .error .short)
    (hstop : s.view.stop = .full) :
    headerStep s =
      some (.next (raise .formatCapacity 0 none (consume s.view.bytes.length s))) := by
  simp only [headerStep, hd, hstop]

theorem step_header {s : State} {o : Out} (hturn : EngineTurn s) (hst : s.st = .busy .header)
    (h : headerStep (countDelay s) = some o) : step s = o :=
  step_engine hturn (by simp [engine, hst, h])

/-! ## The obligation -/

/-- Settles O16: each clause by the equation of the header step for its bytes and stop. -/
theorem badHeadersAreReported : Obligations.BadHeadersAreReported := by
  refine fun s hturn hst => ⟨fun tag b1 b2 b3 rest hbytes h10 h11 => ?_,
    fun hshort hstop => ?_, fun hshort hstop _ => ?_⟩
  · refine ⟨_, step_header hturn hst (headerStep_badTag (tag := tag) ?_), ?_⟩
    · rw [view_countDelay, hbytes, decode_header_badTag h10 h11]
    · rw [badTagCode_countDelay]
      exact errorRecord_byCommand
        (errorRecord_raise_countless (by decide) (resultAt_badTagCode s _ _))
  · refine ⟨_, step_header hturn hst (headerStep_eoi ?_ (by simpa using hstop)), ?_⟩
    · rw [view_countDelay, decode_header_short hshort]
    · rw [shortHeaderCode_countDelay]
      exact errorRecord_byCommand
        (errorRecord_raise_countless (by decide) (resultAt_shortHeaderCode s _ _))
  · refine ⟨_, step_header hturn hst (headerStep_full ?_ (by simpa using hstop)),
      errorRecord_raise_countless (by decide) rfl⟩
    rw [view_countDelay, decode_header_short hshort]

end Sys2Proof.Machine

/-! # Matches a consumer rejects (60_exceptions.md R283, R284, R288, R289) -/

namespace Sys2Proof.Machine

/-! ## The four match forms -/

theorem tokenInstr_of_matchOf {s : State} {i : Instr} {len disp : Nat}
    (h : matchOf s i = some (len, disp)) :
    ∃ n, TokenInstr s.dispExtra i (.matchRef len disp) n := by
  cases i with
  | m10 l d => cases h; exact ⟨_, .m10 l d⟩
  | m11s i d => cases h; exact ⟨_, .m11s i d⟩
  | m11e8 n d => cases h; exact ⟨_, .m11e8 n d⟩
  | m11e16 n d => cases h; exact ⟨_, .m11e16 n d⟩
  | _ => cases h

/-- A match form takes its bytes and emits its match. -/
theorem exec_of_matchOf {s : State} {i : Instr} {len disp : Nat}
    (h : matchOf s i = some (len, disp)) :
    ∃ n, exec i s = emit (.matchRef len disp) (consume n s) := by
  obtain ⟨n, hi⟩ := tokenInstr_of_matchOf h
  exact ⟨n, exec_token hi⟩

/-- Every match form adds at least one to its displacement field (30_encoding.md R84 to R87). -/
theorem disp_pos_of_matchOf {s : State} {i : Instr} {len disp : Nat}
    (h : matchOf s i = some (len, disp)) (hextra : 1 ≤ s.dispExtra) : 1 ≤ disp := by
  obtain ⟨n, hi⟩ := tokenInstr_of_matchOf h
  cases hi with
  | m10 l d => omega
  | m11s i d => omega
  | m11e8 n d => omega
  | m11e16 n d => omega

/-- The record of an error at a token, whose bytes have been taken. -/
theorem errorRecord_raise_atToken {e : ErrCode} {s : State} (n : Nat) (hfit : CountsFit s)
    (hres : e.resultAt s.total s.tpos = s.total) :
    ErrorRecord (raise e s.tpos s.fpos (consume n s)) e (BitVec.ofNat 32 s.tpos) (fposWord s)
      (BitVec.ofNat 32 s.total) := by
  refine errorRecord_raise_counted (t := consume n s) hfit rfl rfl ?_ hres
  obtain ⟨-, htpos, -, -⟩ := hfit
  exact htpos

/-! ## The obligations -/

/-- Settles O22: the decoder's two tests, in their order. -/
theorem decodeMatchErrors : Obligations.DecodeMatchErrors := by
  intro s i len disp hmatch ho hfit
  obtain ⟨n, hexec⟩ := exec_of_matchOf hmatch
  rw [hexec]
  refine ⟨fun hrange => ?_, fun hpos hreach hpast => ?_⟩
  · exact ⟨_, emit_decode_range (s := consume n s) ho hrange,
      errorRecord_raise_atToken n hfit rfl⟩
  · exact ⟨_, emit_decode_overrun (s := consume n s) ho hpos hreach hpast,
      errorRecord_raise_atToken n hfit rfl⟩

/-- Settles O23: the formats' positive displacement, then the verifier's two tests. -/
theorem verifyMatchErrors : Obligations.VerifyMatchErrors := by
  intro s i len disp hmatch ho hfit
  obtain ⟨n, hexec⟩ := exec_of_matchOf hmatch
  rw [hexec]
  refine ⟨disp_pos_of_matchOf hmatch, fun hzero => ?_, fun hpos hbefore => ?_⟩
  · exact ⟨_, emit_verify_nonpositive (s := consume n s) ho hzero,
      errorRecord_raise_atToken n hfit rfl⟩
  · exact ⟨_, emit_verify_before (s := consume n s) ho hpos hbefore,
      errorRecord_raise_atToken n hfit rfl⟩

end Sys2Proof.Machine

/-! # Input that ends before SIZE (40_tokenizer.md R129, 60_exceptions.md R282, R296) -/

namespace Sys2Proof.Machine

/-! ## Fragments -/

/-- What is no whole flag byte or token is shorter than the longest token. -/
theorem length_of_decode_tokenSlot_error {s : State} {bs : List Byte} {e : DecodeError}
    (h : decode s.tokenSlot bs = .error e) : bs.length < 4 := by
  match bs with
  | [] | [_] | [_, _] | [_, _, _] => simp
  | b0 :: b1 :: b2 :: b3 :: rest =>
    unfold State.tokenSlot at h
    split_ifs at h
    · cases h
    · cases h
    · cases hv : s.variant <;> rw [hv] at h
      · cases h
      · simp only [decode, decodeMatch11] at h
        split_ifs at h <;> cases h

theorem runUnit_eoi {slot : Slot} {s : State} {e : DecodeError}
    (hd : decode slot s.view.bytes = .error e) (hstop : s.view.stop = .eoi) :
    runUnit slot s = some (endTokens true (consume s.view.bytes.length s)) := by
  simp only [runUnit, hd, hstop]

theorem runUnit_full {slot : Slot} {s : State} {e : DecodeError}
    (hd : decode slot s.view.bytes = .error e) (hstop : s.view.stop = .full) :
    runUnit slot s =
      some (.next (raise .formatCapacity 0 none (consume s.view.bytes.length s))) := by
  simp only [runUnit, hd, hstop]

/-! ## The state a unit is read in -/

/-- `u` stands where `s` does in the stream and in the output, with the same input to read. -/
structure SamePlace (s u : State) : Prop where
  op : u.op = s.op
  ip : u.ip = s.ip
  fpos : u.fpos = s.fpos
  total : u.total = s.total
  size : u.size = s.size
  view : u.view = s.view

theorem samePlace_countDelay (s : State) : SamePlace s (countDelay s) := by
  constructor <;> simp

theorem samePlace_takeFlagBit (s : State) : SamePlace s (takeFlagBit (countDelay s)) := by
  constructor <;> simp

/-- A token step before SIZE runs one unit, after taking a flag bit where there is one
(40_tokenizer.md R121). -/
theorem step_tokens {s : State} (hturn : EngineTurn s) (hst : s.st = .busy .tokens)
    (hbefore : s.total < s.size) :
    ∃ u, SamePlace s u ∧ ∀ o, runUnit s.tokenSlot u = some o → step s = o := by
  have hnotReached : ¬ s.size ≤ s.total := by omega
  by_cases hf : s.fcnt = 0
  · refine ⟨_, samePlace_countDelay s, fun o h => step_engine hturn ?_⟩
    rw [State.tokenSlot, if_pos hf] at h
    simp [engine, hst, tokenStep, hnotReached, hf, h]
  · refine ⟨_, samePlace_takeFlagBit s, fun o h => step_engine hturn ?_⟩
    have hslot : (countDelay s).tokenSlot = s.tokenSlot := by simp [State.tokenSlot]
    simp [engine, hst, tokenStep, hnotReached, hf, hslot, h]

/-! ## END(EOI) -/

/-- The error of an input that ends before SIZE, by the command (41_decoder.md R154, 45_verifier.md
R243). -/
def endOfInputCode (op : BitVec 4) : ErrCode :=
  if op = opVerify then .verifyLengthMismatch else .decodeShortStream

theorem resultAt_endOfInputCode (op : BitVec 4) (total off : Nat) :
    (endOfInputCode op).resultAt total off = total := by
  unfold endOfInputCode
  split <;> rfl

theorem endTokens_eoi {s : State} (h : s.total ≠ s.size) :
    endTokens true s = .next (raise (endOfInputCode s.op) s.ip s.fpos s) := by
  unfold endOfInputCode
  by_cases ho : s.op = opVerify
  · rw [endTokens_verify true ho, endVerify_of_ne h, if_pos ho]
  · rw [endTokens, if_neg ho, if_neg ho, endDecode, if_pos rfl]

/-! ## The obligation -/

/-- Settles O28: the step runs no unit, and the stop says which error ends the command. -/
theorem inputEndsBeforeSize : Obligations.InputEndsBeforeSize := by
  intro s e hturn hst hbefore hdecode
  obtain ⟨u, hu, hstep⟩ := step_tokens hturn hst hbefore
  rw [← hu.view] at hdecode
  refine ⟨fun hstop hfit => ?_, fun hstop _ => ?_⟩
  · rw [← hu.view] at hstop ⊢
    have hlength := length_of_decode_tokenSlot_error hdecode
    have hoff : s.ip + u.view.bytes.length < 4294967296 := by
      obtain ⟨hip, -, -, -⟩ := hfit
      omega
    have hne : u.total ≠ u.size := by rw [hu.total, hu.size]; omega
    have hrecord := errorRecord_raise_counted (t := consume u.view.bytes.length u) hfit hu.fpos
      hu.total hoff (resultAt_endOfInputCode s.op _ _)
    refine ⟨_, (hstep _ (runUnit_eoi hdecode hstop)).trans
      (endTokens_eoi (s := consume u.view.bytes.length u) hne), ?_, hu.total, ?_⟩
    · rw [raise_ip, consume_ip, hu.ip]
    · rw [consume_op, consume_ip, hu.op, hu.ip]
      exact (errorRecord_byCommand hrecord).symm
  · rw [← hu.view] at hstop
    exact ⟨_, hstep _ (runUnit_full hdecode hstop), errorRecord_raise_countless (by decide) rfl⟩

end Sys2Proof.Machine

/-! # What one step can change (46_commands.md R270) -/

namespace Sys2Proof.Machine

/-! ## Frames of the shared operations -/

/-- A token's consumer touches OUT and TOTAL, and an error entry the host's registers and the
port. -/
theorem Emitted.frame {tok : Token} {s t : State} (h : Emitted tok s t) :
    t = { s with
      st := t.st, errKind := t.errKind, errSub := t.errSub, erroff := t.erroff,
      errfoff := t.errfoff, result := t.result, total := t.total, out := t.out,
      inPort := t.inPort, freeIx := t.freeIx } := by
  cases h <;> rfl

/-- END touches the same registers. -/
theorem Ended.frame {eoi : Bool} {s t : State} (h : Ended eoi s t) :
    t = { s with
      st := t.st, errKind := t.errKind, errSub := t.errSub, erroff := t.erroff,
      errfoff := t.errfoff, result := t.result, total := t.total, out := t.out,
      inPort := t.inPort, freeIx := t.freeIx } := by
  cases h <;> rfl

/-- The first lines of `Decode` touch them too, and FCNT and FPOS. -/
theorem startDecode_frame (s : State) :
    startDecode s = { s with
      st := (startDecode s).st, errKind := (startDecode s).errKind,
      errSub := (startDecode s).errSub, erroff := (startDecode s).erroff,
      errfoff := (startDecode s).errfoff, result := (startDecode s).result, total := 0, out := [],
      fcnt := 0, fpos := none, inPort := (startDecode s).inPort,
      freeIx := (startDecode s).freeIx } := by
  obtain ⟨-, h⟩ | ⟨-, h⟩ := startDecode_spec s
  · rw [h]
  · rw [h]
    rfl

/-- A flush touches OUT and the chunk. -/
theorem flushIfFull_eq {s t : State} (h : flushIfFull s = .ok t) :
    t = { s with out := t.out, chunk := t.chunk, ccnt := t.ccnt } := by
  obtain ⟨-, rfl⟩ | ⟨-, bs, rfl⟩ := flushIfFull_frame h <;> rfl

theorem flushChunk_eq {s t : State} (h : flushChunk s = .ok t) :
    t = { s with out := t.out, chunk := t.chunk, ccnt := t.ccnt } := by
  obtain ⟨-, rfl⟩ | ⟨-, bs, rfl⟩ := flushChunk_frame h <;> rfl

/-! ## Invariants, by the agent that moves -/

/-- An invariant that the host's moves and the engine's moves keep, and that says nothing of the
host's queue, is kept by every step. -/
theorem step_keeps {P : State → Prop} (hqueue : ∀ {s : State} (q : List HostTurn), P s →
      P { s with hostQ := q }) (hhost : ∀ {s t : State}, P s → HostMove s t → P t)
    (hengine : ∀ {s t : State}, P s → EngineMove s t → P t) {s t : State} (hs : P s)
    (h : step s = .next t) : P t := by
  obtain ⟨q, hm⟩ | ⟨q, hm⟩ | rfl := step_cases h
  · exact hhost (hqueue q hs) hm
  · exact hengine (hqueue q hs) hm
  · exact hs

/-! ## Where a command stands after a move of the engine -/

/-- The registers the host reads an error or a result from. -/
structure SameRecord (s t : State) : Prop where
  kind : t.errKind = s.errKind
  sub : t.errSub = s.errSub
  offset : t.erroff = s.erroff
  flagOffset : t.errfoff = s.errfoff
  count : t.result = s.result

/-- An engine's move ends the command in an error or as DONE, or leaves it running with no error and
no result on record. -/
inductive MoveEnd (s : State) : State → Prop
  | raised (e : ErrCode) (off : Nat) (foff : Option Nat) (u : State) :
      MoveEnd s (raise e off foff u)
  | finished (n : Nat) (u : State) (h : SameRecord s u) : MoveEnd s (finish n u)
  | running {t : State} (p : Phase) (hp : t.st = .busy p) (h : SameRecord s t) : MoveEnd s t

theorem moveEnd_of_ended {eoi : Bool} {s u t : State} (hu : SameRecord s u) (h : Ended eoi u t) :
    MoveEnd s t := by
  obtain ⟨hkind, hsub, hoff, hfoff, hcount⟩ := hu
  cases h with
  | failed e => exact .raised _ _ _ _
  | verified _ _ => exact .finished _ _ ⟨hkind, hsub, hoff, hfoff, hcount⟩
  | spliced _ _ => exact .finished _ _ ⟨hkind, hsub, hoff, hfoff, hcount⟩
  | decoded _ _ _ => exact .finished _ _ ⟨hkind, hsub, hoff, hfoff, hcount⟩

theorem moveEnd_of_emitted {tok : Token} {s u t : State} (hst : u.st = .busy .tokens)
    (hu : SameRecord s u) (h : Emitted tok u t) : MoveEnd s t := by
  obtain ⟨hkind, hsub, hoff, hfoff, hcount⟩ := hu
  cases h with
  | failed e => exact .raised _ _ _ _
  | literal _ _ _ => exact .running _ hst ⟨hkind, hsub, hoff, hfoff, hcount⟩
  | copied _ _ _ _ _ _ _ _ _ => exact .running _ hst ⟨hkind, hsub, hoff, hfoff, hcount⟩
  | counted _ => exact .running _ hst ⟨hkind, hsub, hoff, hfoff, hcount⟩

theorem moveEnd_startDecode {s u : State} (hu : SameRecord s u) : MoveEnd s (startDecode u) := by
  obtain ⟨hkind, hsub, hoff, hfoff, hcount⟩ := hu
  obtain ⟨-, h⟩ | ⟨-, h⟩ := startDecode_spec u <;> rw [h]
  · exact .running .tokens rfl ⟨hkind, hsub, hoff, hfoff, hcount⟩
  · exact .raised _ _ _ _

theorem engineMove_end {s t : State} (h : EngineMove s t) : MoveEnd s t := by
  cases h with
  | headerVerify _ _ _ _ => exact .running .tokens rfl ⟨rfl, rfl, rfl, rfl, rfl⟩
  | headerDecode _ _ _ _ => exact moveEnd_startDecode ⟨rfl, rfl, rfl, rfl, rfl⟩
  | gatherByte _ h => exact .running _ h ⟨rfl, rfl, rfl, rfl, rfl⟩
  | encodeStarts _ _ => exact .running .search rfl ⟨rfl, rfl, rfl, rfl, rfl⟩
  | gathered _ _ => exact .running .trailer rfl ⟨rfl, rfl, rfl, rfl, rfl⟩
  | trailerStarts _ _ _ _ _ _ => exact .running .tokens rfl ⟨rfl, rfl, rfl, rfl, rfl⟩
  | ends _ _ ht => exact moveEnd_of_ended ⟨rfl, rfl, rfl, rfl, rfl⟩ ht
  | flagByte _ h _ _ => exact .running _ h ⟨rfl, rfl, rfl, rfl, rfl⟩
  | token _ _ n h _ _ _ ht =>
    exact moveEnd_of_emitted (u := consume n (takeFlagBit s)) h ⟨rfl, rfl, rfl, rfl, rfl⟩ ht
  | flagEnds n _ _ _ ht => exact moveEnd_of_ended (u := consume n s) ⟨rfl, rfl, rfl, rfl, rfl⟩ ht
  | tokenEnds n _ _ _ ht =>
    exact moveEnd_of_ended (u := consume n (takeFlagBit s)) ⟨rfl, rfl, rfl, rfl, rfl⟩ ht
  | searched _ s1 h _ hp =>
    rw [flushIfFull_eq hp]
    exact .running _ h ⟨rfl, rfl, rfl, rfl, rfl⟩
  | flushed s1 _ _ hp =>
    rw [flushChunk_eq hp]
    exact .running .pad rfl ⟨rfl, rfl, rfl, rfl, rfl⟩
  | padded _ => exact .running .finish rfl ⟨rfl, rfl, rfl, rfl, rfl⟩
  | finished _ => exact .finished _ _ ⟨rfl, rfl, rfl, rfl, rfl⟩
  | _ => exact .raised _ _ _ _

/-- The engine moves while a command runs. -/
theorem engineMove_busy {s t : State} (h : EngineMove s t) : s.busy = true := by
  cases h <;> exact busy_of_st ‹_›

end Sys2Proof.Machine

/-! # No step faults -/

namespace Sys2Proof.Machine

/-- Settles O54: a move of the engine is a next state, and the host's action is one or is
refused. -/
theorem noStepFaults : Obligations.NoStepFaults := by
  intro s r h
  unfold step stepOnce at h
  split at h
  · next a s' _ =>
    obtain ⟨t, ht, -⟩ | ⟨r', hr⟩ := hostAct_move a s'
    · rw [ht] at h
      cases h
    · rw [hr] at h
      cases h
  · split at h
    · next o ho =>
      obtain ⟨t, rfl, -⟩ := engine_move ho
      cases h
    · cases h

end Sys2Proof.Machine

/-! # The host's registers agree with STATE (10_state.md R34 to R37) -/

namespace Sys2Proof.Machine

theorem registersAgree_raise (e : ErrCode) (off : Nat) (foff : Option Nat) (s : State) :
    RegistersAgree (raise e off foff s) where
  noError h := absurd rfl h
  listedError _ := ⟨e, rfl, rfl⟩
  noResult h := by simp [raise_busy] at h
  noOutput _ := rfl
  portClosed _ := rfl

/-- A running command needs its registers clean. -/
theorem registersAgree_running {t : State} {p : Phase} (hst : t.st = .busy p)
    (hregs : t.errKind = 0 ∧ t.errSub = 0 ∧ t.erroff = 0 ∧ t.errfoff = noneWord)
    (hresult : t.result = 0) : RegistersAgree t where
  noError _ := hregs
  listedError h := by simp [hst] at h
  noResult _ := hresult
  noOutput h := by simp [hst] at h
  portClosed h := by simp [busy_of_st hst] at h

theorem registersAgree_commanded {s t : State} (hs : RegistersAgree s) (h : Commanded s t) :
    RegistersAgree t := by
  cases h with
  | ignored _ => exact hs
  | illegal op ovl _ => exact registersAgree_raise _ _ _ _
  | raw op ovl _ _ =>
    obtain ⟨-, h⟩ | ⟨-, h⟩ := startDecode_spec (commandInit op ovl s) <;> rw [h]
    · exact registersAgree_running rfl ⟨rfl, rfl, rfl, rfl⟩ rfl
    · exact registersAgree_raise _ _ _ _
  | framed op _ _ => exact registersAgree_running rfl ⟨rfl, rfl, rfl, rfl⟩ rfl
  | whole op _ _ => exact registersAgree_running rfl ⟨rfl, rfl, rfl, rfl⟩ rfl

theorem registersAgree_hostMove {s t : State} (hs : RegistersAgree s) (h : HostMove s t) :
    RegistersAgree t := by
  cases h with
  | commanded h => exact registersAgree_commanded hs h
  | aborted _ =>
    exact ⟨fun _ => ⟨rfl, rfl, rfl, rfl⟩, nofun, fun _ => rfl, fun _ => rfl, fun _ => rfl⟩
  | sized r _ => exact { hs with }
  | nothing => exact hs
  | read w => exact { hs with }
  | offered a hbusy =>
    obtain ⟨p, hp⟩ := busy_iff.1 hbusy
    exact registersAgree_running (p := p) hp (hs.noError (by simp [hp])) (hs.noResult (.inr hbusy))
  | readOut bs => exact { hs with }
  | reset =>
    exact ⟨fun _ => ⟨rfl, rfl, rfl, rfl⟩, nofun, fun _ => rfl, fun _ => rfl, fun _ => rfl⟩

theorem registersAgree_engineMove {s t : State} (hs : RegistersAgree s) (h : EngineMove s t) :
    RegistersAgree t := by
  have hbusy := engineMove_busy h
  obtain ⟨p, hp⟩ := busy_iff.1 hbusy
  obtain ⟨hkind, hsub, hoff, hfoff⟩ := hs.noError (by simp [hp])
  cases engineMove_end h with
  | raised e off foff u => exact registersAgree_raise _ _ _ _
  | finished n u hu =>
    exact ⟨fun _ => ⟨hu.kind.trans hkind, hu.sub.trans hsub, hu.offset.trans hoff,
      hu.flagOffset.trans hfoff⟩, nofun, by simp [State.busy], by simp, fun _ => rfl⟩
  | running p' hp' ht =>
    exact registersAgree_running hp' ⟨ht.kind.trans hkind, ht.sub.trans hsub, ht.offset.trans hoff,
      ht.flagOffset.trans hfoff⟩ (ht.count.trans (hs.noResult (.inr hbusy)))

/-- Settles O47: by how each move of the engine ends, and by the host's moves. -/
theorem stepKeepsRegistersAgree : Obligations.StepKeepsRegistersAgree :=
  fun _ _ => step_keeps (fun _ h => { h with }) registersAgree_hostMove registersAgree_engineMove

end Sys2Proof.Machine

/-! # The parameters and RAWSIZE (00_scope.md R7, 10_state.md R33) -/

namespace Sys2Proof.Machine

/-- What the engine never touches: the parameters, RAWSIZE, and what is the host's. -/
structure SameHost (s t : State) : Prop where
  config : t.config = s.config
  rawsize : t.rawsize = s.rawsize
  data : t.hostData = s.hostData
  bytes : t.hostBytes = s.hostBytes
  queue : t.hostQ = s.hostQ

theorem Ended.sameHost {eoi : Bool} {s t : State} (h : Ended eoi s t) : SameHost s t := by
  cases h <;> exact ⟨rfl, rfl, rfl, rfl, rfl⟩

theorem Emitted.sameHost {tok : Token} {s t : State} (h : Emitted tok s t) : SameHost s t := by
  cases h <;> exact ⟨rfl, rfl, rfl, rfl, rfl⟩

theorem startDecode_sameHost (s : State) : SameHost s (startDecode s) := by
  rw [startDecode_frame]
  exact ⟨rfl, rfl, rfl, rfl, rfl⟩

theorem engineMove_sameHost {s t : State} (h : EngineMove s t) : SameHost s t := by
  cases h with
  | headerDecode v size _ _ => exact { startDecode_sameHost (headerState v size s) with }
  | ends _ _ ht => exact ht.sameHost
  | token _ _ n _ _ _ _ ht => exact { ht.sameHost with }
  | flagEnds n _ _ _ ht => exact { ht.sameHost with }
  | tokenEnds n _ _ _ ht => exact { ht.sameHost with }
  | searched _ s1 _ _ hp =>
    rw [flushIfFull_eq hp]
    exact ⟨rfl, rfl, rfl, rfl, rfl⟩
  | flushed s1 _ _ hp =>
    rw [flushChunk_eq hp]
    exact ⟨rfl, rfl, rfl, rfl, rfl⟩
  | _ => exact ⟨rfl, rfl, rfl, rfl, rfl⟩

theorem commanded_config_rawsize {s t : State} (h : Commanded s t) :
    t.config = s.config ∧ t.rawsize = s.rawsize := by
  cases h with
  | raw op ovl _ _ =>
    have h := startDecode_sameHost (commandInit op ovl s)
    exact ⟨h.config, h.rawsize⟩
  | _ => exact ⟨rfl, rfl⟩

theorem hostMove_config {s t : State} (h : HostMove s t) : t.config = s.config := by
  cases h with
  | commanded h => exact (commanded_config_rawsize h).1
  | _ => rfl

theorem step_config {s t : State} (h : step s = .next t) : t.config = s.config := by
  obtain ⟨q, hm⟩ | ⟨q, hm⟩ | rfl := step_cases h
  · exact (hostMove_config hm :)
  · exact ((engineMove_sameHost hm).config :)
  · rfl

/-- The engine keeps RAWSIZE and the host's latches, and lets one step of the host's delay pass. -/
theorem step_engine_sameHost {s t : State} (hturn : EngineTurn s) (h : step s = .next t) :
    SameHost (countDelay s) t := by
  obtain hm | ⟨rfl, hq, -⟩ := step_engine_cases hturn h
  · exact engineMove_sameHost hm
  · rw [countDelay, hq]
    exact ⟨rfl, rfl, rfl, rfl, rfl⟩

/-! ## Who writes RAWSIZE -/

theorem toNat_rawsizeBits (v : Word) : (v.extractLsb' 0 24).toNat = v.toNat % 16777216 := by
  simp [BitVec.extractLsb'_toNat]

theorem writeRegister_rawsize_changed {off : Nat} {v : Word} {s : State}
    (hne : (writeRegister off v s).rawsize ≠ s.rawsize) :
    off = 0x08 ∧ s.busy = false ∧ (writeRegister off v s).rawsize = v.extractLsb' 0 24 := by
  by_cases hraw : off = 0x08
  · subst hraw
    cases hbusy : s.busy with
    | true => exact absurd (by rw [writeRegister_rawsize_busy v hbusy]) hne
    | false => exact ⟨rfl, rfl, by rw [writeRegister_rawsize_idle v hbusy]⟩
  · refine absurd ?_ hne
    by_cases hctrl : off = offCtrl
    · simp only [writeRegister, if_pos hctrl]
      split <;> rfl
    · rw [writeRegister_ignored v s hctrl hraw]

/-- RAWSIZE changes by the host's reset, or by a whole write to it while no command runs. -/
theorem hostAct_rawsize_changed {a : HostAction} {s t : State} (h : hostAct a s = .next t)
    (hne : t.rawsize ≠ s.rawsize) :
    a = .reset ∧ t.rawsize = 0 ∨
      ∃ v : Word, a = .writeReg 0x08 4 v ∧ s.busy = false ∧
        t.rawsize.toNat = v.toNat % 16777216 := by
  cases a with
  | writeReg off width val =>
    simp only [hostAct] at h
    split at h
    · cases h
    · next hwhole =>
      split at h
      · obtain ⟨t', ht', hc⟩ := exec_decodeCmd_spec val s
        rw [ht'] at h
        cases h
        exact absurd (commanded_config_rawsize hc).2 hne
      · cases h
        obtain ⟨rfl, hbusy, hval⟩ := writeRegister_rawsize_changed hne
        have hwidth : width = 4 := by
          simp [wholeWord] at hwhole
          omega
        exact .inr ⟨val, by rw [hwidth], hbusy, by rw [hval, toNat_rawsizeBits]⟩
  | readReg off width =>
    simp only [hostAct] at h
    split at h <;> cases h
    exact absurd rfl hne
  | offer x =>
    cases h
    refine absurd ?_ hne
    unfold acceptAnswer
    split <;> rfl
  | readOut start count =>
    cases h
    exact absurd rfl hne
  | alterInput index b =>
    simp only [hostAct] at h
    split at h <;> cases h
    exact absurd rfl hne
  | reset =>
    cases h
    exact .inl ⟨rfl, rfl⟩

/-- Settles O53: the engine keeps all of it; of the host's actions two write RAWSIZE. -/
theorem stepKeepsParameters : Obligations.StepKeepsParameters := by
  refine ⟨fun s t => step_config, fun s t hturn h => ?_, fun s t h hne => ?_⟩
  · obtain ⟨-, hraw, hdata, hbytes, hqueue⟩ := step_engine_sameHost hturn h
    exact ⟨by simpa using hraw, by simpa using hdata, by simpa using hbytes, hqueue⟩
  · cases hturn : hostTurn s with
    | none =>
      exact absurd (by simpa using (step_engine_sameHost hturn h).rawsize) hne
    | some turn =>
      obtain ⟨a, s'⟩ := turn
      obtain ⟨d, q, hq, rfl, hact⟩ := step_host_cases hturn h
      exact ⟨_, q, hq, (hostAct_rawsize_changed hact hne :)⟩

end Sys2Proof.Machine

/-! # The window (10_state.md R28, 43_match_finder.md R190) -/

namespace Sys2Proof.Machine

/-! ## What a step can do to the input held and to the window -/

/-- A move keeps the window and the encoded input, empties it, or slides the window over a token. -/
inductive WindowMove (s t : State) : Prop
  | kept (hwin : t.win = s.win) (hpos : t.pos = s.pos) (hfill : t.wfill = s.wfill)
      (hinp : s.inp <+: t.inp)
  | emptied (hwin : t.win = s.win ∨ t.win = []) (hpos : t.pos = 0) (hfill : t.wfill = 0)
  | slid (n : Nat) (hwin : t.win = (slideWindow n s).win) (hpos : t.pos = s.pos + n)
      (hfill : t.wfill = min (s.pos + n) windowSize) (hinp : t.inp = s.inp)
      (hinside : s.pos + n ≤ s.inp.length)

theorem WindowMove.refl (s : State) : WindowMove s s :=
  .kept rfl rfl rfl (List.prefix_refl _)

theorem Ended.windowMove {eoi : Bool} {s t : State} (h : Ended eoi s t) : WindowMove s t := by
  cases h <;> exact .kept rfl rfl rfl (List.prefix_refl _)

theorem Emitted.windowMove {tok : Token} {s t : State} (h : Emitted tok s t) : WindowMove s t := by
  cases h <;> exact .kept rfl rfl rfl (List.prefix_refl _)

theorem startDecode_windowMove (s : State) : WindowMove s (startDecode s) := by
  rw [startDecode_frame]
  exact .kept rfl rfl rfl (List.prefix_refl _)

/-- Nothing of the move depends on the rest of the state it starts from. -/
theorem WindowMove.of_eq {s u t : State} (h : WindowMove u t) (hwin : u.win = s.win)
    (hpos : u.pos = s.pos) (hfill : u.wfill = s.wfill) (hinp : u.inp = s.inp) :
    WindowMove s t := by
  cases h with
  | kept h1 h2 h3 h4 => exact .kept (h1.trans hwin) (h2.trans hpos) (h3.trans hfill) (hinp ▸ h4)
  | emptied h1 h2 h3 => exact .emptied (hwin ▸ h1) h2 h3
  | slid n h1 h2 h3 h4 h5 =>
    refine .slid n (h1.trans ?_) (hpos ▸ h2) (hpos ▸ h3) (h4.trans hinp) (hpos ▸ hinp ▸ h5)
    simp only [slideWindow_win, hinp, hpos, hwin]

theorem engineMove_windowMove {s t : State} (h : EngineMove s t) : WindowMove s t := by
  cases h with
  | headerDecode v size _ _ =>
    exact (startDecode_windowMove (headerState v size s)).of_eq rfl rfl rfl rfl
  | gatherByte b _ => exact .kept rfl rfl rfl (List.prefix_append _ _)
  | encodeStarts _ _ => exact .emptied (.inl rfl) rfl rfl
  | encodeStartFails _ _ => exact .emptied (.inl rfl) rfl rfl
  | ends _ _ ht => exact ht.windowMove
  | token _ _ n _ _ _ _ ht => exact ht.windowMove.of_eq rfl rfl rfl rfl
  | flagEnds n _ _ _ ht => exact ht.windowMove.of_eq rfl rfl rfl rfl
  | tokenEnds n _ _ _ ht => exact ht.windowMove.of_eq rfl rfl rfl rfl
  | searched v s1 _ hv hp =>
    rw [flushIfFull_eq hp]
    exact .slid _ rfl rfl rfl rfl (searchToken_count hv)
  | flushed s1 _ _ hp =>
    rw [flushChunk_eq hp]
    exact .kept rfl rfl rfl (List.prefix_refl _)
  | _ => exact .kept rfl rfl rfl (List.prefix_refl _)

theorem commanded_windowMove {s t : State} (h : Commanded s t) : WindowMove s t := by
  cases h with
  | ignored _ => exact .refl s
  | raw op ovl _ _ =>
    rw [startDecode_frame]
    exact .emptied (.inl rfl) rfl rfl
  | _ => exact .emptied (.inl rfl) rfl rfl

theorem hostMove_windowMove {s t : State} (h : HostMove s t) : WindowMove s t := by
  cases h with
  | commanded h => exact commanded_windowMove h
  | reset => exact .emptied (.inr rfl) rfl rfl
  | _ => exact .kept rfl rfl rfl (List.prefix_refl _)

theorem step_windowMove {s t : State} (h : step s = .next t) : WindowMove s t := by
  obtain ⟨q, hm⟩ | ⟨q, hm⟩ | rfl := step_cases h
  · exact (hostMove_windowMove hm).of_eq rfl rfl rfl rfl
  · exact (engineMove_windowMove hm).of_eq rfl rfl rfl rfl
  · exact .refl _

/-! ## The obligations -/

/-- Settles O50: the window is kept, emptied, or written at addresses below 4096. -/
theorem stepKeepsWindowCanonical : Obligations.StepKeepsWindowCanonical := by
  intro s t ⟨hwf, hinside⟩ h
  cases step_windowMove h with
  | kept hwin _ _ _ => exact ⟨hwin ▸ hwf, hwin ▸ hinside⟩
  | emptied hwin _ _ =>
    obtain hwin | hwin := hwin
    · exact ⟨hwin ▸ hwf, hwin ▸ hinside⟩
    · rw [WindowCanonical, hwin]
      exact ⟨rfl, nofun⟩
  | slid n hwin _ _ _ _ =>
    rw [WindowCanonical, hwin, slideWindow_win]
    exact ⟨wf_writeWindow hwf, fun c hc => (mem_writeWindow hc).elim (hinside c) id⟩

/-- An empty window holds what has been encoded: nothing. -/
theorem windowHolds_empty {t : State} (hpos : t.pos = 0) (hfill : t.wfill = 0) : WindowHolds t where
  posInside := by omega
  fill := by simp [hpos, hfill]
  bytes i _ hi := by omega

theorem slice_getElem? (l : List Byte) (a n k : Nat) (hk : k < n) :
    (slice l a (a + n))[k]? = l[a + k]? := by
  rw [slice, List.getElem?_drop, List.getElem?_take_of_lt (by omega)]

/-- A slide over `n` input bytes: the last 4096 of the old and the new bytes are in the window. -/
theorem winByte_slideWindow {s : State} {n i : Nat} (hwf : Memory.wf s.win = true)
    (hs : WindowHolds s) (hinside : s.pos + n ≤ s.inp.length)
    (hlow : s.pos + n - windowSize ≤ i) (hi : i < s.pos + n) :
    s.inp[i]? = some ((slideWindow n s).winByte i) := by
  have hlength : (slice s.inp s.pos (s.pos + n)).length = n := by
    simp only [slice, List.length_drop, List.length_take]
    omega
  rw [State.winByte, slideWindow_win]
  by_cases hold : i < s.pos
  · rw [hs.bytes i (by omega) hold, State.winByte, read_writeWindow_other]
    intro k hk
    simp only [windowSize] at *
    omega
  · obtain ⟨k, rfl⟩ := Nat.exists_eq_add_of_le (Nat.le_of_not_lt hold)
    rw [read_writeWindow hwf (by omega) (by omega), slice_getElem? _ _ _ _ (by omega)]

/-- Settles O49: new input goes after the encoded bytes, and a slide writes the token's bytes. -/
theorem stepKeepsWindow : Obligations.StepKeepsWindow := by
  intro s t hcanonical hs h
  cases step_windowMove h with
  | kept hwin hpos hfill hinp =>
    obtain ⟨more, hmore⟩ := hinp
    have hlength : s.inp.length ≤ t.inp.length := by simp [← hmore]
    refine ⟨by have := hs.posInside; omega, by rw [hfill, hpos, hs.fill], fun i hlow hi => ?_⟩
    rw [hpos] at hlow hi
    have hold := hs.bytes i hlow hi
    rw [State.winByte, hwin, ← hmore,
      List.getElem?_append_left (List.getElem?_eq_some_iff.1 hold).1]
    exact hold
  | emptied _ hpos hfill => exact windowHolds_empty hpos hfill
  | slid n hwin hpos hfill hinp hinside =>
    refine ⟨by rwa [hpos, hinp], by rw [hfill, hpos], fun i hlow hi => ?_⟩
    rw [hpos] at hlow hi
    rw [hinp, State.winByte, hwin]
    exact winByte_slideWindow hcanonical.1 hs hinside hlow hi

end Sys2Proof.Machine

/-! # The small counters (10_state.md R23, R26, R28) -/

namespace Sys2Proof.Machine

/-- What a move can do to FCNT and DISP_EXTRA. -/
structure FlagMove (s t : State) : Prop where
  count : t.fcnt ≤ s.fcnt ∨ t.fcnt = 8
  extra : t.dispExtra = s.dispExtra ∨ t.dispExtra = 1 ∨ t.dispExtra = 3

theorem engineMove_flagMove {s t : State} (h : EngineMove s t) : FlagMove s t := by
  cases h with
  | headerVerify _ _ _ _ => exact ⟨.inl (Nat.zero_le _), .inr (.inl rfl)⟩
  | headerDecode _ _ _ _ =>
    rw [startDecode_frame]
    exact ⟨.inl (Nat.zero_le _), .inr (.inl rfl)⟩
  | trailerStarts _ _ _ _ _ _ => exact ⟨.inl (Nat.zero_le _), .inr (.inr rfl)⟩
  | flagByte _ _ _ _ => exact ⟨.inr rfl, .inl rfl⟩
  | ends _ _ ht =>
    rw [ht.frame]
    exact ⟨.inl (Nat.le_refl _), .inl rfl⟩
  | token _ _ _ _ _ _ _ ht =>
    rw [ht.frame]
    exact ⟨.inl (Nat.sub_le _ _), .inl rfl⟩
  | flagEnds _ _ _ _ ht =>
    rw [ht.frame]
    exact ⟨.inl (Nat.le_refl _), .inl rfl⟩
  | tokenEnds _ _ _ _ ht =>
    rw [ht.frame]
    exact ⟨.inl (Nat.sub_le _ _), .inl rfl⟩
  | tokenFull _ _ _ _ => exact ⟨.inl (Nat.sub_le _ _), .inl rfl⟩
  | searched _ _ _ _ hp =>
    rw [flushIfFull_eq hp]
    exact ⟨.inl (Nat.le_refl _), .inl rfl⟩
  | flushed _ _ _ hp =>
    rw [flushChunk_eq hp]
    exact ⟨.inl (Nat.le_refl _), .inl rfl⟩
  | _ => exact ⟨.inl (Nat.le_refl _), .inl rfl⟩

/-- What a move of the engine can do to the chunk: it stays, is emptied, or takes one token, and
then it is full only where the command has ended. -/
inductive ChunkMove (s t : State) : Prop
  | kept (hchunk : t.chunk = s.chunk) (hcount : t.ccnt = s.ccnt)
  | emptied (hchunk : t.chunk = []) (hcount : t.ccnt = 0)
  | grown (e : ChunkEntry) (hchunk : t.chunk = s.chunk ++ [e]) (hcount : t.ccnt = s.ccnt + 1)
      (hopen : t.busy = true → t.ccnt ≠ 8)

theorem engineMove_chunkMove {s t : State} (h : EngineMove s t) : ChunkMove s t := by
  cases h with
  | headerDecode _ _ _ _ =>
    rw [startDecode_frame]
    exact .kept rfl rfl
  | encodeStarts _ _ => exact .emptied rfl rfl
  | encodeStartFails _ _ => exact .emptied rfl rfl
  | ends _ _ ht =>
    rw [ht.frame]
    exact .kept rfl rfl
  | token _ _ _ _ _ _ _ ht =>
    rw [ht.frame]
    exact .kept rfl rfl
  | flagEnds _ _ _ _ ht =>
    rw [ht.frame]
    exact .kept rfl rfl
  | tokenEnds _ _ _ _ ht =>
    rw [ht.frame]
    exact .kept rfl rfl
  | searched _ s1 _ _ hp =>
    obtain ⟨hopen, rfl⟩ | ⟨-, bs, rfl⟩ := flushIfFull_frame hp
    · exact .grown _ rfl rfl fun _ => hopen
    · exact .emptied rfl rfl
  | searchFails _ _ _ _ _ => exact .grown _ rfl rfl (by simp [raise_busy])
  | flushed s1 _ _ hp =>
    obtain ⟨-, rfl⟩ | ⟨-, bs, rfl⟩ := flushChunk_frame hp
    · exact .kept rfl rfl
    · exact .emptied rfl rfl
  | _ => exact .kept rfl rfl

theorem countersInRange_engineMove {s t : State} (hs : CountersInRange s) (h : EngineMove s t) :
    CountersInRange t := by
  obtain ⟨hcount, hextra⟩ := engineMove_flagMove h
  have hflags := hs.flagBits
  have hdisp := hs.dispExtra
  have hchunkCount := hs.chunkCount
  have hopen := hs.chunkOpen (engineMove_busy h)
  cases engineMove_chunkMove h with
  | kept hchunk hccnt =>
    exact ⟨by omega, by omega, by rw [hccnt, hchunk, hchunkCount], by omega, fun _ => by omega⟩
  | emptied hchunk hccnt =>
    exact ⟨by omega, by omega, by rw [hccnt, hchunk]; rfl, by omega, fun _ => by omega⟩
  | grown e hchunk hccnt hfull =>
    exact ⟨by omega, by omega, by simp [hccnt, hchunk, hchunkCount], by omega,
      fun hbusy => by have := hfull hbusy; omega⟩

theorem startDispExtra_eq (op : BitVec 4) (ovl : Bool) :
    startDispExtra op ovl = 1 ∨ startDispExtra op ovl = 3 := by
  unfold startDispExtra
  split <;> simp

/-- A command starts with its counters cleared. -/
theorem countersInRange_started {op : BitVec 4} {ovl : Bool} {t : State} (hfcnt : t.fcnt = 0)
    (hextra : t.dispExtra = startDispExtra op ovl) (hchunk : t.chunk = []) (hccnt : t.ccnt = 0) :
    CountersInRange t := by
  have := startDispExtra_eq op ovl
  exact ⟨by omega, by omega, by simp [hchunk, hccnt], by omega, fun _ => by omega⟩

theorem countersInRange_commanded {s t : State} (hs : CountersInRange s) (h : Commanded s t) :
    CountersInRange t := by
  cases h with
  | ignored _ => exact hs
  | illegal op ovl _ => exact countersInRange_started (op := op) (ovl := ovl) rfl rfl rfl rfl
  | raw op ovl _ _ =>
    rw [startDecode_frame]
    exact countersInRange_started (op := op) (ovl := ovl) rfl rfl rfl rfl
  | framed op _ _ => exact countersInRange_started (op := op) (ovl := false) rfl rfl rfl rfl
  | whole op _ _ => exact countersInRange_started (op := op) (ovl := false) rfl rfl rfl rfl

theorem countersInRange_hostMove {s t : State} (hs : CountersInRange s) (h : HostMove s t) :
    CountersInRange t := by
  cases h with
  | commanded h => exact countersInRange_commanded hs h
  | aborted hbusy => exact { hs with chunkOpen := fun _ => hs.chunkOpen hbusy }
  | reset => exact ⟨Nat.zero_le _, .inl rfl, rfl, Nat.zero_le _, nofun⟩
  | nothing => exact hs
  | sized r _ => exact { hs with }
  | read w => exact { hs with }
  | offered a _ => exact { hs with }
  | readOut bs => exact { hs with }

/-- Settles O51: FCNT and DISP_EXTRA take few values, and the eighth token empties the chunk. -/
theorem stepKeepsCountersInRange : Obligations.StepKeepsCountersInRange :=
  fun _ _ => step_keeps (fun _ h => { h with }) countersInRange_hostMove countersInRange_engineMove

end Sys2Proof.Machine

/-! # Lengths of the input and of the output (10_state.md R24, 42_overlay.md R170 to R175) -/

namespace Sys2Proof.Machine

/-- Where no command runs, only a verification that is DONE claims anything. -/
theorem lengthsAgree_stopped {t : State} (hst : ∀ p, t.st ≠ .busy p)
    (hout : t.op = opVerify → t.st = .done → t.out = []) : LengthsAgree t where
  phase p h := absurd h (hst p)
  atHeader h := absurd h (hst _)
  decoding h := absurd h (hst _)
  verifying ho h := h.elim (fun h => absurd h (hst _)) (hout ho)
  overlayInput _ h := h.elim (fun h => absurd h (hst _)) (fun h => absurd h (hst _))
  overlaySizes _ h := absurd h (hst _)
  overlaySource _ h := absurd h (hst _)

theorem lengthsAgree_raise (e : ErrCode) (off : Nat) (foff : Option Nat) (s : State) :
    LengthsAgree (raise e off foff s) :=
  lengthsAgree_stopped (by simp) (by simp)

/-- In the phases that read no header, no trailer and no token, only the phase's command counts. -/
theorem lengthsAgree_plain {t : State} {p : Phase} (hst : t.st = .busy p)
    (hp : p = .gather ∨ p = .search ∨ p = .pad ∨ p = .finish) (hfits : phaseFits t.op p = true) :
    LengthsAgree t := by
  refine ⟨fun p' h => ?_, ?_, ?_, ?_, ?_, ?_, ?_⟩
  · rw [hst] at h
    cases h
    exact hfits
  all_goals
    rw [hst]
    obtain rfl | rfl | rfl | rfl := hp <;> simp

/-- A token step of a decode other than OVERLAY. -/
theorem lengthsAgree_tokens {t : State} (hst : t.st = .busy .tokens)
    (hop : t.op = opDecode ∨ t.op = opDecodeRaw10 ∨ t.op = opDecodeRaw11)
    (htotal : t.total = t.out.length) (hsize : t.total ≤ t.size) : LengthsAgree t := by
  obtain ⟨hfits, hverify, hoverlay⟩ :
      phaseFits t.op .tokens = true ∧ t.op ≠ opVerify ∧ t.op ≠ opOverlay := by
    obtain hop | hop | hop := hop <;> rw [hop] <;> decide
  refine ⟨fun p h => ?_, fun h => ?_, fun _ _ => ⟨htotal, hsize⟩, fun ho => absurd ho hverify,
    fun ho => absurd ho hoverlay, fun ho => absurd ho hoverlay, fun ho => absurd ho hoverlay⟩
  · rw [hst] at h
    cases h
    exact hfits
  · simp [hst] at h

/-- `Decode` starts with nothing produced. -/
theorem lengthsAgree_startDecode {s : State}
    (hop : s.op = opDecode ∨ s.op = opDecodeRaw10 ∨ s.op = opDecodeRaw11) :
    LengthsAgree (startDecode s) := by
  obtain ⟨-, h⟩ | ⟨-, h⟩ := startDecode_spec s <;> rw [h]
  · exact lengthsAgree_tokens rfl hop rfl (Nat.zero_le _)
  · exact lengthsAgree_raise _ _ _ _

theorem lengthsAgree_commanded {s t : State} (hs : LengthsAgree s) (h : Commanded s t) :
    LengthsAgree t := by
  cases h with
  | ignored _ => exact hs
  | illegal op ovl _ => exact lengthsAgree_raise _ _ _ _
  | raw op ovl _ ho => exact lengthsAgree_startDecode (.inr ho)
  | framed op _ ho =>
    refine ⟨fun p h => ?_, fun _ => ⟨rfl, rfl⟩, nofun, fun _ h => by simp at h, ?_, nofun, nofun⟩
    · cases h
      obtain rfl | rfl := ho <;> rfl
    · exact fun _ h => by simp at h
  | whole op _ ho =>
    refine lengthsAgree_plain rfl (.inl rfl) ?_
    obtain rfl | rfl | rfl := ho <;> rfl

theorem lengthsAgree_hostMove {s t : State} (hs : LengthsAgree s) (h : HostMove s t) :
    LengthsAgree t := by
  cases h with
  | commanded h => exact lengthsAgree_commanded hs h
  | aborted _ => exact lengthsAgree_stopped (by simp) (by simp)
  | reset => exact lengthsAgree_stopped nofun nofun
  | nothing => exact hs
  | sized r _ => exact { hs with }
  | read w => exact { hs with }
  | offered a _ => exact { hs with }
  | readOut bs => exact { hs with }

/-! ## The engine's moves, phase by phase -/

/-- The header is a DECODE's or a VERIFY's. -/
theorem LengthsAgree.op_of_header {s : State} (hs : LengthsAgree s) (h : s.st = .busy .header) :
    s.op = opDecode ∨ s.op = opVerify := by
  simpa [phaseFits] using hs.phase _ h

theorem lengthsAgree_startVerify {s : State} (hop : s.op = opVerify) (hout : s.out = []) :
    LengthsAgree (startVerify s) where
  phase p h := by
    cases h
    simp [phaseFits, hop]
  atHeader := nofun
  decoding _ ho := absurd hop ho
  verifying _ _ := hout
  overlayInput ho := absurd (hop.symm.trans ho) (by decide)
  overlaySizes ho := absurd (hop.symm.trans ho) (by decide)
  overlaySource ho := absurd (hop.symm.trans ho) (by decide)

theorem lengthsAgree_gathered {s : State} (hs : LengthsAgree s) (h : s.st = .busy .gather)
    (he : s.encoding = false) :
    LengthsAgree { s with len := s.inp.length, st := .busy .trailer } := by
  have hop : s.op = opOverlay := by
    have hfits := hs.phase _ h
    simp only [phaseFits, State.encoding, Bool.or_eq_true, Bool.or_eq_false_iff] at hfits he
    simpa [he] using hfits
  refine ⟨fun p h => ?_, nofun, nofun, fun _ h => by simp at h, fun _ _ => rfl, nofun, nofun⟩
  cases h
  simp [phaseFits, hop]

theorem lengthsAgree_startOverlay {s : State} (hs : LengthsAgree s) (h : s.st = .busy .trailer)
    (e : BitVec 24) (p : BitVec 8) (sd : BitVec 32) (he : e.toNat ≤ s.len)
    (hp : p.toNat ≤ e.toNat) : LengthsAgree (startOverlay (loadTrailer e p sd s)) := by
  have hop : s.op = opOverlay := by simpa [phaseFits] using hs.phase _ h
  refine ⟨fun p h => ?_, nofun, fun _ _ => ⟨rfl, Nat.zero_le _⟩, fun ho => ?_,
    fun _ _ => hs.overlayInput hop (.inl h), fun _ _ => ⟨he, hp, rfl⟩, fun _ _ => rfl⟩
  · cases h
    simp [phaseFits, hop]
  · exact absurd (hop.symm.trans ho) (by decide)

/-- The end of the tokenizer: a verification leaves its empty OUT. -/
theorem lengthsAgree_ended {eoi : Bool} {s t : State} (h : Ended eoi s t)
    (hout : s.op = opVerify → s.out = []) : LengthsAgree t := by
  cases h with
  | failed e => exact lengthsAgree_raise _ _ _ _
  | verified _ _ => exact lengthsAgree_stopped (by simp) fun ho _ => hout ho
  | spliced ho _ =>
    exact lengthsAgree_stopped (by simp) fun hv _ => absurd (ho.symm.trans hv) (by decide)
  | decoded ho _ _ => exact lengthsAgree_stopped (by simp) fun hv _ => absurd hv ho

/-- What a token leaves: the phase, OUT and TOTAL in step, and everything of the overlay. -/
theorem lengthsAgree_emitted {tok : Token} {s t : State} (hs : LengthsAgree s)
    (hst : s.st = .busy .tokens) (hbefore : s.total < s.size) (h : Emitted tok s t) :
    LengthsAgree t := by
  cases h with
  | failed e => exact lengthsAgree_raise _ _ _ _
  | literal v _ ho =>
    refine { hs with atHeader := fun h => ?_, decoding := fun _ _ => ?_, verifying := ?_ }
    · simp [hst] at h
    · obtain ⟨htotal, -⟩ := hs.decoding hst ho
      exact ⟨by simp [htotal], hbefore⟩
    · exact fun hv => absurd hv ho
  | copied len disp o _ ho h1 h2 h3 hc =>
    refine { hs with atHeader := fun h => ?_, decoding := fun _ _ => ?_, verifying := ?_ }
    · simp [hst] at h
    · obtain ⟨htotal, -⟩ := hs.decoding hst ho
      obtain ⟨o', ho', hlength, -, -⟩ := copyMatch_spec disp len s.out h1 h2
      rw [hc] at ho'
      cases ho'
      exact ⟨by simp only [htotal, hlength], by simp only; omega⟩
    · exact fun hv => absurd hv ho
  | counted ho =>
    refine { hs with atHeader := fun h => ?_, decoding := fun _ hv => absurd ho hv }
    simp [hst] at h

theorem lengthsAgree_engineMove {s t : State} (hs : LengthsAgree s) (h : EngineMove s t) :
    LengthsAgree t := by
  cases h with
  | headerVerify v size h ho =>
    exact lengthsAgree_startVerify (s := headerState v size s) ho (hs.atHeader h).1
  | headerDecode v size h ho =>
    exact lengthsAgree_startDecode (s := headerState v size s)
      (.inl ((hs.op_of_header h).resolve_right ho))
  | gatherByte b h => exact lengthsAgree_plain h (.inl rfl) (hs.phase _ h)
  | encodeStarts h he => exact lengthsAgree_plain rfl (.inr (.inl rfl)) he
  | gathered h he => exact lengthsAgree_gathered hs h he
  | trailerStarts e p sd h he hp => exact lengthsAgree_startOverlay hs h e p sd he hp
  | ends h _ ht => exact lengthsAgree_ended ht fun ho => hs.verifying ho (.inl h)
  | flagByte f h _ _ => exact { hs with }
  | token i tok n h hsize _ _ ht =>
    have hu : LengthsAgree (consume n (takeFlagBit s)) := { hs with }
    exact lengthsAgree_emitted hu h hsize ht
  | flagEnds n h _ _ ht => exact lengthsAgree_ended ht fun ho => hs.verifying ho (.inl h)
  | tokenEnds n h _ _ ht => exact lengthsAgree_ended ht fun ho => hs.verifying ho (.inl h)
  | searched v s1 h _ hp =>
    rw [flushIfFull_eq hp]
    exact lengthsAgree_plain h (.inr (.inl rfl)) (hs.phase _ h)
  | flushed s1 h _ hp =>
    rw [flushChunk_eq hp]
    exact lengthsAgree_plain rfl (.inr (.inr (.inl rfl))) (hs.phase _ h :)
  | padded h => exact lengthsAgree_plain rfl (.inr (.inr (.inr rfl))) (hs.phase _ h :)
  | finished h =>
    refine lengthsAgree_stopped (by simp) fun ho _ => absurd (hs.phase _ h) ?_
    have ho : s.op = opVerify := ho
    rw [ho]
    decide
  | _ => exact lengthsAgree_raise _ _ _ _

/-- Settles O48: by the phases, each of which needs what the one before it has left. -/
theorem stepKeepsLengthsAgree : Obligations.StepKeepsLengthsAgree :=
  fun _ _ => step_keeps (fun _ h => { h with }) lengthsAgree_hostMove lengthsAgree_engineMove

end Sys2Proof.Machine

/-! # The padding (44_encoder.md R225) -/

namespace Sys2Proof.Machine

theorem padCount_val (n : Nat) : (padCount n).val = (4 - n % 4) % 4 := rfl

theorem padCount_fills (n : Nat) : (n + (padCount n).val) % 4 = 0 := by
  rw [padCount_val]
  omega

/-- Only the end of an encoder's run claims anything of the padding. -/
theorem paddedOutput_of_st {t : State} (hfinish : t.st ≠ .busy .finish)
    (hdone : t.st = .done → t.encoding = false) : PaddedOutput t := by
  rintro (h | ⟨h, he⟩)
  · exact absurd h hfinish
  · rw [hdone h] at he
    cases he

/-- No decode and no verification is an encode. -/
theorem not_encoding_of_tokens {s : State} (hs : LengthsAgree s) (h : s.st = .busy .tokens) :
    s.encoding = false := by
  have hfits := hs.phase _ h
  simp only [phaseFits, Bool.or_eq_true, beq_iff_eq] at hfits
  unfold State.encoding
  obtain (((h | h) | h) | h) | h := hfits <;> rw [h] <;> decide

theorem paddedOutput_ended {eoi : Bool} {s t : State} (h : Ended eoi s t)
    (he : s.encoding = false) : PaddedOutput t := by
  cases h <;> exact paddedOutput_of_st (by simp) fun _ => he

theorem paddedOutput_commanded {s t : State} (hs : PaddedOutput s) (h : Commanded s t) :
    PaddedOutput t := by
  cases h with
  | ignored _ => exact hs
  | raw op ovl _ _ =>
    obtain ⟨-, h⟩ | ⟨-, h⟩ := startDecode_spec (commandInit op ovl s) <;> rw [h] <;>
      exact paddedOutput_of_st (by simp) (by simp)
  | _ => exact paddedOutput_of_st (by simp) (by simp)

theorem paddedOutput_hostMove {s t : State} (hs : PaddedOutput s) (h : HostMove s t) :
    PaddedOutput t := by
  cases h with
  | commanded h => exact paddedOutput_commanded hs h
  | aborted _ => exact paddedOutput_of_st (by simp) (by simp)
  | reset => exact paddedOutput_of_st nofun nofun
  | _ => exact hs

theorem paddedOutput_engineMove {s t : State} (hlengths : LengthsAgree s) (hs : PaddedOutput s)
    (h : EngineMove s t) : PaddedOutput t := by
  cases h with
  | headerDecode v size _ _ =>
    obtain ⟨-, h⟩ | ⟨-, h⟩ := startDecode_spec (headerState v size s) <;> rw [h] <;>
      exact paddedOutput_of_st (by simp) (by simp)
  | ends h _ ht => exact paddedOutput_ended ht (not_encoding_of_tokens hlengths h)
  | flagEnds n h _ _ ht => exact paddedOutput_ended ht (not_encoding_of_tokens hlengths h :)
  | tokenEnds n h _ _ ht => exact paddedOutput_ended ht (not_encoding_of_tokens hlengths h :)
  | token i tok n h _ _ _ ht =>
    cases ht <;> exact paddedOutput_of_st (by simp [h]) (by simp [h])
  | gatherByte b h => exact paddedOutput_of_st (by simp [h]) (by simp [h])
  | flagByte f h _ _ => exact paddedOutput_of_st (by simp [h]) (by simp [h])
  | searched v s1 h _ hp =>
    rw [flushIfFull_eq hp]
    exact paddedOutput_of_st (by simp [h]) (by simp [h])
  | padded _ =>
    intro _
    simpa using padCount_fills s.out.length
  | finished h => exact fun _ => hs (.inl h)
  | _ => exact paddedOutput_of_st (by simp) (by simp)

/-- Settles O52: the padding fills to 4 and the step after it keeps OUT; no other step of an encoder
ends in these phases. -/
theorem stepKeepsPaddedOutput : Obligations.StepKeepsPaddedOutput := by
  intro s t hlengths hs h
  refine (step_keeps (P := fun s => LengthsAgree s ∧ PaddedOutput s) (fun _ h => ?_) ?_ ?_
    ⟨hlengths, hs⟩ h).2
  · exact ⟨{ h.1 with }, h.2⟩
  · exact fun ⟨hl, hp⟩ hm => ⟨lengthsAgree_hostMove hl hm, paddedOutput_hostMove hp hm⟩
  · exact fun ⟨hl, hp⟩ hm => ⟨lengthsAgree_engineMove hl hm, paddedOutput_engineMove hl hp hm⟩

/-! ## At reset -/

/-- Settles O46: no command has run, nothing has been encoded, no error is on record. -/
theorem resetMeetsInvariants : Obligations.ResetMeetsInvariants :=
  ⟨⟨fun _ => ⟨rfl, rfl, rfl, rfl⟩, nofun, fun _ => rfl, fun _ => rfl, fun _ => rfl⟩,
    lengthsAgree_stopped nofun (by decide), windowHolds_empty rfl rfl, ⟨rfl, nofun⟩,
    ⟨by decide, .inl rfl, rfl, by decide, by decide⟩, paddedOutput_of_st (by decide) (by decide)⟩

end Sys2Proof.Machine

/-! # The decoder and the encoder are inverse (30_encoding.md R80 to R96) -/

namespace Sys2Proof

/-! ## Length fields of 16 bits in three pieces, and of 8 bits in two -/

/-- The parts of three joined words, the two lower of 8 and 4 bits. -/
theorem lengthField_parts (a : BitVec 4) (b : Byte) (c : BitVec 4) :
    (a ++ b ++ c).extractLsb' 12 4 = a ∧ (a ++ b ++ c).extractLsb' 4 8 = b ∧
      (a ++ b ++ c).extractLsb' 0 4 = c := by
  refine ⟨?_, ?_, extractLsb'_append_low _ _⟩
  · exact (extractLsb'_append_above (a ++ b) c 8 4).trans (extractLsb'_append_high a b)
  · exact (extractLsb'_append_above (a ++ b) c 0 8).trans (extractLsb'_append_low a b)

theorem lengthField_join (n : BitVec 16) :
    n.extractLsb' 12 4 ++ n.extractLsb' 4 8 ++ n.extractLsb' 0 4 = n := by
  apply BitVec.eq_of_toNat_eq
  have := n.isLt
  simp only [toNat_join, BitVec.extractLsb'_toNat, Nat.shiftRight_eq_div_pow]
  omega

theorem shortLengthField_join (n : BitVec 8) : n.extractLsb' 4 4 ++ n.extractLsb' 0 4 = n :=
  nibbles_join n

/-! ## Decoding what was encoded -/

/-- A command word's bytes are decoded as that word. -/
theorem decode_command_wordBytes (w : Word) (rest : List Byte) :
    decode .command (wordBytes w ++ rest) = .ok (decodeCmd w, rest) := by
  simp [decode, wordBytes, decodeCommand]

theorem decodeCmd_of_rsvd {rsvd : BitVec 27} (h : rsvd ≠ 0#27) (ovl : Bool) (op : BitVec 4) :
    decodeCmd (cmdWord rsvd ovl op) = .cmdIllegalRsvd rsvd ovl op := by
  rw [decodeCmd, cmdWord_rsvd, cmdWord_ovl, cmdWord_op, if_pos h]

theorem decodeCmd_of_ovl {op : BitVec 4} (h : op ≠ 0x2#4) :
    decodeCmd (cmdWord 0 true op) = .cmdIllegalOvl op := by
  simp [decodeCmd, cmdWord_rsvd, cmdWord_ovl, cmdWord_op, h]

theorem decodeCmd_of_op {ovl : Bool} {op : BitVec 4} (h : ovl = false ∨ op = 0x2#4) :
    decodeCmd (cmdWord 0 ovl op) = decodeOp ovl op := by
  have hovl := Machine.not_ovlMisused_iff.2 h
  rw [decodeCmd, cmdWord_rsvd, cmdWord_ovl, cmdWord_op, if_neg (by simp), if_neg hovl]

/-- A command word of one of the table's opcode rows. -/
theorem decode_command_op {ovl : Bool} {op : BitVec 4} (h : ovl = false ∨ op = 0x2#4)
    (rest : List Byte) :
    decode .command (wordBytes (cmdWord 0 ovl op) ++ rest) = .ok (decodeOp ovl op, rest) := by
  rw [decode_command_wordBytes, decodeCmd_of_op h]

/-- A reserved opcode's row, which a well-formed term has without OVL. -/
theorem decode_command_reserved {ovl : Bool} (h : (!ovl) = true) (op : BitVec 4)
    (rest : List Byte) :
    decode .command (wordBytes (cmdWord 0 ovl op) ++ rest) = .ok (decodeOp ovl op, rest) :=
  decode_command_op (.inl (by simpa using h)) rest

theorem decode_match10_encode (l : BitVec 4) (d : BitVec 12) (rest : List Byte) :
    decode .match10 (encode (.m10 l d) ++ rest) = .ok (.m10 l d, rest) := by
  simp [decode, encode, decodeMatch10]

theorem decode_match11_e8 (n : BitVec 8) (d : BitVec 12) (rest : List Byte) :
    decode .match11 (encode (.m11e8 n d) ++ rest) = .ok (.m11e8 n d, rest) := by
  simp [decode, encode, decodeMatch11, decodeE8, shortLengthField_join]

theorem decode_match11_e16 (n : BitVec 16) (d : BitVec 12) (rest : List Byte) :
    decode .match11 (encode (.m11e16 n d) ++ rest) = .ok (.m11e16 n d, rest) := by
  simp [decode, encode, decodeMatch11, decodeE16, lengthField_join]

theorem decode_match11_s {i : BitVec 4} (h : 2 ≤ i.toNat) (d : BitVec 12) (rest : List Byte) :
    decode .match11 (encode (.m11s i d) ++ rest) = .ok (.m11s i d, rest) := by
  have hne : ∀ k : BitVec 4, k.toNat < 2 → i ≠ k := fun k hk heq => by
    rw [heq] at h
    omega
  simp [decode, encode, decodeMatch11, decodeS, hne 0x0#4 (by decide), hne 0x1#4 (by decide)]

/-- Every instruction but the padding is read back, whatever follows it. -/
theorem decode_encode {i : Instr} (hwf : i.WellFormed) (hpad : ∀ c, i ≠ .pad c)
    (rest : List Byte) : decode i.slot (encode i ++ rest) = .ok (i, rest) := by
  cases i with
  | hdr10 size => simp [Instr.slot, decode, encode, decodeHeader]
  | hdr11 size => simp [Instr.slot, decode, encode, decodeHeader]
  | flag f => rfl
  | lit v => rfl
  | m10 l d => exact decode_match10_encode l d rest
  | m11e8 n d => exact decode_match11_e8 n d rest
  | m11e16 n d => exact decode_match11_e16 n d rest
  | m11s ind d => exact decode_match11_s (of_decide_eq_true hwf) d rest
  | trl e p sd => simp [Instr.slot, decode, encode, decodeTrailer]
  | pad c => exact absurd rfl (hpad c)
  | cmdDecode => exact decode_command_op (.inl rfl) rest
  | cmdDecodeRaw10 ovl => exact decode_command_op (.inr rfl) rest
  | cmdDecodeRaw11 => exact decode_command_op (.inl rfl) rest
  | cmdOverlay => exact decode_command_op (.inl rfl) rest
  | cmdEncode10 => exact decode_command_op (.inl rfl) rest
  | cmdEncode11 => exact decode_command_op (.inl rfl) rest
  | cmdVerify => exact decode_command_op (.inl rfl) rest
  | cmdReserved0 ovl => exact decode_command_reserved hwf _ rest
  | cmdReserved8 ovl => exact decode_command_reserved hwf _ rest
  | cmdReserved9 ovl => exact decode_command_reserved hwf _ rest
  | cmdReservedA ovl => exact decode_command_reserved hwf _ rest
  | cmdReservedB ovl => exact decode_command_reserved hwf _ rest
  | cmdReservedC ovl => exact decode_command_reserved hwf _ rest
  | cmdReservedD ovl => exact decode_command_reserved hwf _ rest
  | cmdReservedE ovl => exact decode_command_reserved hwf _ rest
  | cmdReservedF ovl => exact decode_command_reserved hwf _ rest
  | cmdIllegalOvl op =>
    have hop : op ≠ 0x2#4 := of_decide_eq_true hwf
    exact (decode_command_wordBytes _ rest).trans (by rw [decodeCmd_of_ovl hop])
  | cmdIllegalRsvd rsvd ovl op =>
    have hrsvd : rsvd ≠ 0#27 := of_decide_eq_true hwf
    exact (decode_command_wordBytes _ rest).trans (by rw [decodeCmd_of_rsvd hrsvd])

theorem decode_padding_encode :
    ∀ c : Fin 4, decode .padding (encode (.pad c)) = .ok (.pad c, []) := by
  decide

/-- Settles O57: row by row; the command words by their three fields. -/
theorem decodeInvertsEncode : Obligations.DecodeInvertsEncode := by
  refine fun i rest hwf => ⟨fun hpad => decode_encode hwf hpad rest, ?_⟩
  rintro ⟨c, rfl⟩
  exact decode_padding_encode c

/-! ## Encoding what was decoded -/

/-- The instruction stands for all the bytes read, in its slot, and is well formed. -/
def Restores (slot : Slot) (bs rest : List Byte) (i : Instr) : Prop :=
  encode i ++ rest = bs ∧ i.slot = slot ∧ i.WellFormed

theorem restores_header {bs rest : List Byte} {i : Instr} (h : decode .header bs = .ok (i, rest)) :
    Restores .header bs rest i := by
  rcases bs with _ | ⟨tag, _ | ⟨s0, _ | ⟨s1, _ | ⟨s2, bs⟩⟩⟩⟩ <;>
    simp only [decode, decodeHeader, reduceCtorEq] at h
  obtain ⟨h0, h1, h2⟩ := bytes_le24 s0 s1 s2
  split_ifs at h with htag htag
  · cases h
    exact ⟨by simp [encode, h0, h1, h2, htag], rfl, rfl⟩
  · cases h
    exact ⟨by simp [encode, h0, h1, h2, htag], rfl, rfl⟩

theorem restores_flag {bs rest : List Byte} {i : Instr} (h : decode .flag bs = .ok (i, rest)) :
    Restores .flag bs rest i := by
  rcases bs with _ | ⟨f, bs⟩ <;> simp only [decode, decodeFlag, reduceCtorEq] at h
  cases h
  exact ⟨rfl, rfl, rfl⟩

theorem restores_literal {bs rest : List Byte} {i : Instr}
    (h : decode .literal bs = .ok (i, rest)) : Restores .literal bs rest i := by
  rcases bs with _ | ⟨v, bs⟩ <;> simp only [decode, decodeLiteral, reduceCtorEq] at h
  cases h
  exact ⟨rfl, rfl, rfl⟩

theorem restores_match10 {bs rest : List Byte} {i : Instr}
    (h : decode .match10 bs = .ok (i, rest)) : Restores .match10 bs rest i := by
  rcases bs with _ | ⟨b0, _ | ⟨b1, bs⟩⟩ <;> simp only [decode, decodeMatch10, reduceCtorEq] at h
  cases h
  exact ⟨by simp [encode], rfl, rfl⟩

theorem restores_e8 {b0 : Byte} {bs rest : List Byte} {i : Instr} (h0 : hiNibble b0 = 0x0#4)
    (h : decodeE8 b0 bs = .ok (i, rest)) : Restores .match11 (b0 :: bs) rest i := by
  rcases bs with _ | ⟨b1, _ | ⟨b2, bs⟩⟩ <;> simp only [decodeE8, reduceCtorEq] at h
  cases h
  refine ⟨?_, rfl, rfl⟩
  rw [encode, extractLsb'_append_high, extractLsb'_append_low, ← h0]
  simp

theorem restores_e16 {b0 : Byte} {bs rest : List Byte} {i : Instr} (h1 : hiNibble b0 = 0x1#4)
    (h : decodeE16 b0 bs = .ok (i, rest)) : Restores .match11 (b0 :: bs) rest i := by
  rcases bs with _ | ⟨b1, _ | ⟨b2, _ | ⟨b3, bs⟩⟩⟩ <;> simp only [decodeE16, reduceCtorEq] at h
  cases h
  obtain ⟨ha, hb, hc⟩ := lengthField_parts (loNibble b0) b1 (hiNibble b2)
  refine ⟨?_, rfl, rfl⟩
  rw [encode, ha, hb, hc, ← h1]
  simp

theorem restores_s {b0 : Byte} {bs rest : List Byte} {i : Instr} (h0 : hiNibble b0 ≠ 0x0#4)
    (h1 : hiNibble b0 ≠ 0x1#4) (h : decodeS b0 bs = .ok (i, rest)) :
    Restores .match11 (b0 :: bs) rest i := by
  rcases bs with _ | ⟨b1, bs⟩ <;> simp only [decodeS, reduceCtorEq] at h
  cases h
  refine ⟨by simp [encode], rfl, decide_eq_true ?_⟩
  rw [ne_eq, ← BitVec.toNat_inj] at h0 h1
  simp only [BitVec.toNat_ofNat] at h0 h1
  omega

theorem restores_match11 {bs rest : List Byte} {i : Instr}
    (h : decode .match11 bs = .ok (i, rest)) : Restores .match11 bs rest i := by
  rcases bs with _ | ⟨b0, bs⟩ <;> simp only [decode, decodeMatch11, reduceCtorEq] at h
  split_ifs at h with h0 h1
  · exact restores_e8 h0 h
  · exact restores_e16 h1 h
  · exact restores_s h0 h1 h

theorem restores_trailer {bs rest : List Byte} {i : Instr}
    (h : decode .trailer bs = .ok (i, rest)) : Restores .trailer bs rest i := by
  rcases bs with
    _ | ⟨e0, _ | ⟨e1, _ | ⟨e2, _ | ⟨p, _ | ⟨s0, _ | ⟨s1, _ | ⟨s2, _ | ⟨s3, bs⟩⟩⟩⟩⟩⟩⟩⟩ <;>
    simp only [decode, decodeTrailer, reduceCtorEq] at h
  cases h
  obtain ⟨h0, h1, h2⟩ := bytes_le24 e0 e1 e2
  have hword := wordBytes_le32 s0 s1 s2 s3
  simp only [wordBytes, List.cons.injEq, and_true] at hword
  obtain ⟨w0, w1, w2, w3⟩ := hword
  exact ⟨by simp [encode, h0, h1, h2, w0, w1, w2, w3], rfl, rfl⟩

theorem restores_padding {bs rest : List Byte} {i : Instr}
    (h : decode .padding bs = .ok (i, rest)) : Restores .padding bs rest i := by
  rcases bs with _ | ⟨a, _ | ⟨b, _ | ⟨c, _ | ⟨d, bs⟩⟩⟩⟩ <;>
    simp only [decode, decodePadding, reduceCtorEq] at h
  · cases h
    exact ⟨rfl, rfl, rfl⟩
  · split_ifs at h with hff
    cases h
    subst hff
    exact ⟨rfl, rfl, rfl⟩
  · split_ifs at h with hff
    cases h
    obtain ⟨rfl, rfl⟩ := hff
    exact ⟨rfl, rfl, rfl⟩
  · split_ifs at h with hff
    cases h
    obtain ⟨rfl, rfl, rfl⟩ := hff
    exact ⟨rfl, rfl, rfl⟩

/-- The opcode rows, whose OVL bit is clear or theirs. -/
theorem encode_decodeOp : ∀ (ovl : Bool) (op : BitVec 4), ovl = false ∨ op = 0x2#4 →
    encode (decodeOp ovl op) = wordBytes (cmdWord 0 ovl op) ∧ (decodeOp ovl op).WellFormed := by
  decide

/-- A command word is the word of its row, and its row admits it. -/
theorem encode_decodeCmd (w : Word) :
    encode (decodeCmd w) = wordBytes w ∧ (decodeCmd w).WellFormed := by
  have hw := cmdWord_fields w
  unfold decodeCmd
  split
  case isTrue hrsvd => exact ⟨congrArg wordBytes hw, decide_eq_true hrsvd⟩
  case isFalse hrsvd =>
    rw [not_not.1 hrsvd] at hw
    split
    case isTrue hovl =>
      rw [hovl.1] at hw
      exact ⟨congrArg wordBytes hw, decide_eq_true hovl.2⟩
    case isFalse hovl =>
      obtain ⟨henc, hwf⟩ := encode_decodeOp _ _ (Machine.not_ovlMisused_iff.1 hovl)
      exact ⟨henc.trans (congrArg wordBytes hw), hwf⟩

theorem restores_command {bs rest : List Byte} {i : Instr}
    (h : decode .command bs = .ok (i, rest)) : Restores .command bs rest i := by
  rcases bs with _ | ⟨b0, _ | ⟨b1, _ | ⟨b2, _ | ⟨b3, bs⟩⟩⟩⟩ <;>
    simp only [decode, decodeCommand, reduceCtorEq] at h
  cases h
  obtain ⟨henc, hwf⟩ := encode_decodeCmd (le32 b0 b1 b2 b3)
  exact ⟨by rw [henc, wordBytes_le32]; rfl, Machine.decodeCmd_slot _, hwf⟩

/-- Settles O58: slot by slot. -/
theorem encodeInvertsDecode : Obligations.EncodeInvertsDecode := by
  intro slot bs rest i h
  cases slot with
  | header => exact restores_header h
  | flag => exact restores_flag h
  | literal => exact restores_literal h
  | match10 => exact restores_match10 h
  | match11 => exact restores_match11 h
  | trailer => exact restores_trailer h
  | padding => exact restores_padding h
  | command => exact restores_command h

/-- Settles O59: the sample words, evaluated. -/
theorem sampleWordsDecode : Obligations.SampleWordsDecode := by
  unfold Obligations.SampleWordsDecode
  decide

end Sys2Proof

/-! # The packer (44_encoder.md R218 to R224) -/

namespace Sys2Proof.Machine

/-! ## What it accepts -/

theorem packToken_v10 {dx len disp : Nat} (hlen : 3 ≤ len) (hmax : len ≤ 18) (hlow : dx ≤ disp)
    (hhigh : disp ≤ 4095 + dx) :
    packToken .v10 dx (.matchRef len disp) =
      .ok (encode (.m10 (BitVec.ofNat 4 (len - 3)) (BitVec.ofNat 12 (disp - dx)))) := by
  have hdisp : ¬ (disp < dx ∨ 0xFFF < disp - dx) := by omega
  have hrange : ¬ (len < 3 ∨ 18 < len) := by omega
  simp only [packToken, packM10, if_neg hdisp, if_neg hrange]

theorem packToken_v11_s (dx : Nat) {len disp : Nat} (hlen : 3 ≤ len) (hmax : len ≤ 16)
    (hlow : 1 ≤ disp) (hhigh : disp ≤ 4096) :
    packToken .v11 dx (.matchRef len disp) =
      .ok (encode (.m11s (BitVec.ofNat 4 (len - 1)) (BitVec.ofNat 12 (disp - 1)))) := by
  have hdisp : ¬ (disp < 1 ∨ 0xFFF < disp - 1) := by omega
  simp only [packToken, packM11, if_neg hdisp, if_pos (And.intro hlen hmax)]

theorem packToken_v11_e8 (dx : Nat) {len disp : Nat} (hlen : 17 ≤ len) (hmax : len ≤ 272)
    (hlow : 1 ≤ disp) (hhigh : disp ≤ 4096) :
    packToken .v11 dx (.matchRef len disp) =
      .ok (encode (.m11e8 (BitVec.ofNat 8 (len - 0x11)) (BitVec.ofNat 12 (disp - 1)))) := by
  have hdisp : ¬ (disp < 1 ∨ 0xFFF < disp - 1) := by omega
  have htier : ¬ (3 ≤ len ∧ len ≤ 16) := by omega
  simp only [packToken, packM11, if_neg hdisp, if_neg htier, if_pos (And.intro hlen hmax)]

theorem packToken_v11_e16 (dx : Nat) {len disp : Nat} (hlen : 273 ≤ len) (hmax : len ≤ 65808)
    (hlow : 1 ≤ disp) (hhigh : disp ≤ 4096) :
    packToken .v11 dx (.matchRef len disp) =
      .ok (encode (.m11e16 (BitVec.ofNat 16 (len - 0x111)) (BitVec.ofNat 12 (disp - 1)))) := by
  have hdisp : ¬ (disp < 1 ∨ 0xFFF < disp - 1) := by omega
  have htier2 : ¬ (3 ≤ len ∧ len ≤ 16) := by omega
  have htier0 : ¬ (17 ≤ len ∧ len ≤ 272) := by omega
  simp only [packToken, packM11, if_neg hdisp, if_neg htier2, if_neg htier0,
    if_pos (And.intro hlen hmax)]

/-! ## The fields it writes hold the match -/

/-- A count above its format's base, written to a field that holds the difference, is read back. -/
theorem toNat_ofNat_sub_add {w n base : Nat} (hbase : base ≤ n) (hfits : n - base < 2 ^ w) :
    (BitVec.ofNat w (n - base)).toNat + base = n := by
  rw [BitVec.toNat_ofNat, Nat.mod_eq_of_lt hfits]
  omega

theorem matchOf_packed_v10 (s : State) {len disp : Nat} (hlen : 3 ≤ len) (hmax : len ≤ 18)
    (hlow : s.dispExtra ≤ disp) (hhigh : disp ≤ 4095 + s.dispExtra) :
    matchOf s (.m10 (BitVec.ofNat 4 (len - 3)) (BitVec.ofNat 12 (disp - s.dispExtra))) =
      some (len, disp) := by
  rw [matchOf, toNat_ofNat_sub_add hlen (by omega), toNat_ofNat_sub_add hlow (by omega)]

/-- Settles O38: variant 10 at once, variant 11 in the tier of the length; each format's bytes are
read back as its instruction, whose fields hold the match. -/
theorem packedMatchesDecode : Obligations.PackedMatchesDecode := by
  refine fun s len disp rest hlen => ⟨fun hmax hlow hhigh => ?_, fun hmax hlow hhigh => ?_⟩
  · exact ⟨_, _, packToken_v10 hlen hmax hlow hhigh, rfl, decode_match10_encode _ _ rest,
      matchOf_packed_v10 s hlen hmax hlow hhigh⟩
  · have hdisp : (BitVec.ofNat 12 (disp - 1)).toNat + 1 = disp :=
      toNat_ofNat_sub_add hlow (by omega)
    by_cases hs : len ≤ 16
    · have hind : (BitVec.ofNat 4 (len - 1)).toNat + 1 = len :=
        toNat_ofNat_sub_add (by omega) (by omega)
      refine ⟨_, _, packToken_v11_s _ hlen hs hlow hhigh, by rw [if_pos hs]; rfl,
        decode_match11_s (by omega) _ rest, ?_⟩
      rw [matchOf, hind, hdisp]
    by_cases he8 : len ≤ 272
    · refine ⟨_, _, packToken_v11_e8 _ (by omega) he8 hlow hhigh,
        by rw [if_neg hs, if_pos he8]; rfl, decode_match11_e8 _ _ rest, ?_⟩
      rw [matchOf, toNat_ofNat_sub_add (by omega) (by omega), hdisp]
    · refine ⟨_, _, packToken_v11_e16 _ (by omega) hmax hlow hhigh,
        by rw [if_neg hs, if_neg he8]; rfl, decode_match11_e16 _ _ rest, ?_⟩
      rw [matchOf, toNat_ofNat_sub_add (by omega) (by omega), hdisp]

/-! ## What it refuses -/

/-- Settles O39: the displacement's test stands first, and past it no tier holds the length. -/
theorem packerRefusesOutOfRange : Obligations.PackerRefusesOutOfRange := by
  refine fun dx len disp => ⟨fun hdisp => ?_, fun hlow hhigh hlen => ?_, fun hdisp => ?_,
    fun hlow hhigh hlen => ?_⟩
  · have h : disp < dx ∨ 0xFFF < disp - dx := by omega
    simp only [packToken, packM10, if_pos h]
  · have h : ¬ (disp < dx ∨ 0xFFF < disp - dx) := by omega
    simp only [packToken, packM10, if_neg h, if_pos hlen]
  · have h : disp < 1 ∨ 0xFFF < disp - 1 := by omega
    simp only [packToken, packM11, if_pos h]
  · have h : ¬ (disp < 1 ∨ 0xFFF < disp - 1) := by omega
    have hs : ¬ (3 ≤ len ∧ len ≤ 16) := by omega
    have he8 : ¬ (17 ≤ len ∧ len ≤ 272) := by omega
    have he16 : ¬ (273 ≤ len ∧ len ≤ 65808) := by omega
    simp only [packToken, packM11, if_neg h, if_neg hs, if_neg he8, if_neg he16]

/-! ## The flag byte -/

/-- The bit a token at place `j` of a group sets, read at place `i`. -/
theorem tokenBit_getLsbD (t : Token) {j i : Nat} (hj : j < 8) (hi : i < 8) :
    (if isMatch t then 1#8 <<< (7 - j) else 0).getLsbD (7 - i) = (decide (i = j) && isMatch t) := by
  cases isMatch t with
  | false => simp
  | true =>
    have hlow : (1#8 <<< (7 - j)).getLsbD (7 - i) = decide (i = j) := by
      rw [BitVec.getLsbD_shiftLeft, BitVec.getLsbD_one]
      by_cases h : i = j
      · simp only [h, decide_true]
        grind
      · simp only [h, decide_false]
        grind
    simpa using hlow

/-- Place `i` of a group that starts at place `j` is set exactly where a match stands there. -/
theorem flagByte_getLsbD {ts : List Token} {j i : Nat} (hfits : j + ts.length ≤ 8) (hi : i < 8) :
    (flagByte ts j).getLsbD (7 - i) = (decide (j ≤ i) && ts[i - j]?.any isMatch) := by
  induction ts generalizing j with
  | nil => simp [flagByte]
  | cons t ts ih =>
    rw [List.length_cons] at hfits
    rw [flagByte, BitVec.getLsbD_or, tokenBit_getLsbD t (by omega) hi, ih (by omega)]
    obtain hlt | rfl | hgt := Nat.lt_trichotomy i j
    · simp [Nat.not_le.2 hlt, Nat.ne_of_lt hlt, show ¬ j + 1 ≤ i by omega]
    · simp
    · obtain ⟨k, rfl⟩ := Nat.exists_eq_add_of_lt hgt
      simp [show j + k + 1 ≠ j by omega, show j + k + 1 - (j + 1) = k by omega,
        show j + k + 1 - j = k + 1 by omega, show j + 1 ≤ j + k + 1 by omega,
        show j ≤ j + k + 1 by omega]

/-- Settles O40: by the bit each token sets. -/
theorem flagByteMarksMatches : Obligations.FlagByteMarksMatches := by
  intro ts j hlength hj
  rw [flagByte_getLsbD (by omega) hj]
  cases h : ts[j]? with
  | none => simp
  | some t => cases t <;> simp [isMatch]

end Sys2Proof.Machine

/-! # The match finder's tokens (43_match_finder.md R192 to R199) -/

namespace Sys2Proof.Machine

/-! ## The cyclic comparison against the input -/

/-- The window byte of a comparison is the input byte that index stands for. -/
theorem inp_eq_winByte {s : State} {d : Nat} (hs : WindowHolds s) (hpos : 1 ≤ d) (hd : d ≤ s.wfill)
    (n : Nat) : s.inp[s.pos - d + n % d]? = some (s.winByte (s.pos - d + n % d)) := by
  have hmod := Nat.mod_lt n hpos
  have hfill := hs.fill
  exact hs.bytes _ (by omega) (by omega)

theorem agrees_iff {s : State} {d : Nat} (hs : WindowHolds s) (hpos : 1 ≤ d) (hd : d ≤ s.wfill)
    (n : Nat) : s.agrees d n = true ↔ s.inp[s.pos + n]? = s.inp[s.pos - d + n % d]? := by
  rw [inp_eq_winByte hs hpos hd, State.agrees]
  cases s.inp[s.pos + n]? <;> simp

/-- While all bytes below agree, the byte `d` back is the cyclic one (43_match_finder.md R193). -/
theorem linear_eq_cyclic {s : State} {d n : Nat} (hs : WindowHolds s) (hpos : 1 ≤ d)
    (hd : d ≤ s.wfill) (hbelow : ∀ k, k < n → s.agrees d k = true) :
    s.inp[s.pos + n - d]? = s.inp[s.pos - d + n % d]? := by
  have hfill := hs.fill
  by_cases hn : n < d
  · rw [Nat.mod_eq_of_lt hn, show s.pos + n - d = s.pos - d + n by omega]
  · have hagrees := (agrees_iff hs hpos hd _).1 (hbelow (n - d) (by omega))
    rw [show s.pos + n - d = s.pos + (n - d) by omega, hagrees,
      ← Nat.mod_eq_sub_mod (Nat.le_of_not_lt hn)]

/-- Settles O34: the counting loop stops at the first disagreement, and the cyclic byte it compares
with is the one `d` back. -/
theorem matchLengthIsLinear : Obligations.MatchLengthIsLinear := by
  intro s d hs hpos hd
  obtain ⟨hcap, hbelow, hat⟩ := matchLen_spec s d
  refine ⟨hcap, fun k hk => ?_, fun hlt => ?_⟩
  · rw [linear_eq_cyclic hs hpos hd fun j hj => hbelow j (by omega)]
    exact (agrees_iff hs hpos hd k).1 (hbelow k hk)
  · rw [linear_eq_cyclic hs hpos hd hbelow, ne_eq, ← agrees_iff hs hpos hd, hat hlt]
    exact Bool.false_ne_true

/-! ## Tokens that stand for the input -/

/-- A match within the variant's ranges that repeats the input at index `p` (43_match_finder.md
R198, R199). -/
structure MatchAt (v : Variant) (b : List Byte) (p len disp : Nat) : Prop where
  minLen : 3 ≤ len
  maxLen : len ≤ matchMax v
  minDisp : 1 ≤ disp
  maxDisp : disp ≤ 4096
  behind : disp ≤ p
  inside : p + len ≤ b.length
  repeats : ∀ k, k < len → b[p + k]? = b[p + k - disp]?

/-- The token stands for the input's bytes from index `p` on. -/
inductive TokenAt (v : Variant) (b : List Byte) (p : Nat) : Token → Prop
  | literal (x : Byte) (h : b[p]? = some x) : TokenAt v b p (.literal x)
  | matchRef (len disp : Nat) (h : MatchAt v b p len disp) : TokenAt v b p (.matchRef len disp)

theorem TokenAt.count_pos {v : Variant} {b : List Byte} {p : Nat} {tok : Token}
    (h : TokenAt v b p tok) : 1 ≤ tok.count := by
  cases h with
  | literal x _ => exact Nat.le_refl 1
  | matchRef len disp h => exact Nat.le_trans (by decide) h.minLen

theorem TokenAt.inside {v : Variant} {b : List Byte} {p : Nat} {tok : Token}
    (h : TokenAt v b p tok) : p + tok.count ≤ b.length := by
  cases h with
  | literal x h => exact (List.getElem?_eq_some_iff.1 h).1
  | matchRef len disp h => exact h.inside

/-- The finder's matches repeat the input. -/
theorem matchAt_searchToken {s : State} {v : Byte} {n d : Nat} (hs : WindowHolds s)
    (hmin : 1 ≤ s.config.encDmin) (h : s.searchToken v = .matchRef n d) :
    MatchAt s.variant s.inp s.pos n d := by
  obtain ⟨rfl, hlen, l₁, l₂, hsplit, -, -⟩ := searchToken_eq_matchRef h
  obtain ⟨hlow, hhigh⟩ := mem_candidates.1 (show d ∈ s.candidates by simp [hsplit])
  have hpos : 1 ≤ d := Nat.le_trans hmin hlow
  obtain ⟨hcap, hrepeats, -⟩ := matchLengthIsLinear s d hs hpos hhigh
  have hfill := hs.fill
  simp only [matchMin, windowSize, State.matchCap] at hlen hcap hfill
  exact ⟨hlen, by omega, hpos, by omega, by omega, by omega, hrepeats⟩

theorem tokenAt_searchToken {s : State} {v : Byte} (hs : WindowHolds s)
    (hmin : 1 ≤ s.config.encDmin) (hv : s.inp[s.pos]? = some v) :
    TokenAt s.variant s.inp s.pos (s.searchToken v) := by
  cases h : s.searchToken v with
  | literal b =>
    obtain ⟨rfl, -⟩ := searchToken_eq_literal h
    exact .literal _ hv
  | matchRef n d => exact .matchRef n d (matchAt_searchToken hs hmin h)

/-! ## What a decoder makes of them -/

/-- A copy in an output that is the input's start gives a longer start of the input. -/
theorem copyMatch_take {v : Variant} {b : List Byte} {p len disp : Nat}
    (h : MatchAt v b p len disp) : copyMatch disp len (b.take p) = some (b.take (p + len)) := by
  have hinside := h.inside
  have hbehind := h.behind
  have hlength : (b.take p).length = p := by
    rw [List.length_take]
    omega
  obtain ⟨o, ho, hlen, hkept, hcopied⟩ :=
    copyMatch_spec disp len (b.take p) h.minDisp (by rw [hlength]; exact hbehind)
  rw [hlength] at hlen hkept hcopied
  have hbytes : ∀ a, a < p + len → o[a]? = b[a]? := by
    intro a
    induction a using Nat.strongRecOn with
    | ind a ih =>
      intro ha
      by_cases hold : a < p
      · rw [hkept a hold, List.getElem?_take_of_lt hold]
      · obtain ⟨k, rfl⟩ := Nat.exists_eq_add_of_le (Nat.le_of_not_lt hold)
        have hmin := h.minDisp
        rw [hcopied k (by omega), h.repeats k (by omega), ih _ (by omega) (by omega)]
  rw [ho]
  refine congrArg some (List.ext_getElem? fun a => ?_)
  by_cases ha : a < p + len
  · rw [hbytes a ha, List.getElem?_take_of_lt ha]
  · rw [List.getElem?_eq_none (by omega), List.getElem?_eq_none (by rw [List.length_take]; omega)]

/-- A decoder that holds the input up to the token's place holds it up to the token's end. -/
theorem emit_tokenAt {v : Variant} {b : List Byte} {p : Nat} {tok : Token} {d : State}
    (h : TokenAt v b p tok) (ho : d.op ≠ opVerify) (hout : d.out = b.take p)
    (hroom : p + tok.count ≤ d.size) :
    emit tok d =
      .next { d with out := b.take (p + tok.count), total := d.total + tok.count } := by
  cases h with
  | literal x hx =>
    rw [emit_decode_literal ho, hout, Token.count, List.take_add_one, hx]
    rfl
  | matchRef len disp h =>
    have hlength : d.out.length = p := by
      have := h.inside
      rw [hout, List.length_take]
      omega
    rw [Token.count] at hroom ⊢
    exact emit_decode_copy ho h.minDisp (by rw [hlength]; exact h.behind) (by omega)
      (by rw [hout]; exact copyMatch_take h)

/-! ## What the packer makes of them -/

theorem packToken_matchAt {v : Variant} {b : List Byte} {p len disp : Nat}
    (h : MatchAt v b p len disp) : ∃ bs, packToken v 1 (.matchRef len disp) = .ok bs := by
  obtain ⟨hlen, hmax, hlow, hhigh, -, -, -⟩ := h
  cases v with
  | v10 => exact ⟨_, packToken_v10 hlen hmax hlow (by omega)⟩
  | v11 =>
    by_cases hs : len ≤ 16
    · exact ⟨_, packToken_v11_s 1 hlen hs hlow hhigh⟩
    by_cases he8 : len ≤ 272
    · exact ⟨_, packToken_v11_e8 1 (by omega) he8 hlow hhigh⟩
    · exact ⟨_, packToken_v11_e16 1 (by omega) hmax hlow hhigh⟩

theorem packToken_tokenAt {v : Variant} {b : List Byte} {p : Nat} {tok : Token}
    (h : TokenAt v b p tok) : ∃ bs, packToken v 1 tok = .ok bs := by
  cases h with
  | literal x _ => exact ⟨_, rfl⟩
  | matchRef len disp h => exact packToken_matchAt h

/-! ## The obligations -/

/-- Settles O36: the finder's token stands for the input at POS. -/
theorem finderTokenReproducesInput : Obligations.FinderTokenReproducesInput := by
  intro s d v hs hmin hv ho hout hroom
  have htok := tokenAt_searchToken hs hmin hv
  exact ⟨_, emit_tokenAt htok ho hout hroom, rfl, htok.inside, rfl⟩

/-- Settles O37: a match repeats the input within the variant's ranges; a literal always packs. -/
theorem finderTokensArePackable : Obligations.FinderTokensArePackable := by
  refine fun s v hs hmin => ⟨?_, fun n d h => ?_⟩
  · cases h : s.searchToken v with
    | literal b => exact ⟨_, rfl⟩
    | matchRef n d => exact packToken_matchAt (matchAt_searchToken hs hmin h)
  · have hmatch := matchAt_searchToken hs hmin h
    exact ⟨hmatch.minLen, hmatch.maxLen, hmatch.minDisp, hmatch.maxDisp⟩

end Sys2Proof.Machine

/-! # The host's accesses (20_memory.md R67, 46_commands.md R266, R269, 70_reset_and_hazards.md
R310) -/

namespace Sys2Proof.Machine

/-- Settles O2: `hostReset`, field by field. -/
theorem hostResetAbandonsAnyCommand : Obligations.HostResetAbandonsAnyCommand := by
  intro s
  refine ⟨hostReset s, ?_⟩
  and_intros <;> rfl

theorem wholeWord_eq_false {off width : Nat} (h : width ≠ 4 ∨ off % 4 ≠ 0) :
    wholeWord off width = false := by
  simp only [wholeWord, Bool.and_eq_false_iff, decide_eq_false_iff_not]
  exact h

/-- Settles O6: both accesses test for a whole aligned word first. -/
theorem narrowAccessesAreRefused : Obligations.NarrowAccessesAreRefused := by
  intro s off width v h
  have hnarrow := wholeWord_eq_false h
  exact ⟨if_pos hnarrow, if_pos hnarrow⟩

theorem visibleOut_of_done {s : State} (h : s.st = .done) : s.visibleOut = s.out := by
  simp [State.visibleOut, h]

theorem visibleOut_of_ne {s : State} (h : s.st ≠ .done) : s.visibleOut = [] := by
  cases hst : s.st with
  | done => exact absurd hst h
  | _ => simp [State.visibleOut, hst]

/-- Settles O8: the read takes its part of what the port shows in the state. -/
theorem outputIsVisibleAtDoneOnly : Obligations.OutputIsVisibleAtDoneOnly := by
  intro s start count
  refine ⟨readOutput start count s, rfl, rfl, fun h => ?_, fun h k hk => ?_, fun h => ?_⟩
  · simp [readOutput, visibleOut_of_ne h]
  · simp [readOutput, visibleOut_of_done h, List.getElem?_take_of_lt hk]
  · simp [readOutput, visibleOut_of_done h]

/-! ## Writes while BUSY -/

theorem hostAct_writeCmd (w : Word) (s : State) :
    hostAct (.writeReg 0x00 4 w) s = exec (decodeCmd w) s := by
  simp [hostAct, wholeWord, offCmd]

theorem exec_decodeCmd_busy {s : State} (h : s.busy = true) (w : Word) :
    exec (decodeCmd w) s = .next s := by
  obtain ⟨t, ht, hc⟩ := exec_decodeCmd_spec w s
  cases hc with
  | ignored _ => exact ht
  | illegal _ _ hidle => simp [hidle] at h
  | raw _ _ hidle _ => simp [hidle] at h
  | framed _ hidle _ => simp [hidle] at h
  | whole _ hidle _ => simp [hidle] at h

/-- Settles O9: a command word is turned away, and so is a RAWSIZE. -/
theorem busyWritesAreIgnored : Obligations.BusyWritesAreIgnored := by
  intro s w h
  refine ⟨exec_decodeCmd_busy h w, by rw [hostAct_writeCmd, exec_decodeCmd_busy h], ?_⟩
  rw [hostAct_writeReg s w rfl (by decide), writeRegister_rawsize_busy w h]

end Sys2Proof.Machine

/-! # The rows of the command words (46_commands.md R260 to R262, 60_exceptions.md R297) -/

namespace Sys2Proof.Machine

theorem entersIllegal_of_issueIllegal {i : Instr} {op : BitVec 4} {ovl : Bool}
    (h : ∀ s, exec i s = issueIllegal op ovl s) : EntersIllegal i op ovl := fun s hidle =>
  ⟨_, (h s).trans (issueIllegal_of_not_busy op ovl hidle),
    errorRecord_raise_countless (by decide) rfl,
    freshCommand_raise _ _ _ (freshCommand_commandInit op ovl s)⟩

/-- Settles O11: each row's meaning is `issueIllegal` of its opcode and OVL bit. -/
theorem illegalRowsTakeTheErrorEntry : Obligations.IllegalRowsTakeTheErrorEntry := by
  unfold Obligations.IllegalRowsTakeTheErrorEntry
  and_intros <;> intros <;> exact entersIllegal_of_issueIllegal fun _ => rfl

/-- A legal row that only puts the command in its first phase. -/
theorem starts_of_issue {i : Instr} {op : BitVec 4} {ovl : Bool} {start : State → State}
    {p : Phase} {s : State} (hi : exec i s = issue op ovl start s) (hidle : s.busy = false)
    (hstart : start (commandInit op ovl s) = { commandInit op ovl s with st := .busy p }) :
    Starts i op ovl p s := by
  rw [issue_of_not_busy op ovl start hidle, hstart] at hi
  exact ⟨_, hi, rfl, freshCommand_withSt _ (freshCommand_commandInit op ovl s),
    cleanRegisters_commandInit op ovl s _, rfl⟩

/-- Settles O13: each row starts in the phase that reads its input. -/
theorem commandsAwaitTheirInput : Obligations.CommandsAwaitTheirInput := fun _ hidle =>
  ⟨starts_of_issue rfl hidle rfl, starts_of_issue rfl hidle rfl, starts_of_issue rfl hidle rfl,
    starts_of_issue rfl hidle rfl, starts_of_issue rfl hidle rfl⟩

/-! ## The raw decodes -/

theorem size_commandInit_raw {op : BitVec 4} (hop : op = opDecodeRaw10 ∨ op = opDecodeRaw11)
    (ovl : Bool) (s : State) : (commandInit op ovl s).size = s.rawsize.toNat := by
  rw [commandInit_size, startSize, if_pos hop]

theorem starts_raw {i : Instr} {op : BitVec 4} {ovl : Bool} {s : State}
    (hop : op = opDecodeRaw10 ∨ op = opDecodeRaw11) (hi : exec i s = issue op ovl startDecode s)
    (hidle : s.busy = false) (hroom : s.overOut s.rawsize.toNat = false) :
    Starts i op ovl .tokens s := by
  refine starts_of_issue hi hidle ?_
  obtain ⟨-, h⟩ | ⟨hfull, -⟩ := startDecode_spec (commandInit op ovl s)
  · exact h
  · rw [size_commandInit_raw hop, overOut_congr (commandInit_config op ovl s), hroom] at hfull
    cases hfull

theorem raw_full {i : Instr} {op : BitVec 4} {ovl : Bool} {s : State}
    (hop : op = opDecodeRaw10 ∨ op = opDecodeRaw11) (hi : exec i s = issue op ovl startDecode s)
    (hidle : s.busy = false) (hfull : s.overOut s.rawsize.toNat = true) :
    ∃ t, exec i s = .next t ∧ ErrorRecord t .formatCapacity 0 0xFFFFFFFF#32 0 := by
  rw [issue_of_not_busy op ovl startDecode hidle] at hi
  refine ⟨_, hi, ?_⟩
  obtain ⟨hroom, -⟩ | ⟨-, h⟩ := startDecode_spec (commandInit op ovl s)
  · rw [size_commandInit_raw hop, overOut_congr (commandInit_config op ovl s), hfull] at hroom
    cases hroom
  · rw [h]
    exact errorRecord_raise_countless (by decide) rfl

/-- Settles O14: by the capacity test of `Decode`'s start, for both opcodes. -/
theorem rawCommandsStartTokens : Obligations.RawCommandsStartTokens := fun _ _ hidle =>
  ⟨fun hroom => ⟨starts_raw (.inl rfl) rfl hidle hroom, starts_raw (.inr rfl) rfl hidle hroom⟩,
    fun hfull => ⟨raw_full (.inl rfl) rfl hidle hfull, raw_full (.inr rfl) rfl hidle hfull⟩⟩

end Sys2Proof.Machine

/-! # Headers that start their command (41_decoder.md R155, 45_verifier.md R240, R241) -/

namespace Sys2Proof.Machine

theorem acceptHeader_decode (v : Variant) (size : BitVec 24) {s : State} (ho : s.op ≠ opVerify) :
    acceptHeader v size s = .next (startDecode (headerState v size s)) :=
  congrArg Host.Outcome.next (if_neg ho)

theorem acceptHeader_verify (v : Variant) (size : BitVec 24) {s : State} (ho : s.op = opVerify) :
    acceptHeader v size s = .next (startVerify (headerState v size s)) :=
  congrArg Host.Outcome.next (if_pos ho)

theorem acceptHeader_fits (v : Variant) {size : BitVec 24} {s : State} (ho : s.op ≠ opVerify)
    (hroom : s.overOut size.toNat = false) :
    acceptHeader v size s = .next { s with
      variant := v, size := size.toNat, dispExtra := 1, ip := s.ip + 4, inPort := portAfter 4 s,
      out := [], total := 0, fcnt := 0, fpos := none, st := .busy .tokens } := by
  rw [acceptHeader_decode v size ho]
  obtain ⟨-, h⟩ | ⟨hfull, -⟩ := startDecode_spec (headerState v size s)
  · rw [h]
    rfl
  · exact absurd (hroom.symm.trans hfull) (by decide)

theorem acceptHeader_full (v : Variant) {size : BitVec 24} {s : State} (ho : s.op ≠ opVerify)
    (hfull : s.overOut size.toNat = true) : ∃ t, acceptHeader v size s = .next t ∧
      ErrorRecord t .formatCapacity 0 0xFFFFFFFF#32 0 := by
  rw [acceptHeader_decode v size ho]
  refine ⟨_, rfl, ?_⟩
  obtain ⟨hroom, -⟩ | ⟨-, h⟩ := startDecode_spec (headerState v size s)
  · exact absurd (hfull.symm.trans hroom) (by decide)
  · rw [h]
    exact errorRecord_raise_countless (by decide) rfl

/-- Settles O15: both headers alike, by the command and, for a decode, the capacity test. -/
theorem headerStartsItsCommand : Obligations.HeaderStartsItsCommand := fun _ size =>
  ⟨fun ho hroom => ⟨acceptHeader_fits .v10 ho hroom, acceptHeader_fits .v11 ho hroom⟩,
    fun ho hfull => ⟨acceptHeader_full .v10 ho hfull, acceptHeader_full .v11 ho hfull⟩,
    fun ho => ⟨acceptHeader_verify .v10 size ho, acceptHeader_verify .v11 size ho⟩⟩

end Sys2Proof.Machine

/-! # The input port (46_commands.md R268, 60_exceptions.md R296, 42_overlay.md R176) -/

namespace Sys2Proof.Machine

theorem portView_bytes (bs : List Byte) :
    portView (bs.map InAnswer.byte) = { bytes := bs, stop := .wait } := by
  induction bs with
  | nil => rfl
  | cons b bs ih => simp only [List.map_cons, portView, ih]

theorem portView_bytes_eoi (bs : List Byte) (later : List InAnswer) :
    portView (bs.map InAnswer.byte ++ .eoi :: later) = { bytes := bs, stop := .eoi } := by
  induction bs with
  | nil => rfl
  | cons b bs ih => simp only [List.map_cons, List.cons_append, portView, ih]

theorem view_port {s : State} (h : s.readsSrc = false) :
    s.view = (portView s.inPort).capped (s.config.maxIn.map fun m => m - s.ip) := by
  simp [State.view, h]

/-- Answers within MAX_IN are all readable. -/
theorem view_of_room {s : State} (hsrc : s.readsSrc = false)
    (hroom : ∀ m, s.config.maxIn = some m → (portView s.inPort).bytes.length ≤ m - s.ip) :
    s.view = portView s.inPort := by
  rw [view_port hsrc]
  cases hmax : s.config.maxIn with
  | none => rfl
  | some m => exact if_pos (hroom m hmax)

/-- Answers past MAX_IN are cut where it is full. -/
theorem view_of_full {s : State} {m : Nat} (hsrc : s.readsSrc = false)
    (hmax : s.config.maxIn = some m) (hfull : m - s.ip < (portView s.inPort).bytes.length) :
    s.view = { bytes := (portView s.inPort).bytes.take (m - s.ip), stop := .full } := by
  rw [view_port hsrc, hmax]
  exact if_neg (Nat.not_le.2 hfull)

/-- Settles O17: the view, answer by answer; then the two steps that find the input cut. -/
theorem portDeliversAnswersInOrder : Obligations.PortDeliversAnswersInOrder := by
  refine ⟨fun s bs later => ⟨view_src, fun hsrc hroom => ⟨fun hport => ?_, fun hport => ?_⟩,
    fun m hsrc hmax hfull hport => ?_⟩, fun s hturn ho hstop =>
      ⟨fun hst hshort => ?_, fun e hst hbefore hdecode => ?_⟩⟩
  · have hview := (congrArg portView hport).trans (portView_bytes bs)
    rw [view_of_room hsrc (by rw [hview]; exact hroom), hview]
  · have hview := (congrArg portView hport).trans (portView_bytes_eoi bs later)
    rw [view_of_room hsrc (by rw [hview]; exact hroom), hview]
  · have hbytes : (portView s.inPort).bytes = bs := by
      obtain hport | hport := hport <;> simp [hport, portView_bytes, portView_bytes_eoi]
    rw [view_of_full hsrc hmax (by rw [hbytes]; exact hfull), hbytes]
  · refine ⟨_, step_header hturn hst (headerStep_full ?_ (by simpa using hstop)),
      errorRecord_raise_countless (by decide) rfl⟩
    rw [view_countDelay, decode_header_short hshort]
  · obtain ⟨u, hu, hstep⟩ := step_tokens hturn hst hbefore
    rw [← hu.view] at hdecode hstop
    exact ⟨_, hstep _ (runUnit_full hdecode hstop), errorRecord_raise_countless (by decide) rfl⟩

end Sys2Proof.Machine

/-! # The tokens' effects (40_tokenizer.md R122 to R127, 41_decoder.md R152, 45_verifier.md R242) -/

namespace Sys2Proof.Machine

/-- Settles O18: the byte is taken, then FPOS is where it stood. -/
theorem flagByteLoadsFlags : Obligations.FlagByteLoadsFlags := by
  intro s f
  simp only [exec, execFlag, loadFlags, consume_eq_portAfter, Nat.add_sub_cancel]

/-- A token takes as many bytes as its encoding has. -/
theorem TokenInstr.length_encode {dx : Nat} {i : Instr} {tok : Token} {n : Nat}
    (h : TokenInstr dx i tok n) : (encode i).length = n := by
  cases h <;> rfl

/-- A match form takes the bytes of its encoding and emits its match. -/
theorem exec_matchOf {s : State} {i : Instr} {len disp : Nat}
    (h : matchOf s i = some (len, disp)) :
    exec i s = emit (.matchRef len disp) (consume (encode i).length s) := by
  obtain ⟨n, hi⟩ := tokenInstr_of_matchOf h
  rw [hi.length_encode]
  exact exec_token hi

/-- The copy repeats the `disp` bytes before it (41_decoder.md R153). -/
theorem copyMatch_cyclic {disp len : Nat} {out o : List Byte} (hpos : 1 ≤ disp)
    (hdisp : disp ≤ out.length) (hkept : ∀ a, a < out.length → o[a]? = out[a]?)
    (hcopied : ∀ k, k < len → o[out.length + k]? = o[out.length + k - disp]?) :
    ∀ k, k < len → o[out.length + k]? = out[out.length - disp + k % disp]? := by
  intro k
  induction k using Nat.strongRecOn with
  | ind k ih =>
    intro hk
    rw [hcopied k hk]
    by_cases hlt : k < disp
    · rw [hkept _ (by omega), Nat.mod_eq_of_lt hlt]
      congr 1
      omega
    · rw [show out.length + k - disp = out.length + (k - disp) by omega,
        ih (k - disp) (by omega) (by omega), ← Nat.mod_eq_sub_mod (Nat.le_of_not_lt hlt)]

/-- Settles O20: the match is taken and its copy made, which is cyclic. -/
theorem matchCopiesCyclically : Obligations.MatchCopiesCyclically := by
  intro s i len disp hmatch ho hpos hdisp hroom
  obtain ⟨o, hcopy, hlength, hkept, hcopied⟩ := copyMatch_spec disp len s.out hpos hdisp
  rw [exec_matchOf hmatch]
  exact ⟨_, emit_decode_copy (s := consume _ s) ho hpos hdisp hroom hcopy, rfl, hlength, hkept,
    copyMatch_cyclic hpos hdisp hkept hcopied⟩

/-- Settles O21: the verifier's two accepting cases, on the state with the token's bytes taken. -/
theorem verifierCountsTokens : Obligations.VerifierCountsTokens := by
  refine fun s ho => ⟨fun v => ?_, fun i len disp hmatch hpos hdisp => ?_⟩
  · exact (exec_token (.lit v)).trans (emit_verify_literal (s := consume 1 s) ho v)
  · rw [exec_matchOf hmatch]
    exact emit_verify_match (s := consume _ s) ho hpos hdisp

/-! ## Decoder and verifier on one token (45_verifier.md R244) -/

/-- What the two consumers make of one token, read at the same place of one stream. -/
inductive EmitPair (tok : Token) (d v : State) : State → State → Prop
  | accepted (o : List Byte) (hlength : o.length = d.out.length + tok.count)
      (hroom : d.total + tok.count ≤ d.size) :
      EmitPair tok d v { d with out := o, total := d.total + tok.count }
        { v with total := v.total + tok.count }
  | outOfRange :
      EmitPair tok d v (raise .decodeDispRange d.tpos d.fpos d)
        (raise .verifyDispBeforeStart v.tpos v.fpos v)
  | overrun (hpast : d.size < d.total + tok.count) :
      EmitPair tok d v (raise .decodeOverrun d.tpos d.fpos d)
        { v with total := v.total + tok.count }

theorem emit_pair {tok : Token} {d v : State} (hd : d.op ≠ opVerify) (hv : v.op = opVerify)
    (hlength : d.total = d.out.length) (htotal : v.total = d.total) (hbefore : d.total < d.size)
    (hpos : ∀ n m, tok = .matchRef n m → 1 ≤ m) :
    ∃ d' v', emit tok d = .next d' ∧ emit tok v = .next v' ∧ EmitPair tok d v d' v' := by
  cases tok with
  | literal b =>
    exact ⟨_, _, emit_decode_literal hd b, emit_verify_literal hv b,
      .accepted (tok := .literal b) _ List.length_append hbefore⟩
  | matchRef len disp =>
    have hdisp := hpos len disp rfl
    by_cases hrange : d.out.length < disp
    · exact ⟨_, _, emit_decode_range hd (.inr hrange), emit_verify_before hv hdisp (by omega),
        .outOfRange⟩
    have hverify := emit_verify_match (len := len) hv hdisp (by omega)
    by_cases hpast : d.size < d.out.length + len
    · exact ⟨_, _, emit_decode_overrun hd hdisp (by omega) hpast, hverify,
        .overrun (tok := .matchRef len disp) (by rw [hlength]; exact hpast)⟩
    · obtain ⟨o, hcopy, hcopied, -, -⟩ := copyMatch_spec disp len d.out hdisp (by omega)
      exact ⟨_, _, emit_decode_copy hd hdisp (by omega) (by omega) hcopy, hverify,
        .accepted (tok := .matchRef len disp) o hcopied (by rw [hlength, Token.count]; omega)⟩

/-- Settles O24: the three outcomes; where both end, both record the token's offset, the flag byte's
and the count. -/
theorem decoderAndVerifierAgreePerToken : Obligations.DecoderAndVerifierAgreePerToken := by
  intro d v tok hd hv hlength htotal hsize htpos hfpos hfit hbefore hpos
  obtain ⟨d', v', hd', hv', hpair⟩ := emit_pair hd hv hlength htotal hbefore hpos
  refine ⟨d', v', hd', hv', ?_⟩
  cases hpair with
  | accepted o hout hroom =>
    exact .inl ⟨rfl, rfl, congrArg (· + tok.count) htotal, by simp only [hout, hlength], hroom⟩
  | outOfRange =>
    have hfpos' := offsetWord_fpos hfit
    obtain ⟨-, htposFits, htotalFits, -⟩ := hfit
    refine .inr (.inl ⟨rfl, rfl, rfl, rfl, rfl, rfl, ?_, ?_, ?_⟩)
    · simp [htpos, htposFits]
    · simp [hfpos, hfpos']
    · simp [ErrCode.resultAt, htotal, htotalFits]
  | overrun hpast => exact .inr (.inr ⟨rfl, rfl, rfl, rfl, by simpa [hsize, htotal] using hpast⟩)

end Sys2Proof.Machine

/-! # Steps that run one decoded unit (40_tokenizer.md R121, R132) -/

namespace Sys2Proof.Machine

theorem runUnit_ok {slot : Slot} {s : State} {i : Instr} {rest : List Byte}
    (h : decode slot s.view.bytes = .ok (i, rest)) : runUnit slot s = some (exec i s) := by
  simp only [runUnit, h]

@[simp] theorem tokenSlot_countDelay (s : State) : (countDelay s).tokenSlot = s.tokenSlot := by
  simp [State.tokenSlot]

theorem tokenStep_flag {s : State} (hbefore : s.total < s.size) (hf : s.fcnt = 0) :
    tokenStep s = runUnit .flag s := by
  rw [tokenStep, if_neg (Nat.not_le.2 hbefore), if_pos hf]

theorem tokenStep_token {s : State} (hbefore : s.total < s.size) (hf : s.fcnt ≠ 0) :
    tokenStep s = runUnit s.tokenSlot (takeFlagBit s) := by
  rw [tokenStep, if_neg (Nat.not_le.2 hbefore), if_neg hf]

theorem engine_tokens {s : State} (hst : s.st = .busy .tokens) : engine s = tokenStep s := by
  simp only [engine, hst]

/-- Settles O25: the flag byte where no flag bit is left, else the token after its bit is taken. -/
theorem stepRunsDecodedUnit : Obligations.StepRunsDecodedUnit := by
  intro s i rest hturn hst hbefore hdecode
  have hbefore' : (countDelay s).total < (countDelay s).size := by simpa using hbefore
  have hdecode' : decode s.tokenSlot (countDelay s).view.bytes = .ok (i, rest) := by
    simpa using hdecode
  refine ⟨fun hf => step_engine hturn ?_, fun hf => step_engine hturn ?_⟩
  · rw [engine_tokens (by simpa using hst), tokenStep_flag hbefore' (by simpa using hf)]
    rw [State.tokenSlot, if_pos hf] at hdecode'
    exact runUnit_ok hdecode'
  · rw [engine_tokens (by simpa using hst), tokenStep_token hbefore' (by simpa using hf),
      tokenSlot_countDelay, runUnit_ok (by simpa using hdecode), takeFlagBit]
    simp

/-! ## Framing and commands -/

theorem headerStep_ok {s : State} {i : Instr} {rest : List Byte}
    (h : decode .header s.view.bytes = .ok (i, rest)) : headerStep s = some (exec i s) := by
  simp only [headerStep, h]

theorem trailerStep_ok {s : State} {i : Instr} {rest : List Byte} (hlen : 8 ≤ s.len)
    (h : decode .trailer (s.inp.drop (s.len - 8)) = .ok (i, rest)) :
    trailerStep s = exec i s := by
  have hlong : ¬ s.len < trailerLen := Nat.not_lt.2 hlen
  simp only [trailerStep, trailerLen, h]
  exact if_neg hlong

theorem step_pad {s : State} (hturn : EngineTurn s) (hst : s.st = .busy .pad) :
    step s = exec (.pad (padCount s.out.length)) (countDelay s) :=
  step_engine hturn (by simp [engine, hst])

/-- Settles O26: each unit by the equation of its step; the command word on the host's turn. -/
theorem stepRunsFramingAndCommands : Obligations.StepRunsFramingAndCommands := by
  refine ⟨fun s i rest hturn hst hdecode => ?_, fun s i rest hturn hst hlen hdecode => ?_,
    fun s => step_pad, fun s w q hq => ?_⟩
  · exact step_header hturn hst (headerStep_ok (rest := rest) (by simpa using hdecode))
  · rw [step_trailer hturn hst]
    exact trailerStep_ok (rest := rest) (by simpa using hlen) (by simpa using hdecode)
  · rw [step_host hq (.inl rfl), hostAct_writeCmd]

/-! ## What a token step before SIZE does -/

/-- A token step before SIZE loads a flag byte, emits a token of at least one byte, or ends in an
error. -/
inductive TokenMove (s : State) : State → Prop
  | flagByte (f : Byte) : TokenMove s (loadFlags f (consume 1 s))
  | token (tok : Token) (n : Nat) (hn : 1 ≤ n) {t : State}
      (h : Emitted tok (consume n (takeFlagBit s)) t) : TokenMove s t
  | failed (e : ErrCode) (off : Nat) (foff : Option Nat) (u : State) :
      TokenMove s (raise e off foff u)

/-- The end of the input before SIZE is an error in every command. -/
theorem tokenMove_of_ended {s u t : State} (hbefore : u.total < u.size) (h : Ended true u t) :
    TokenMove s t := by
  cases h with
  | failed e => exact .failed _ _ _ _
  | verified _ hs => exact absurd hs (Nat.ne_of_lt hbefore)
  | spliced _ he => cases he
  | decoded _ _ he => cases he

theorem tokenMove_of_engineMove {s t : State} (hst : s.st = .busy .tokens)
    (hbefore : s.total < s.size) (h : EngineMove s t) : TokenMove s t := by
  cases h with
  | ends _ hreached _ => exact absurd hreached (Nat.not_le.2 hbefore)
  | flagByte f _ _ _ => exact .flagByte f
  | token i tok n _ _ _ hi ht => exact .token tok n (tokenInstr_pos hi) ht
  | flagEnds n _ _ _ ht => exact tokenMove_of_ended (u := consume n s) hbefore ht
  | tokenEnds n _ _ _ ht => exact tokenMove_of_ended (u := consume n (takeFlagBit s)) hbefore ht
  | flagFull n _ _ _ => exact .failed _ _ _ _
  | tokenFull n _ _ _ => exact .failed _ _ _ _
  -- every other move belongs to another phase
  | _ => simp_all

theorem Emitted.st_ne_done {tok : Token} {s t : State} (hs : s.st ≠ .done) (h : Emitted tok s t) :
    t.st ≠ .done := by
  cases h with
  | failed e => simp
  | _ => exact hs

theorem TokenMove.st_ne_done {s t : State} (hst : s.st = .busy .tokens) (h : TokenMove s t) :
    t.st ≠ .done := by
  cases h with
  | flagByte f => simp [hst]
  | token tok n _ h => exact h.st_ne_done (by simp [hst])
  | failed e off foff u => simp

/-- A decode whose lengths agree has produced exactly SIZE bytes where it ends. -/
theorem length_out_of_sizeReached {s : State} (hs : LengthsAgree s) (hst : s.st = .busy .tokens)
    (ho : s.op ≠ opVerify) (hreached : s.size ≤ s.total) : s.out.length = s.size := by
  obtain ⟨htotal, hsize⟩ := hs.decoding hst ho
  omega

/-- The end check of a decode into OUT (41_decoder.md R154). -/
theorem endTokens_decode {s : State} (ho : s.op ≠ opVerify) (hov : s.op ≠ opOverlay) :
    endTokens false s = .next (finish s.out.length s) := by
  rw [endTokens, if_neg ho, endDecode, if_neg Bool.false_ne_true, if_neg hov]

/-- Settles O27: the end check at SIZE, no DONE before it, and DONE with SIZE bytes by the lengths'
agreement. -/
theorem decodeEndsAtDeclaredSize : Obligations.DecodeEndsAtDeclaredSize := by
  refine fun s hturn hst => ⟨step_sizeReached hturn hst, fun t hbefore h => ?_,
    fun hlengths ho hov hsize hreached => ?_⟩
  · obtain hm | ⟨rfl, -, -⟩ := step_engine_cases hturn h
    · exact (tokenMove_of_engineMove (by simpa using hst) (by simpa using hbefore) hm).st_ne_done
        (by simpa using hst)
    · simp [hst]
  · have hlength := length_out_of_sizeReached hlengths hst ho hreached
    refine ⟨hlength, ?_⟩
    rw [step_sizeReached hturn hst hreached, endTokens_decode (by simpa using ho)
      (by simpa using hov), countDelay_out, hlength, finish, countDelay_freeIx, wide32_of_lt hsize]

theorem Ended.not_tokens {eoi : Bool} {s t : State} (h : Ended eoi s t) :
    t.st ≠ .busy .tokens := by
  cases h <;> simp

theorem TokenMove.ip_lt {s t : State} (h : TokenMove s t) (ht : t.st = .busy .tokens) :
    s.ip < t.ip := by
  cases h with
  | flagByte f => simp
  | token tok n hn h =>
    rw [h.frame]
    exact Nat.lt_add_of_pos_right hn
  | failed e off foff u => simp at ht

theorem runUnit_eq_none {slot : Slot} {s : State} (h : runUnit slot s = none) :
    s.view.stop = .wait := by
  unfold runUnit at h
  split at h
  · cases h
  · split at h
    · assumption
    · cases h
    · cases h

/-- A token step that cannot go on waits for an answer. -/
theorem tokenStep_eq_none {s : State} (h : tokenStep s = none) : s.view.stop = .wait := by
  unfold tokenStep at h
  split_ifs at h
  · exact runUnit_eq_none h
  · exact (congrArg View.stop (view_takeFlagBit s)).symm.trans (runUnit_eq_none h)

/-- Settles O30: a flag byte takes one byte and a token at least one; every other move ends the
tokenizer. -/
theorem tokenStepsReadInput : Obligations.TokenStepsReadInput := by
  intro s t hturn hst h ht
  by_cases hreached : s.size ≤ s.total
  · rw [step_sizeReached hturn hst hreached] at h
    obtain ⟨t', ht', hend⟩ := endTokens_spec false (countDelay s)
    rw [h] at ht'
    cases ht'
    exact absurd ht hend.not_tokens
  · obtain hm | ⟨rfl, -, hwait⟩ := step_engine_cases hturn h
    · have hmove := tokenMove_of_engineMove (by simpa using hst) (by simpa using hreached) hm
      exact .inl (by simpa using hmove.ip_lt ht)
    · exact .inr ⟨rfl, hwait, tokenStep_eq_none ((engine_tokens hst).symm.trans hwait)⟩

end Sys2Proof.Machine

/-! # The overlay (42_overlay.md R171 to R178) -/

namespace Sys2Proof.Machine

theorem length_slice {l : List Byte} {a b : Nat} (hb : b ≤ l.length) :
    (slice l a b).length = b - a := by
  rw [slice, List.length_drop, List.length_take, Nat.min_eq_left hb]

/-- The reversed region, byte by byte. -/
theorem reverse_slice_getElem? {l : List Byte} {a b k : Nat} (hb : b ≤ l.length)
    (hk : k < b - a) : (slice l a b).reverse[k]? = l[b - 1 - k]? := by
  rw [List.getElem?_reverse (by rw [length_slice hb]; exact hk), length_slice hb, slice,
    List.getElem?_drop, List.getElem?_take_of_lt (by omega)]
  congr 1
  omega

theorem startOverlay_src_loadTrailer (e : BitVec 24) (p : BitVec 8) (sd : BitVec 32) (s : State) :
    (startOverlay (loadTrailer e p sd s)).src =
      (slice s.inp (s.len - e.toNat) (s.len - p.toNat)).reverse := rfl

/-- Settles O31: a trailer that is valid and within MAX_OUT starts the inner decode, whose source is
the region reversed. -/
theorem validTrailerStartsInnerDecode : Obligations.ValidTrailerStartsInnerDecode := by
  intro s e p sd hlen he hp hroom
  have hregion : s.len - p.toNat ≤ s.inp.length := by omega
  refine ⟨startOverlay (loadTrailer e p sd s), ?_, ?_, rfl, rfl, rfl, rfl, ?_, fun k hk => ?_, rfl⟩
  · rw [exec_trl_valid sd he hp, hroom]
    rfl
  · exact (toNat_join p e).trans (by omega)
  · rw [startOverlay_src_loadTrailer, List.length_reverse, length_slice hregion]
    omega
  · rw [startOverlay_src_loadTrailer, reverse_slice_getElem? hregion (by omega)]

/-! ## The splice -/

theorem endTokens_overlay {s : State} (ho : s.op = opOverlay) :
    endTokens false s =
      .next (finish (spliceOverlay s).length { s with out := spliceOverlay s }) := by
  have hv : s.op ≠ opVerify := fun h => absurd (ho.symm.trans h) (by decide)
  rw [endTokens, if_neg hv, endDecode, if_neg Bool.false_ne_true, if_pos ho]

theorem slice_zero (l : List Byte) (b : Nat) : slice l 0 b = l.take b := rfl

/-- The start that is kept and the decoded bytes reversed make up the file's new length. -/
theorem length_spliceOverlay {s : State} (hlen : s.len = s.inp.length)
    (hend : s.endDelta.toNat ≤ s.len) (hsize : s.size = s.startDelta.toNat + s.endDelta.toNat)
    (hout : s.out.length = s.size) :
    (spliceOverlay s).length = s.len + s.startDelta.toNat := by
  rw [spliceOverlay, slice_zero, List.length_append, List.length_take, List.length_reverse]
  omega

theorem spliced_finish {s : State} (hlen : s.len = s.inp.length)
    (hend : s.endDelta.toNat ≤ s.len) (hsize : s.size = s.startDelta.toNat + s.endDelta.toNat)
    (hout : s.out.length = s.size) (hfits : s.len + s.startDelta.toNat < 4294967296) :
    Spliced s (finish (spliceOverlay s).length { s with out := spliceOverlay s }) := by
  have hlength := length_spliceOverlay hlen hend hsize hout
  have hkept : (s.inp.take (s.len - s.endDelta.toNat)).length = s.len - s.endDelta.toNat := by
    rw [List.length_take]
    omega
  refine ⟨rfl, hlength, ?_, fun k hk => ?_, fun k hk => ?_⟩
  · rw [finish_result, hlength, wide32_of_lt hfits]
  · rw [finish_out, spliceOverlay, slice_zero, List.getElem?_append_left (by omega),
      List.getElem?_take_of_lt hk]
  · rw [finish_out, spliceOverlay, slice_zero, List.getElem?_append_right (by omega), hkept,
      Nat.add_sub_cancel_left, List.getElem?_reverse (by omega), hout]

/-- What the splice says depends on the file and the decoded bytes, not on the host's queue. -/
theorem spliced_of_countDelay {s t : State} (h : Spliced (countDelay s) t) : Spliced s t := by
  obtain ⟨hdone, hlength, hresult, hbefore, hdecoded⟩ := h
  simp only [countDelay_len, countDelay_startDelta, countDelay_endDelta, countDelay_inp,
    countDelay_size, countDelay_out] at hlength hresult hbefore hdecoded
  exact ⟨hdone, hlength, hresult, hbefore, hdecoded⟩

/-- Settles O33: END splices; the lengths' agreement gives what the splice needs where a step finds
SIZE reached. -/
theorem overlaySplicesDecodedTail : Obligations.OverlaySplicesDecodedTail := by
  refine ⟨fun s ho hlen hend hsize hout hfits => ?_,
    fun s hturn hlengths hst ho hreached hfits => ?_⟩
  · exact ⟨_, endTokens_overlay ho, spliced_finish hlen hend hsize hout hfits⟩
  · have hv : s.op ≠ opVerify := fun h => absurd (ho.symm.trans h) (by decide)
    obtain ⟨hend, -, hsize⟩ := hlengths.overlaySizes ho hst
    have hlen := hlengths.overlayInput ho (.inr hst)
    have hout := length_out_of_sizeReached hlengths hst hv hreached
    refine ⟨_, (step_sizeReached hturn hst hreached).trans (endTokens_overlay (by simpa using ho)),
      spliced_of_countDelay (spliced_finish ?_ ?_ ?_ ?_ ?_)⟩
    all_goals simpa

end Sys2Proof.Machine

/-! # A group and its flush (44_encoder.md R218, R228) -/

namespace Sys2Proof.Machine

/-- A group's bytes depend on the variant and its displacement base alone. -/
theorem packsTo_congr {s u : State} {es : List ChunkEntry} {bs : List Byte}
    (hv : u.variant = s.variant) (hx : u.dispExtra = s.dispExtra) (h : PacksTo s es bs) :
    PacksTo u es bs := by
  unfold PacksTo at *
  rwa [hv, hx]

theorem packFails_congr {s u : State} {es : List ChunkEntry} {c : ErrCode} {off : Nat}
    (hv : u.variant = s.variant) (hx : u.dispExtra = s.dispExtra) (hout : u.out = s.out)
    (hconfig : u.config = s.config) (h : PackFails s es c off) : PackFails u es c off := by
  obtain ⟨es₁, es₂, e, bs, hsplit, hpacks, hroom, hfail, hstart⟩ := h
  refine ⟨es₁, es₂, e, bs, hsplit, packsTo_congr hv hx hpacks, ?_, by rwa [hv, hx], hstart⟩
  rwa [hout, overOut_congr hconfig]

theorem flushChunk_due {s : State} (hne : s.chunk ≠ []) (hcount : s.ccnt = s.chunk.length) :
    s.ccnt ≠ 0 := by
  rw [hcount]
  exact (List.length_pos_of_ne_nil hne).ne'

/-- A flush that is due packs the chunk's tokens after their flag byte, where that fits. -/
theorem flushChunk_of_due {s : State} (hne : s.chunk ≠ []) (hcount : s.ccnt = s.chunk.length)
    (hroom : s.overOut (s.out.length + 1) = false) :
    flushChunk s = (packEntries s.variant s.dispExtra s.chunk
      { s with out := s.out ++ [flagByte (s.chunk.map (fun e => e.tok)) 0] }).map
        (fun s2 => { s2 with chunk := [], ccnt := 0 }) := by
  have happend : appendChecked [flagByte (s.chunk.map (fun e => e.tok)) 0] s =
      some { s with out := s.out ++ [flagByte (s.chunk.map (fun e => e.tok)) 0] } :=
    appendChecked_of_fits hroom
  have htake : s.chunk.take s.ccnt = s.chunk := by rw [hcount, List.take_length]
  rw [flushChunk, if_neg (flushChunk_due hne hcount)]
  simp only [htake, happend]
  cases packEntries s.variant s.dispExtra s.chunk _ <;> rfl

theorem flushChunk_flagFull {s : State} (hne : s.chunk ≠ []) (hcount : s.ccnt = s.chunk.length)
    (hfull : s.overOut (s.out.length + 1) = true) :
    flushChunk s = .error (.formatCapacity, 0) := by
  have happend : ∀ b : Byte, appendChecked [b] s = none := fun b => if_pos hfull
  simp only [flushChunk, if_neg (flushChunk_due hne hcount), happend]

/-- A group's bytes are its flag byte and the rest. -/
theorem overOut_group (s : State) (b : Byte) (bs : List Byte) :
    s.overOut (s.out.length + (b :: bs).length) = s.overOut (s.out.length + 1 + bs.length) := by
  rw [List.length_cons, Nat.add_comm _ 1, Nat.add_assoc]

theorem flushChunk_packs {s : State} {bs : List Byte} (hne : s.chunk ≠ [])
    (hcount : s.ccnt = s.chunk.length) (hpacks : PacksTo s s.chunk bs)
    (hroom : s.overOut (s.out.length + bs.length) = false) :
    flushChunk s = .ok { s with out := s.out ++ bs, chunk := [], ccnt := 0 } := by
  obtain ⟨bss, hpack, rfl⟩ := hpacks
  rw [overOut_group] at hroom
  rw [flushChunk_of_due hne hcount (overOut_mono (by simp) hroom),
    packEntries_ok hpack (by simpa [State.overOut] using hroom)]
  simp [Except.map]

theorem flushChunk_full {s : State} {bs : List Byte} (hne : s.chunk ≠ [])
    (hcount : s.ccnt = s.chunk.length) (hpacks : PacksTo s s.chunk bs)
    (hfull : s.overOut (s.out.length + bs.length) = true) :
    flushChunk s = .error (.formatCapacity, 0) := by
  obtain ⟨bss, hpack, rfl⟩ := hpacks
  rw [overOut_group] at hfull
  cases hflag : s.overOut (s.out.length + 1) with
  | true => exact flushChunk_flagFull hne hcount hflag
  | false =>
    rw [flushChunk_of_due hne hcount hflag, packEntries_full hpack
      (by simpa [State.overOut] using hflag) (by simpa [State.overOut] using hfull)]
    rfl

theorem flushChunk_fails {s : State} {c : ErrCode} {off : Nat} (hne : s.chunk ≠ [])
    (hcount : s.ccnt = s.chunk.length) (h : PackFails s s.chunk c off) :
    flushChunk s = .error (c, off) := by
  obtain ⟨es₁, es₂, e, bs, hsplit, ⟨bss, hpack, rfl⟩, hroom, hfail, rfl⟩ := h
  rw [overOut_group] at hroom
  rw [flushChunk_of_due hne hcount (overOut_mono (by simp) hroom), hsplit, packEntries_fails hpack (by simpa [State.overOut] using hroom) hfail]
  rfl

/-- Settles O42: an empty chunk is not due; a chunk that packs is flushed. -/
theorem groupBytesFollowFlagByte : Obligations.GroupBytesFollowFlagByte := by
  refine ⟨fun s h => by rw [flushChunk, if_pos h], fun s bss hne hcount hpack hroom => ?_⟩
  exact flushChunk_packs hne hcount ⟨bss, hpack, rfl⟩ (by rwa [overOut_group])

end Sys2Proof.Machine

/-! # The encoder's own steps (44_encoder.md R215 to R217, R225, 46_commands.md R268) -/

namespace Sys2Proof.Machine

/-! ## The padding and the last line -/

theorem execPad_fits {s : State} {c : Fin 4} (hroom : s.overOut (s.out.length + c.val) = false) :
    execPad c s = .next { s with
      out := s.out ++ List.replicate c.val 0xFF#8, st := .busy .finish } := by
  rw [execPad, appendChecked_of_fits (by rwa [List.length_replicate])]
  rfl

theorem execPad_full {s : State} {c : Fin 4} (hfull : s.overOut (s.out.length + c.val) = true) :
    execPad c s = .next (raise .formatCapacity 0 none s) := by
  rw [execPad, appendChecked, if_pos (by rwa [List.length_replicate])]

theorem step_finish {s : State} (hturn : EngineTurn s) (hst : s.st = .busy .finish) :
    step s = .next (finish s.out.length (countDelay s)) :=
  step_engine hturn (by simp [engine, hst, finishEncode])

/-- Settles O41: the bytes within MAX_OUT or the capacity error; the count by its residue; the last
line. -/
theorem paddingFillsToFour : Obligations.PaddingFillsToFour := by
  refine ⟨fun s c => ⟨execPad_fits, fun hfull => ?_⟩, fun n => ⟨padCount_val n, padCount_fills n⟩,
    fun s hturn hst hlength => ?_⟩
  · exact ⟨_, execPad_full hfull, errorRecord_raise_countless (by decide) rfl⟩
  · rw [step_finish hturn hst, finish, countDelay_freeIx, wide32_of_lt hlength]

/-! ## Reading the whole input -/

theorem engine_gather {s : State} (hst : s.st = .busy .gather) : engine s = gatherStep s := by
  simp only [engine, hst]

theorem step_gather {s : State} {o : Out} (hturn : EngineTurn s) (hst : s.st = .busy .gather)
    (h : gatherStep (countDelay s) = some o) : step s = o :=
  step_engine hturn ((engine_gather (by simpa using hst)).trans h)

@[simp] theorem encoding_countDelay (s : State) : (countDelay s).encoding = s.encoding := by
  simp [State.encoding]

/-- Outside a token step the bytes taken leave the port. -/
theorem consume_gather {s : State} (n : Nat) (hst : s.st = .busy .gather) :
    consume n s = { s with ip := s.ip + n, inPort := s.inPort.drop n } := by
  simp [consume, State.readsSrc, hst]

/-- The size test of an encoder's input (44_encoder.md R216), where the next byte passes it. -/
theorem not_sizeExceeded {s : State} (h : s.encoding = false ∨ s.inp.length < 0xFFFFFF) :
    ¬ (s.encoding = true ∧ sizeMax ≤ s.inp.length) := by
  rintro ⟨he, hlong⟩
  obtain he' | hshort := h
  · exact Bool.false_ne_true (he'.symm.trans he)
  · exact absurd hlong (Nat.not_le.2 hshort)

theorem gatherStep_byte {s : State} {b : Byte} {rest : List Byte} (hst : s.st = .busy .gather)
    (hbytes : s.view.bytes = b :: rest) (hsize : s.encoding = false ∨ s.inp.length < 0xFFFFFF) :
    gatherStep s = some (.next { s with
      inp := s.inp ++ [b], ip := s.ip + 1, inPort := s.inPort.drop 1 }) := by
  simp only [gatherStep, hbytes, if_neg (not_sizeExceeded hsize), consume_gather 1 hst]

theorem gatherStep_tooLong {s : State} (he : s.encoding = true) (hlong : 0xFFFFFF ≤ s.inp.length)
    (hmore : s.view.bytes ≠ [] ∨ s.view.stop = .full) :
    gatherStep s = some (.next (raise .encodeSizeRange 0 none s)) := by
  have hillegal : s.encoding = true ∧ sizeMax ≤ s.inp.length := ⟨he, hlong⟩
  cases hbytes : s.view.bytes with
  | cons b rest => simp only [gatherStep, hbytes, if_pos hillegal]
  | nil =>
    have hstop := hmore.resolve_left (not_not.2 hbytes)
    simp only [gatherStep, hbytes, hstop, if_pos hillegal]

theorem gatherStep_full {s : State} (hbytes : s.view.bytes = []) (hstop : s.view.stop = .full)
    (hsize : s.encoding = false ∨ s.inp.length < 0xFFFFFF) :
    gatherStep s = some (.next (raise .formatCapacity 0 none s)) := by
  simp only [gatherStep, hbytes, hstop, if_neg (not_sizeExceeded hsize)]

theorem gatherStep_eoi_overlay {s : State} (hbytes : s.view.bytes = []) (hstop : s.view.stop = .eoi)
    (he : s.encoding = false) :
    gatherStep s = some (.next { s with len := s.inp.length, st := .busy .trailer }) := by
  simp only [gatherStep, hbytes, hstop, he, if_neg Bool.false_ne_true]

theorem gatherStep_eoi_encode {s : State} (hbytes : s.view.bytes = []) (hstop : s.view.stop = .eoi)
    (he : s.encoding = true) : gatherStep s = some (startEncode s) := by
  simp only [gatherStep, hbytes, hstop, if_pos he]

theorem gatherStep_wait {s : State} (hbytes : s.view.bytes = []) (hstop : s.view.stop = .wait) :
    gatherStep s = none := by
  simp only [gatherStep, hbytes, hstop]

/-- On the engine's turn, a wait is a step without any change. -/
theorem step_wait {s : State} (hturn : EngineTurn s) (h : engine (countDelay s) = none) :
    step s = .next s := by
  have hturn : hostTurn s = none := hturn
  simp only [step, stepOnce, hturn, h]

/-- Settles O43: each clause by the equation of the gather step for its answer. -/
theorem inputIsGatheredByteByByte : Obligations.InputIsGatheredByteByByte := by
  intro s hturn hst
  have hst' : (countDelay s).st = .busy .gather := by simpa using hst
  refine ⟨fun b rest hbytes hsize => ?_, fun he hlong hmore => ?_, fun hbytes hstop hsize => ?_,
    fun hbytes hstop he => ?_, fun hbytes hstop => ?_⟩
  · rw [step_gather hturn hst (gatherStep_byte hst' (rest := rest) (by simpa using hbytes)
      (by simpa using hsize))]
    simp
  · exact ⟨_, step_gather hturn hst (gatherStep_tooLong (by simpa using he) (by simpa using hlong)
      (by simpa using hmore)), errorRecord_raise_countless (by decide) rfl⟩
  · exact ⟨_, step_gather hturn hst (gatherStep_full (by simpa using hbytes) (by simpa using hstop)
      (by simpa using hsize)), errorRecord_raise_countless (by decide) rfl⟩
  · rw [step_gather hturn hst (gatherStep_eoi_overlay (by simpa using hbytes)
      (by simpa using hstop) (by simpa using he))]
    simp
  · exact step_wait hturn ((engine_gather hst').trans
      (gatherStep_wait (by simpa using hbytes) (by simpa using hstop)))

/-! ## The header -/

theorem length_headerBytes (v : Variant) (n : Nat) : (headerBytes v n).length = 4 := rfl

theorem startEncode_fits {s : State} (hroom : s.overOut 4 = false) :
    startEncode s = .next { s with
      out := headerBytes s.variant s.inp.length, pos := 0, wfill := 0, chunk := [], ccnt := 0,
      st := .busy .search } := by
  have happend := appendChecked_of_fits (bs := headerBytes s.variant s.inp.length)
    (s := { s with out := [], pos := 0, wfill := 0, chunk := [], ccnt := 0 }) hroom
  simp only [startEncode, happend]
  rfl

theorem startEncode_full {s : State} (hfull : s.overOut 4 = true) :
    startEncode s = .next (raise .formatCapacity 0 none
      { s with out := [], pos := 0, wfill := 0, chunk := [], ccnt := 0 }) := by
  have happend : appendChecked (headerBytes s.variant s.inp.length)
      { s with out := [], pos := 0, wfill := 0, chunk := [], ccnt := 0 } = none := if_pos hfull
  simp only [startEncode, happend]

/-- The three size bytes of a header hold its size (20_memory.md R60). -/
theorem size_headerBytes {n : Nat} (h : n ≤ 0xFFFFFF) :
    (BitVec.ofNat 8 n).toNat + 256 * (BitVec.ofNat 8 (n / 256)).toNat +
      65536 * (BitVec.ofNat 8 (n / 65536)).toNat = n := by
  simp only [BitVec.toNat_ofNat]
  omega

/-- Settles O44: the header within MAX_OUT, or the capacity error. -/
theorem encoderStartsWithHeader : Obligations.EncoderStartsWithHeader := by
  intro s hturn hst he hbytes hstop hsize
  have hstart := step_gather hturn hst (gatherStep_eoi_encode (s := countDelay s)
    (by simpa using hbytes) (by simpa using hstop) (by simpa using he))
  refine ⟨fun hroom => ⟨_, _, _, size_headerBytes hsize, ?_⟩, fun hfull => ?_⟩
  · rw [hstart, startEncode_fits (by simpa [State.overOut] using hroom)]
    cases hv : s.variant <;> simp [headerBytes, tagOf, hv]
  · exact ⟨_, hstart.trans (startEncode_full (by simpa [State.overOut] using hfull)),
      errorRecord_raise_countless (by decide) rfl⟩

end Sys2Proof.Machine

/-! # A turn of the encode loop (43_match_finder.md R195, 44_encoder.md R218) -/

namespace Sys2Proof.Machine

/-! ## The search step, by the state of the chunk -/

theorem searchStep_of_token {s : State} {v : Byte} (hv : s.inp[s.pos]? = some v) :
    searchStep s = settle (noteToken (s.searchToken v) s)
      ((flushIfFull (noteToken (s.searchToken v) s)).map
        (slideWindow (s.searchToken v).count)) := by
  simp only [searchStep, hv]

theorem searchStep_of_end {s : State} (hv : s.inp[s.pos]? = none) :
    searchStep s =
      settle s ((flushChunk s).map (fun s' => { s' with st := .busy .pad })) := by
  simp only [searchStep, hv]

theorem flushIfFull_open {s : State} (h : s.ccnt ≠ 8) : flushIfFull s = .ok s := if_neg h

theorem flushIfFull_due {s : State} (h : s.ccnt = 8) : flushIfFull s = flushChunk s := if_pos h

theorem searchStep_open {s : State} {v : Byte} (hv : s.inp[s.pos]? = some v) (h : s.ccnt < 7) :
    searchStep s =
      .next (slideWindow (s.searchToken v).count (noteToken (s.searchToken v) s)) := by
  have hopen : s.ccnt + 1 ≠ 8 := by omega
  rw [searchStep_of_token hv, flushIfFull_open hopen]
  rfl

/-- The eighth token's turn, where the group is written. -/
theorem searchStep_eighth {s s' : State} {v : Byte} (hv : s.inp[s.pos]? = some v)
    (h : s.ccnt = 7) (hflush : flushChunk (noteToken (s.searchToken v) s) = .ok s') :
    searchStep s = .next (slideWindow (s.searchToken v).count s') := by
  rw [searchStep_of_token hv, flushIfFull_due (congrArg (· + 1) h), hflush]
  rfl

/-- The eighth token's turn, where the group cannot be written. -/
theorem searchStep_eighth_fails {s : State} {v : Byte} {c : ErrCode} {off : Nat}
    (hv : s.inp[s.pos]? = some v) (h : s.ccnt = 7)
    (hflush : flushChunk (noteToken (s.searchToken v) s) = .error (c, off)) :
    searchStep s = .next (raise c off none (noteToken (s.searchToken v) s)) := by
  rw [searchStep_of_token hv, flushIfFull_due (congrArg (· + 1) h), hflush]
  rfl

theorem searchStep_end {s s' : State} (hv : s.inp[s.pos]? = none)
    (hflush : flushChunk s = .ok s') : searchStep s = .next { s' with st := .busy .pad } := by
  rw [searchStep_of_end hv, hflush]
  rfl

theorem searchStep_end_fails {s : State} {c : ErrCode} {off : Nat} (hv : s.inp[s.pos]? = none)
    (hflush : flushChunk s = .error (c, off)) : searchStep s = .next (raise c off none s) := by
  rw [searchStep_of_end hv, hflush]
  rfl

theorem step_search {s : State} (hturn : EngineTurn s) (hst : s.st = .busy .search) :
    step s = searchStep (countDelay s) :=
  step_engine hturn (by simp [engine, hst])

/-! ## What a turn leaves -/

/-- The window changes at the addresses of the token's bytes only. -/
theorem read_slideWindow_other {s : State} {n a : Nat}
    (h : ∀ k, k < n → a ≠ (s.pos + k) % 4096) :
    Memory.read (slideWindow n s).win a = Memory.read s.win a := by
  rw [slideWindow_win, read_writeWindow_other]
  intro k hk
  refine h k (Nat.lt_of_lt_of_le hk ?_)
  simp only [slice, List.length_drop, List.length_take]
  omega

/-- The record of a token that cannot be packed: where it starts, twice (44_encoder.md R228). -/
theorem errorRecord_raise_packFails {s u : State} {es : List ChunkEntry} {c : ErrCode} {off : Nat}
    (h : PackFails s es c off) (hoff : off < 4294967296) :
    ErrorRecord (raise c off none u) c (BitVec.ofNat 32 off) 0xFFFFFFFF#32
      (BitVec.ofNat 32 off) := by
  obtain ⟨es₁, es₂, e, bs, -, -, -, hfail, -⟩ := h
  obtain rfl | rfl := packToken_error hfail
  · exact errorRecord_raise none hoff hoff
  · exact errorRecord_raise none hoff hoff

theorem chunkWith_ne_nil (s : State) (v : Byte) : chunkWith s v ≠ [] := by
  simp [chunkWith]

theorem length_chunkWith (s : State) (v : Byte) :
    (chunkWith s v).length = s.chunk.length + 1 := by
  simp [chunkWith]

/-- The state whose group the eighth token's turn flushes. -/
def notedState (s : State) (v : Byte) : State := noteToken (s.searchToken v) (countDelay s)

@[simp] theorem notedState_out (s : State) (v : Byte) : (notedState s v).out = s.out := by
  simp [notedState]

@[simp] theorem notedState_config (s : State) (v : Byte) :
    (notedState s v).config = s.config := by
  simp [notedState]

@[simp] theorem notedState_variant (s : State) (v : Byte) :
    (notedState s v).variant = s.variant := by
  simp [notedState]

@[simp] theorem notedState_dispExtra (s : State) (v : Byte) :
    (notedState s v).dispExtra = s.dispExtra := by
  simp [notedState]

@[simp] theorem notedState_chunk (s : State) (v : Byte) :
    (notedState s v).chunk = chunkWith s v := by
  simp [notedState, chunkWith]

@[simp] theorem notedState_ccnt (s : State) (v : Byte) :
    (notedState s v).ccnt = s.ccnt + 1 := by
  simp [notedState]

theorem notedState_due {s : State} {v : Byte} (hcount : s.ccnt = 7) (hlength : s.chunk.length = 7) :
    (notedState s v).chunk ≠ [] ∧ (notedState s v).ccnt = (notedState s v).chunk.length := by
  rw [notedState_chunk, notedState_ccnt, length_chunkWith, hcount, hlength]
  exact ⟨chunkWith_ne_nil s v, rfl⟩

theorem packsTo_notedState {s : State} {v : Byte} {bs : List Byte}
    (h : PacksTo s (chunkWith s v) bs) : PacksTo (notedState s v) (notedState s v).chunk bs := by
  rw [notedState_chunk]
  exact packsTo_congr (by simp) (by simp) h

/-! ## The steps -/

theorem step_search_open {s : State} {v : Byte} (hturn : EngineTurn s)
    (hst : s.st = .busy .search) (hv : s.inp[s.pos]? = some v) (hopen : s.ccnt < 7) :
    step s = .next (slideWindow (s.searchToken v).count (notedState s v)) := by
  rw [step_search hturn hst, searchStep_open (v := v) (by simpa using hv) (by simpa using hopen),
    countDelay_searchToken]
  rfl

theorem step_search_eighth {s s' : State} {v : Byte} (hturn : EngineTurn s)
    (hst : s.st = .busy .search) (hv : s.inp[s.pos]? = some v) (hcount : s.ccnt = 7)
    (hflush : flushChunk (notedState s v) = .ok s') :
    step s = .next (slideWindow (s.searchToken v).count s') := by
  rw [step_search hturn hst, searchStep_eighth (s' := s') (v := v) (by simpa using hv)
    (by simpa using hcount) (by rw [countDelay_searchToken]; exact hflush),
    countDelay_searchToken]

theorem step_search_eighth_fails {s : State} {v : Byte} {c : ErrCode} {off : Nat}
    (hturn : EngineTurn s) (hst : s.st = .busy .search) (hv : s.inp[s.pos]? = some v)
    (hcount : s.ccnt = 7) (hflush : flushChunk (notedState s v) = .error (c, off)) :
    step s = .next (raise c off none (notedState s v)) := by
  rw [step_search hturn hst, searchStep_eighth_fails (c := c) (off := off) (v := v)
    (by simpa using hv) (by simpa using hcount) (by rw [countDelay_searchToken]; exact hflush),
    countDelay_searchToken]
  rfl

theorem step_search_end {s s' : State} (hturn : EngineTurn s) (hst : s.st = .busy .search)
    (hv : s.inp[s.pos]? = none) (hflush : flushChunk (countDelay s) = .ok s') :
    step s = .next { s' with st := .busy .pad } := by
  rw [step_search hturn hst, searchStep_end (by simpa using hv) hflush]

theorem step_search_end_fails {s : State} {c : ErrCode} {off : Nat} (hturn : EngineTurn s)
    (hst : s.st = .busy .search) (hv : s.inp[s.pos]? = none)
    (hflush : flushChunk (countDelay s) = .error (c, off)) :
    step s = .next (raise c off none (countDelay s)) := by
  rw [step_search hturn hst, searchStep_end_fails (by simpa using hv) hflush]

/-! ## The obligation -/

/-- The eighth token's turn: the group's bytes, within MAX_OUT or past it. -/
theorem search_eighth {s : State} {v : Byte} {bs : List Byte} (hturn : EngineTurn s)
    (hst : s.st = .busy .search) (hv : s.inp[s.pos]? = some v) (hcount : s.ccnt = 7)
    (hlength : s.chunk.length = 7) (hpacks : PacksTo s (chunkWith s v) bs) :
    (s.overOut (s.out.length + bs.length) = false → ∃ t, step s = .next t ∧
      t = { countDelay s with
        out := s.out ++ bs, chunk := [], ccnt := 0, pos := s.pos + (s.searchToken v).count,
        wfill := min (s.pos + (s.searchToken v).count) 4096, win := t.win } ∧
      ∀ a, (∀ k, k < (s.searchToken v).count → a ≠ (s.pos + k) % 4096) →
        Memory.read t.win a = Memory.read s.win a) ∧
    (s.overOut (s.out.length + bs.length) = true → ∃ t, step s = .next t ∧
      ErrorRecord t .formatCapacity 0 0xFFFFFFFF#32 0) := by
  obtain ⟨hne, hdue⟩ := notedState_due (v := v) hcount hlength
  have hpacks' := packsTo_notedState hpacks
  refine ⟨fun hroom => ?_, fun hfull => ?_⟩
  · have hflush := flushChunk_packs hne hdue hpacks' (by simpa [State.overOut] using hroom)
    refine ⟨_, step_search_eighth hturn hst hv hcount hflush, ?_, fun a ha => ?_⟩
    · simp [slideWindow, notedState, noteToken, windowSize]
    · rw [read_slideWindow_other (by simpa [notedState] using ha)]
      simp [notedState]
  · have hflush := flushChunk_full hne hdue hpacks' (by simpa [State.overOut] using hfull)
    exact ⟨_, step_search_eighth_fails hturn hst hv hcount hflush,
      errorRecord_raise_countless (by decide) rfl⟩

/-- The end of the input with a group begun in the chunk. -/
theorem search_lastGroup {s : State} {bs : List Byte} (hturn : EngineTurn s)
    (hst : s.st = .busy .search) (hv : s.inp[s.pos]? = none) (hne : s.chunk ≠ [])
    (hcount : s.ccnt = s.chunk.length) (hpacks : PacksTo s s.chunk bs) :
    (s.overOut (s.out.length + bs.length) = false → step s = .next { countDelay s with
      out := s.out ++ bs, chunk := [], ccnt := 0, st := .busy .pad }) ∧
    (s.overOut (s.out.length + bs.length) = true → ∃ t, step s = .next t ∧
      ErrorRecord t .formatCapacity 0 0xFFFFFFFF#32 0) := by
  have hpacks' : PacksTo (countDelay s) (countDelay s).chunk bs := by
    rw [countDelay_chunk]
    exact packsTo_congr (by simp) (by simp) hpacks
  refine ⟨fun hroom => ?_, fun hfull => ?_⟩
  · rw [step_search_end hturn hst hv (flushChunk_packs (by simpa using hne)
      (by simpa using hcount) hpacks' (by simpa [State.overOut] using hroom))]
    simp
  · exact ⟨_, step_search_end_fails hturn hst hv (flushChunk_full (by simpa using hne)
      (by simpa using hcount) hpacks' (by simpa [State.overOut] using hfull)),
      errorRecord_raise_countless (by decide) rfl⟩

/-- Settles O45: a token's turn by the tokens in the chunk, then the end of the input's. -/
theorem searchStepTakesOneToken : Obligations.SearchStepTakesOneToken := by
  refine fun s hturn hst => ⟨fun v hv => ⟨fun hopen => ?_,
    fun bs hcount hlength hpacks => search_eighth hturn hst hv hcount hlength hpacks,
    fun c off hcount hlength hfails hoff => ?_⟩, fun hv => ⟨fun hempty => ?_,
    fun bs hne hcount hpacks => search_lastGroup hturn hst hv hne hcount hpacks,
    fun c off hne hcount hfails hoff => ?_⟩⟩
  · refine ⟨_, step_search_open hturn hst hv hopen, ?_, fun a ha => ?_⟩
    · simp [slideWindow, notedState, noteToken, chunkWith, windowSize]
    · rw [read_slideWindow_other (by simpa [notedState] using ha)]
      simp [notedState]
  · obtain ⟨hne, hdue⟩ := notedState_due (v := v) hcount hlength
    have hfails' : PackFails (notedState s v) (notedState s v).chunk c off := by
      rw [notedState_chunk]
      exact packFails_congr (by simp) (by simp) (by simp) (by simp) hfails
    exact ⟨_, step_search_eighth_fails hturn hst hv hcount (flushChunk_fails hne hdue hfails'),
      errorRecord_raise_packFails hfails hoff⟩
  · have hflush : flushChunk (countDelay s) = .ok (countDelay s) := by
      rw [flushChunk, countDelay_ccnt, if_pos hempty]
    exact step_search_end hturn hst hv hflush
  · have hfails' : PackFails (countDelay s) (countDelay s).chunk c off := by
      rw [countDelay_chunk]
      exact packFails_congr (by simp) (by simp) (by simp) (by simp) hfails
    exact ⟨_, step_search_end_fails hturn hst hv (flushChunk_fails (by simpa using hne)
      (by simpa using hcount) hfails'), errorRecord_raise_packFails hfails hoff⟩

end Sys2Proof.Machine

/-! # Runs of the machine (46_commands.md R270) -/

namespace Sys2Proof.Machine

/-! ## Reaching a state -/

/-- Some number of steps leads from `s` to `t`. -/
def Reaches (s t : State) : Prop := ∃ n, Sys2Proof.core.run n s = .next t

theorem run_succ {s u : State} (n : Nat) (h : step s = .next u) :
    Sys2Proof.core.run (n + 1) s = Sys2Proof.core.run n u := by
  have h' : Sys2Proof.core.step s = .next u := h
  simp only [Host.Core.run, h']

theorem Reaches.refl (s : State) : Reaches s s := ⟨0, rfl⟩

theorem Reaches.head {s u t : State} (h : step s = .next u) (hu : Reaches u t) : Reaches s t := by
  obtain ⟨n, hn⟩ := hu
  exact ⟨n + 1, (run_succ n h).trans hn⟩

theorem Reaches.single {s t : State} (h : step s = .next t) : Reaches s t := .head h (.refl t)

/-- A run of `n + m` steps is a run of `m` after one of `n`. -/
theorem run_add {s t : State} {n : Nat} (m : Nat) (h : Sys2Proof.core.run n s = .next t) :
    Sys2Proof.core.run (n + m) s = Sys2Proof.core.run m t := by
  induction n generalizing s with
  | zero =>
    cases h
    rw [Nat.zero_add]
  | succ n ih =>
    rw [Nat.add_right_comm]
    cases hs : step s with
    | next u =>
      rw [run_succ n hs] at h
      rw [run_succ (n + m) hs]
      exact ih h
    | fault r => simp [Host.Core.run, show Sys2Proof.core.step s = .fault r from hs] at h
    | refused r => simp [Host.Core.run, show Sys2Proof.core.step s = .refused r from hs] at h

theorem Reaches.trans {s u t : State} (hsu : Reaches s u) (hut : Reaches u t) : Reaches s t := by
  obtain ⟨n, hn⟩ := hsu
  obtain ⟨m, hm⟩ := hut
  exact ⟨n + m, (run_add m hn).trans hm⟩

/-! ## Where a run ends -/

theorem engine_of_not_busy {s : State} (h : s.busy = false) : engine s = none := by
  have hst := not_busy_iff.1 h
  unfold engine
  cases hs : s.st with
  | busy p => exact absurd hs (hst p)
  | _ => rfl

/-- With no command running and nothing left for the host to do, nothing happens any more. -/
theorem run_of_ended {t : State} (hidle : t.busy = false) (hq : t.hostQ = []) (n : Nat) :
    Sys2Proof.core.run n t = .next t := by
  have hstep := step_idle hq (engine_of_not_busy hidle)
  induction n with
  | zero => rfl
  | succ n ih => rw [run_succ n hstep, ih]

/-- A run ends in one state. -/
theorem EndsIn.unique {s t t' : State} (h : EndsIn s t) (h' : EndsIn s t') : t = t' := by
  obtain ⟨hidle, hq, n, hn⟩ := h
  obtain ⟨hidle', hq', n', hn'⟩ := h'
  have hlong : Sys2Proof.core.run (n + n') s = .next t :=
    (run_add n' hn).trans (run_of_ended hidle hq n')
  have hlong' : Sys2Proof.core.run (n' + n) s = .next t' :=
    (run_add n hn').trans (run_of_ended hidle' hq' n)
  rw [Nat.add_comm, hlong'] at hlong
  cases hlong
  rfl

theorem Reaches.endsIn {s u t : State} (h : Reaches s u) (hu : EndsIn u t) : EndsIn s t := by
  obtain ⟨hidle, hq, hut⟩ := hu
  exact ⟨hidle, hq, h.trans hut⟩

/-- One step to a state where nothing is left to do. -/
theorem endsIn_of_step {s t : State} (h : step s = .next t) (hidle : t.busy = false)
    (hq : t.hostQ = []) : EndsIn s t :=
  ⟨hidle, hq, Reaches.single h⟩

/-! ## The engine with no host action pending -/

theorem countDelay_of_nil {s : State} (hq : s.hostQ = []) : countDelay s = s := by
  rw [countDelay, hq]

theorem engineTurn_of_nil {s : State} (hq : s.hostQ = []) : EngineTurn s := by
  rw [EngineTurn, hostTurn, hq]

theorem step_alone {s : State} {o : Out} (hq : s.hostQ = []) (h : engine s = some o) :
    step s = o :=
  step_engine (engineTurn_of_nil hq) (by rwa [countDelay_of_nil hq])

/-! ## A host's run up to the engine's first step -/

/-- The host's offers of some answers, each as soon as its turn comes. -/
def offers (as : List InAnswer) : List HostTurn := as.map fun a => { delay := 0, act := .offer a }

/-- All answers join the stream of the running command. -/
theorem reaches_offers {s : State} (as : List InAnswer) (hbusy : s.busy = true)
    (hq : s.hostQ = offers as) :
    Reaches s { s with inPort := s.inPort ++ as, hostQ := [] } := by
  induction as generalizing s with
  | nil =>
    have hs : { s with inPort := s.inPort ++ [], hostQ := [] } = s := by
      have hq : s.hostQ = [] := hq
      rw [List.append_nil, ← hq]
    rw [hs]
    exact .refl s
  | cons a as ih =>
    have hstep : step s = .next { s with inPort := s.inPort ++ [a], hostQ := offers as } := by
      rw [step_host hq (.inl rfl)]
      exact congrArg Host.Outcome.next (if_pos hbusy)
    have hrest := ih (s := { s with inPort := s.inPort ++ [a], hostQ := offers as }) hbusy rfl
    simp only [List.append_assoc] at hrest
    exact .head hstep hrest

/-- The state in which a command's word is written, after a write of 0 to RAWSIZE. -/
def beforeCommand (c : Config) (q : List HostTurn) : State :=
  { State.reset with config := c, hostQ := q }

/-- A command that has started in its first phase, with the whole input in the port. -/
def loaded (c : Config) (op : BitVec 4) (p : Phase) (input : List Byte) : State :=
  { commandInit op false (beforeCommand c []) with
    st := .busy p, inPort := input.map InAnswer.byte ++ [.eoi] }

/-- The host's run starts the command and fills the port before the engine's first step. -/
theorem reaches_loaded {c : Config} {w : Word} {op : BitVec 4} {start : State → State} {p : Phase}
    (hexec : ∀ s, exec (decodeCmd w) s = issue op false start s)
    (hstart : ∀ s, start s = { s with st := .busy p }) (input : List Byte) :
    Reaches (commandRun c 0 w input) (loaded c op p input) := by
  have hraw : step (commandRun c 0 w input) = .next (beforeCommand c
      ({ delay := 0, act := .writeReg 0x00 4 w } ::
        offers (input.map InAnswer.byte ++ [InAnswer.eoi]))) := by
    rw [step_host (a := .writeReg 0x08 4 0) rfl (.inl rfl),
      hostAct_writeReg _ 0 rfl (by decide), writeRegister_rawsize_idle 0 rfl]
    rfl
  have hcmd : step (beforeCommand c ({ delay := 0, act := .writeReg 0x00 4 w } ::
      offers (input.map InAnswer.byte ++ [InAnswer.eoi]))) =
      .next { commandInit op false (beforeCommand c
        (offers (input.map InAnswer.byte ++ [InAnswer.eoi]))) with st := .busy p } := by
    rw [step_host rfl (.inl rfl), hostAct_writeCmd, hexec, issue_of_not_busy op false start rfl,
      hstart]
    rfl
  exact .head hraw (.head hcmd (reaches_offers _ rfl rfl))

theorem reaches_loaded_decode (c : Config) (input : List Byte) :
    Reaches (commandRun c 0 1 input) (loaded c opDecode .header input) :=
  reaches_loaded (start := awaitHeader) (fun _ => rfl) (fun _ => rfl) input

theorem reaches_loaded_verify (c : Config) (input : List Byte) :
    Reaches (commandRun c 0 7 input) (loaded c opVerify .header input) :=
  reaches_loaded (start := awaitHeader) (fun _ => rfl) (fun _ => rfl) input

theorem reaches_loaded_encode10 (c : Config) (input : List Byte) :
    Reaches (commandRun c 0 5 input) (loaded c opEncode10 .gather input) :=
  reaches_loaded (start := awaitInput) (fun _ => rfl) (fun _ => rfl) input

theorem reaches_loaded_encode11 (c : Config) (input : List Byte) :
    Reaches (commandRun c 0 6 input) (loaded c opEncode11 .gather input) :=
  reaches_loaded (start := awaitInput) (fun _ => rfl) (fun _ => rfl) input

end Sys2Proof.Machine

/-! # A command that reads its input alone (46_commands.md R268) -/

namespace Sys2Proof.Machine

/-- The command's input still to be read is `bs`, then EOI; the host has nothing left to do and the
capacities are open. -/
structure Reading (s : State) (bs : List Byte) : Prop where
  port : s.inPort = bs.map InAnswer.byte ++ [.eoi]
  queue : s.hostQ = []
  maxIn : s.config.maxIn = none
  maxOut : s.config.maxOut = none
  command : s.op ≠ opOverlay

theorem Reading.readsSrc {s : State} {bs : List Byte} (h : Reading s bs) : s.readsSrc = false := by
  simp [State.readsSrc, h.command]

theorem Reading.view {s : State} {bs : List Byte} (h : Reading s bs) :
    s.view = { bytes := bs, stop := .eoi } := by
  have hview := (congrArg portView h.port).trans (portView_bytes_eoi bs [])
  rw [view_of_room h.readsSrc (by simp [h.maxIn]), hview]

theorem Reading.consume {s : State} {taken bs : List Byte} (h : Reading s (taken ++ bs)) :
    Reading (consume taken.length s) bs where
  port := by
    rw [consume_eq_portAfter, portAfter, h.readsSrc, h.port, List.map_append, List.append_assoc]
    exact List.drop_left' (List.length_map _)
  queue := h.queue
  maxIn := h.maxIn
  maxOut := h.maxOut
  command := h.command

/-- No output passes an open MAX_OUT. -/
theorem Reading.overOut {s : State} {bs : List Byte} (h : Reading s bs) (n : Nat) :
    s.overOut n = false := by
  simp [State.overOut, h.maxOut]

theorem reading_loaded {c : Config} {op : BitVec 4} {p : Phase} {input : List Byte}
    (hin : c.maxIn = none) (hout : c.maxOut = none) (hop : op ≠ opOverlay) :
    Reading (loaded c op p input) input :=
  ⟨rfl, rfl, hin, hout, hop⟩

/-! ## Token steps -/

section
variable {s : State} {bs : List Byte} (hs : Reading s bs) (hst : s.st = .busy .tokens)
include hs hst

theorem step_reading_sizeReached (hreached : s.size ≤ s.total) :
    step s = endTokens false s := by
  rw [step_sizeReached (engineTurn_of_nil hs.queue) hst hreached, countDelay_of_nil hs.queue]

theorem step_reading_flag {f : Byte} {rest : List Byte} (hbytes : bs = f :: rest)
    (hbefore : s.total < s.size) (hf : s.fcnt = 0) :
    step s = .next (loadFlags f (consume 1 s)) := by
  refine step_alone hs.queue ?_
  rw [engine_tokens hst, tokenStep_flag hbefore hf,
    runUnit_ok (i := .flag f) (rest := rest) (by rw [hs.view, hbytes]; rfl)]
  rfl

theorem step_reading_token {i : Instr} {tok : Token} {n : Nat} {rest : List Byte}
    (hdecode : decode s.tokenSlot bs = .ok (i, rest)) (hi : TokenInstr s.dispExtra i tok n)
    (hbefore : s.total < s.size) (hf : s.fcnt ≠ 0) :
    step s = emit tok (consume n (takeFlagBit s)) := by
  refine step_alone hs.queue ?_
  rw [engine_tokens hst, tokenStep_token hbefore hf,
    runUnit_ok (i := i) (rest := rest) (by rw [view_takeFlagBit, hs.view]; exact hdecode)]
  exact congrArg some (exec_token (s := takeFlagBit s) hi)

/-- The end of the input before SIZE ends the run in an error. -/
theorem endsIn_error_of_eoi {e : DecodeError} (hdecode : decode s.tokenSlot bs = .error e)
    (hbefore : s.total < s.size) : ∃ t, EndsIn s t ∧ t.st = .error := by
  have hturn := engineTurn_of_nil hs.queue
  obtain ⟨u, hu, hrun⟩ := step_tokens hturn hst hbefore
  have hview : u.view = { bytes := bs, stop := .eoi } := hu.view.trans hs.view
  have hne : u.total ≠ u.size := by
    rw [hu.total, hu.size]
    exact Nat.ne_of_lt hbefore
  have hstep := (hrun _ (runUnit_eoi (by rw [hview]; exact hdecode) (by rw [hview]))).trans
    (endTokens_eoi (s := Machine.consume u.view.bytes.length u) hne)
  refine ⟨_, endsIn_of_step hstep rfl ?_, rfl⟩
  rw [(step_engine_sameHost hturn hstep).queue, countDelay_of_nil hs.queue, hs.queue]

end

/-- A decoded token's bytes are taken off the input. -/
theorem Reading.afterToken {s : State} {bs rest : List Byte} {i : Instr} {tok : Token} {n : Nat}
    (hs : Reading s bs) (hdecode : decode s.tokenSlot bs = .ok (i, rest))
    (hi : TokenInstr s.dispExtra i tok n) :
    Reading (Machine.consume n (takeFlagBit s)) rest ∧ rest.length < bs.length := by
  obtain ⟨hbytes, -, -⟩ := encodeInvertsDecode _ _ _ _ hdecode
  have hn := hi.length_encode
  have hpos := tokenInstr_pos hi
  refine ⟨?_, by rw [← hbytes, List.length_append, hn]; omega⟩
  rw [← hn]
  refine Reading.consume (taken := encode i) ?_
  rw [hbytes]
  exact { hs with }

/-! ## The header step -/

section
variable {s : State} {bs : List Byte} (hs : Reading s bs) (hst : s.st = .busy .header)
include hs hst

theorem step_reading_header {o : Out} (h : headerStep s = some o) : step s = o :=
  step_alone hs.queue (by simpa [engine, hst] using h)

/-- An input that starts with no header ends the run in an error. -/
theorem endsIn_error_of_header {e : DecodeError} (hdecode : decode .header bs = .error e) :
    ∃ t, EndsIn s t ∧ t.st = .error := by
  have hdecode' : decode .header s.view.bytes = .error e := by
    rw [hs.view]
    exact hdecode
  have hstop : s.view.stop = .eoi := by rw [hs.view]
  cases e with
  | badTag tag =>
    exact ⟨_, endsIn_of_step (step_reading_header hs hst (headerStep_badTag hdecode')) rfl
      hs.queue, rfl⟩
  | short =>
    exact ⟨_, endsIn_of_step (step_reading_header hs hst (headerStep_eoi hdecode' hstop)) rfl
      hs.queue, rfl⟩
  | notPadding =>
    exfalso
    rcases bs with _ | ⟨tag, _ | ⟨s0, _ | ⟨s1, _ | ⟨s2, bs⟩⟩⟩⟩ <;>
      simp only [decode, decodeHeader, Except.error.injEq, reduceCtorEq] at hdecode
    split_ifs at hdecode
    cases hdecode

end

/-- A header of the format variant. -/
def headerInstr : Variant → BitVec 24 → Instr
  | .v10, size => .hdr10 size
  | .v11, size => .hdr11 size

theorem exec_headerInstr (v : Variant) (size : BitVec 24) (s : State) :
    exec (headerInstr v size) s = acceptHeader v size s := by
  cases v <;> rfl

theorem length_encode_headerInstr (v : Variant) (size : BitVec 24) :
    (encode (headerInstr v size)).length = 4 := by
  cases v <;> rfl

/-- A decoded header: the running command takes its four bytes and starts. -/
theorem Reading.header {s : State} {bs rest : List Byte} {v : Variant} {size : BitVec 24}
    (hs : Reading s bs) (hst : s.st = .busy .header)
    (hdecode : decode .header bs = .ok (headerInstr v size, rest)) :
    step s = acceptHeader v size s ∧ Reading (headerState v size s) rest := by
  refine ⟨?_, ?_⟩
  · rw [step_reading_header hs hst (headerStep_ok (rest := rest) (by rw [hs.view]; exact hdecode)),
      exec_headerInstr]
  · obtain ⟨hbytes, -, -⟩ := encodeInvertsDecode _ _ _ _ hdecode
    have htaken : Reading (Machine.consume headerLen s) rest := by
      rw [show headerLen = (encode (headerInstr v size)).length from
        (length_encode_headerInstr v size).symm]
      exact Reading.consume (by rwa [hbytes])
    exact { htaken with }

/-- With an open MAX_OUT `Decode` starts its tokens. -/
theorem startDecode_open {s : State} {bs : List Byte} (hs : Reading s bs) :
    startDecode s =
      { s with out := [], total := 0, fcnt := 0, fpos := none, st := .busy .tokens } := by
  obtain ⟨-, h⟩ | ⟨hfull, -⟩ := startDecode_spec s
  · exact h
  · rw [hs.overOut] at hfull
    cases hfull

end Sys2Proof.Machine

/-! # DECODE and VERIFY on one input (45_verifier.md R244) -/

namespace Sys2Proof.Machine

/-- A decoder and a verifier at the same place of the same stream. -/
structure Lockstep (d v : State) (bs : List Byte) : Prop where
  readingD : Reading d bs
  readingV : Reading v bs
  stD : d.st = .busy .tokens
  stV : v.st = .busy .tokens
  opD : d.op ≠ opVerify
  opV : v.op = opVerify
  total : d.total = d.out.length
  totalV : v.total = d.total
  within : d.total ≤ d.size
  size : v.size = d.size
  sizeFits : d.size < 4294967296
  fcnt : v.fcnt = d.fcnt
  flags : v.flags = d.flags
  variant : v.variant = d.variant
  dispExtra : v.dispExtra = d.dispExtra
  dispPos : 1 ≤ d.dispExtra
  outV : v.out = []

/-- Both runs end: as DONE with the same count, or both in an error. -/
def EndAlike (d v : State) : Prop :=
  ∃ d' v', EndsIn d d' ∧ EndsIn v v' ∧
    (d'.st = .done ∧ v'.st = .done ∧ d'.result = v'.result ∧
        d'.result = BitVec.ofNat 32 d'.out.length ∧ v'.out = [] ∨
      d'.st = .error ∧ v'.st = .error)

theorem EndAlike.of_reaches {d v d' v' : State} (hd : Reaches d d') (hv : Reaches v v')
    (h : EndAlike d' v') : EndAlike d v := by
  obtain ⟨d'', v'', hd', hv', hend⟩ := h
  exact ⟨d'', v'', hd.endsIn hd', hv.endsIn hv', hend⟩

theorem endAlike_of_errors {d v : State} (hd : ∃ t, EndsIn d t ∧ t.st = .error)
    (hv : ∃ t, EndsIn v t ∧ t.st = .error) : EndAlike d v := by
  obtain ⟨d', hd', hde⟩ := hd
  obtain ⟨v', hv', hve⟩ := hv
  exact ⟨d', v', hd', hv', .inr ⟨hde, hve⟩⟩

theorem Lockstep.tokenSlot {d v : State} {bs : List Byte} (h : Lockstep d v bs) :
    v.tokenSlot = d.tokenSlot := by
  simp only [State.tokenSlot, h.fcnt, h.flags, h.variant]

/-- At SIZE both are DONE. -/
theorem Lockstep.done {d v : State} {bs : List Byte} (h : Lockstep d v bs)
    (hreached : d.size ≤ d.total) : EndAlike d v := by
  have hsize : d.out.length = d.size := by
    have := h.within
    have := h.total
    omega
  have htotalV : v.total = v.size := by
    rw [h.totalV, h.total, hsize, h.size]
  have hd := step_reading_sizeReached h.readingD h.stD hreached
  rw [endTokens_decode h.opD h.readingD.command] at hd
  have hv := step_reading_sizeReached h.readingV h.stV (Nat.le_of_eq htotalV.symm)
  rw [endTokens_verify false h.opV, endVerify_of_eq htotalV] at hv
  have hresult : wide32 d.freeIx d.out.length = BitVec.ofNat 32 d.size := by
    rw [hsize, wide32_of_lt h.sizeFits]
  refine ⟨_, _, endsIn_of_step hd rfl h.readingD.queue, endsIn_of_step hv rfl h.readingV.queue,
    .inl ⟨rfl, rfl, ?_, ?_, h.outV⟩⟩
  · rw [finish_result, finish_result, hresult, h.size, wide32_of_lt h.sizeFits]
  · rw [finish_result, finish_out, hresult, hsize]

/-- After a flag byte both are at the same place again. -/
theorem Lockstep.afterFlag {d v : State} {f : Byte} {rest : List Byte}
    (h : Lockstep d v (f :: rest)) :
    Lockstep (loadFlags f (consume 1 d)) (loadFlags f (consume 1 v)) rest :=
  { h with
    readingD := { Reading.consume (taken := [f]) h.readingD with }
    readingV := { Reading.consume (taken := [f]) h.readingV with }
    fcnt := rfl
    flags := rfl }

/-- A token instruction's displacement is positive (30_encoding.md R84 to R87). -/
theorem TokenInstr.disp_pos {dx : Nat} {i : Instr} {tok : Token} {n : Nat}
    (h : TokenInstr dx i tok n) (hdx : 1 ≤ dx) :
    ∀ len disp, tok = .matchRef len disp → 1 ≤ disp := by
  rintro len disp rfl
  cases h with
  | m10 l d => omega
  | m11s i d => omega
  | m11e8 n d => omega
  | m11e16 n d => omega

/-- A verifier past SIZE ends in its length error. -/
theorem endsIn_error_of_past {v : State} {bs : List Byte} (hv : Reading v bs)
    (hst : v.st = .busy .tokens) (ho : v.op = opVerify) (hpast : v.size < v.total) :
    ∃ t, EndsIn v t ∧ t.st = .error := by
  have hstep := step_reading_sizeReached hv hst (Nat.le_of_lt hpast)
  rw [endTokens_verify false ho, endVerify_of_ne (Nat.ne_of_gt hpast)] at hstep
  exact ⟨_, endsIn_of_step hstep rfl hv.queue, rfl⟩

/-- What one token makes of the pair: both go on at the same place, or both end in an error. -/
theorem Lockstep.token {d v : State} {bs rest : List Byte} {i : Instr} {tok : Token} {n : Nat}
    (h : Lockstep d v bs) (hbefore : d.total < d.size) (hf : d.fcnt ≠ 0)
    (hdecode : decode d.tokenSlot bs = .ok (i, rest)) (hi : TokenInstr d.dispExtra i tok n)
    (hrest : ∀ d' v', Lockstep d' v' rest → EndAlike d' v') : EndAlike d v := by
  have hdecodeV : decode v.tokenSlot bs = .ok (i, rest) := by rwa [h.tokenSlot]
  have hiV : TokenInstr v.dispExtra i tok n := by rwa [h.dispExtra]
  have hstepD := step_reading_token h.readingD h.stD hdecode hi hbefore hf
  have hstepV := step_reading_token h.readingV h.stV hdecodeV hiV
    (by rw [h.totalV, h.size]; exact hbefore) (by rwa [h.fcnt])
  obtain ⟨hreadingD, -⟩ := h.readingD.afterToken hdecode hi
  obtain ⟨hreadingV, -⟩ := h.readingV.afterToken hdecodeV hiV
  obtain ⟨d', v', hd', hv', hpair⟩ := emit_pair (d := consume n (takeFlagBit d))
    (v := consume n (takeFlagBit v)) h.opD h.opV h.total h.totalV hbefore
    (hi.disp_pos h.dispPos)
  rw [hd'] at hstepD
  rw [hv'] at hstepV
  cases hpair with
  | accepted o hlength hroom =>
    refine .of_reaches (.single hstepD) (.single hstepV) (hrest _ _ { h with
      readingD := { hreadingD with }
      readingV := { hreadingV with }
      total := ?_
      totalV := congrArg (· + tok.count) h.totalV
      within := hroom
      fcnt := congrArg (· - 1) h.fcnt
      flags := congrArg (fun f : BitVec 8 => f <<< 1) h.flags })
    exact (congrArg (· + tok.count) h.total).trans hlength.symm
  | outOfRange =>
    exact endAlike_of_errors ⟨_, endsIn_of_step hstepD rfl hreadingD.queue, rfl⟩
      ⟨_, endsIn_of_step hstepV rfl hreadingV.queue, rfl⟩
  | overrun hpast =>
    obtain ⟨t, ht, hte⟩ := endsIn_error_of_past
      (v := { consume n (takeFlagBit v) with total := v.total + tok.count })
      { hreadingV with } h.stV h.opV (by
        have hpast : d.size < d.total + tok.count := hpast
        simp only [consume_size, takeFlagBit_size, h.size, h.totalV]
        exact hpast)
    exact endAlike_of_errors ⟨_, endsIn_of_step hstepD rfl hreadingD.queue, rfl⟩
      ⟨t, (Reaches.single hstepV).endsIn ht, hte⟩

/-- The pair ends alike, by the length of the input still to be read. -/
theorem Lockstep.endAlike {d v : State} {bs : List Byte} (h : Lockstep d v bs) :
    EndAlike d v := by
  induction hn : bs.length using Nat.strongRecOn generalizing d v bs with
  | ind n ih =>
    subst hn
    by_cases hreached : d.size ≤ d.total
    · exact h.done hreached
    have hbefore : d.total < d.size := Nat.lt_of_not_le hreached
    have hbeforeV : v.total < v.size := by rwa [h.totalV, h.size]
    cases hdecode : decode d.tokenSlot bs with
    | error e =>
      exact endAlike_of_errors (endsIn_error_of_eoi h.readingD h.stD hdecode hbefore)
        (endsIn_error_of_eoi h.readingV h.stV (by rwa [h.tokenSlot]) hbeforeV)
    | ok r =>
      obtain ⟨i, rest⟩ := r
      by_cases hf : d.fcnt = 0
      · cases bs with
        | nil => simp [State.tokenSlot, hf, decode, decodeFlag] at hdecode
        | cons f rest' =>
          have hd := step_reading_flag h.readingD h.stD rfl hbefore hf
          have hv := step_reading_flag h.readingV h.stV rfl hbeforeV (h.fcnt.trans hf)
          exact .of_reaches (.single hd) (.single hv)
            (ih rest'.length (Nat.lt_succ_self _) h.afterFlag rfl)
      · obtain ⟨tok, n, hi⟩ := decode_token_ok hf d.dispExtra hdecode
        obtain ⟨-, hshorter⟩ := h.readingD.afterToken hdecode hi
        exact h.token hbefore hf hdecode hi fun d' v' h' => ih rest.length hshorter h' rfl

/-! ## From the header on -/

theorem decode_header_ok_headerInstr {bs rest : List Byte} {i : Instr}
    (h : decode .header bs = .ok (i, rest)) : ∃ v size, i = headerInstr v size := by
  obtain ⟨size, rfl | rfl⟩ := decode_header_ok h
  · exact ⟨.v10, size, rfl⟩
  · exact ⟨.v11, size, rfl⟩

/-- A legal header puts both at the first token. -/
theorem lockstep_of_header {d v : State} {rest : List Byte} {var : Variant} {size : BitVec 24}
    (hd : Reading (headerState var size d) rest) (hv : Reading (headerState var size v) rest)
    (hopD : d.op ≠ opVerify) (hopV : v.op = opVerify) (hflags : v.flags = d.flags)
    (hout : v.out = []) :
    Lockstep { headerState var size d with
        out := [], total := 0, fcnt := 0, fpos := none, st := .busy .tokens }
      (startVerify (headerState var size v)) rest where
  readingD := { hd with }
  readingV := { hv with }
  stD := rfl
  stV := rfl
  opD := hopD
  opV := hopV
  total := rfl
  totalV := rfl
  within := Nat.zero_le _
  size := rfl
  sizeFits := Nat.lt_trans size.isLt (by decide)
  fcnt := rfl
  flags := hflags
  variant := rfl
  dispExtra := rfl
  dispPos := Nat.le_refl 1
  outV := hout

theorem endAlike_loaded {c : Config} (hin : c.maxIn = none) (hout : c.maxOut = none)
    (bs : List Byte) :
    EndAlike (loaded c opDecode .header bs) (loaded c opVerify .header bs) := by
  have hd : Reading (loaded c opDecode .header bs) bs := reading_loaded hin hout (by decide)
  have hv : Reading (loaded c opVerify .header bs) bs := reading_loaded hin hout (by decide)
  have hopD : (loaded c opDecode .header bs).op ≠ opVerify := by
    have hne : opDecode ≠ opVerify := by decide
    exact hne
  cases hdecode : decode .header bs with
  | error e =>
    exact endAlike_of_errors (endsIn_error_of_header hd rfl hdecode)
      (endsIn_error_of_header hv rfl hdecode)
  | ok r =>
    obtain ⟨i, rest⟩ := r
    obtain ⟨var, size, rfl⟩ := decode_header_ok_headerInstr hdecode
    obtain ⟨hstepD, hreadingD⟩ := hd.header rfl hdecode
    obtain ⟨hstepV, hreadingV⟩ := hv.header rfl hdecode
    rw [acceptHeader_decode var size hopD, startDecode_open hreadingD] at hstepD
    rw [acceptHeader_verify var size rfl] at hstepV
    exact .of_reaches (.single hstepD) (.single hstepV)
      (lockstep_of_header hreadingD hreadingV hopD rfl rfl rfl).endAlike

/-- The whole runs of DECODE and VERIFY on one input end alike. -/
theorem endAlike_commandRun {c : Config} (hin : c.maxIn = none) (hout : c.maxOut = none)
    (bs : List Byte) : EndAlike (commandRun c 0 1 bs) (commandRun c 0 7 bs) :=
  .of_reaches (reaches_loaded_decode c bs) (reaches_loaded_verify c bs)
    (endAlike_loaded hin hout bs)

/-- Settles O56: decoder and verifier go through the stream in lockstep until both end. -/
theorem decodeAndVerifyAgree : Obligations.DecodeAndVerifyAgree := by
  intro c bs hin hout
  obtain ⟨d, v, hd, hv, ⟨hdone, hdoneV, hresult, hlength, -⟩ | ⟨herror, herrorV⟩⟩ :=
    endAlike_commandRun hin hout bs
  · exact ⟨d, v, hd, hv, .inl hdone, .inl hdoneV, iff_of_true hdone hdoneV,
      fun _ => ⟨hresult, hlength⟩⟩
  · exact ⟨d, v, hd, hv, .inr herror, .inr herrorV, by simp [herror, herrorV],
      by simp [herror]⟩

end Sys2Proof.Machine

/-! # What an encoder writes (44_encoder.md R215 to R227) -/

namespace Sys2Proof.Machine

/-! ## Tokens, groups and bodies that stand for an input -/

/-- The tokens stand for the input `b` from index `p` up to `q`, and are packed to these bytes. -/
inductive TokensAt (v : Variant) (b : List Byte) : Nat → List Token → List Byte → Nat → Prop
  | nil (p : Nat) : TokensAt v b p [] [] p
  | cons {p q : Nat} {tok : Token} {ts : List Token} {bs rest : List Byte}
      (htok : TokenAt v b p tok) (hpack : packToken v 1 tok = .ok bs)
      (hrest : TokensAt v b (p + tok.count) ts rest q) : TokensAt v b p (tok :: ts) (bs ++ rest) q

theorem TokensAt.snoc {v : Variant} {b : List Byte} {p q : Nat} {ts : List Token} {tok : Token}
    {bs new : List Byte} (h : TokensAt v b p ts bs q) (htok : TokenAt v b q tok)
    (hpack : packToken v 1 tok = .ok new) :
    TokensAt v b p (ts ++ [tok]) (bs ++ new) (q + tok.count) := by
  induction h with
  | nil p =>
    have h : TokensAt v b p [tok] (new ++ []) (p + tok.count) := .cons htok hpack (.nil _)
    rwa [List.append_nil] at h
  | cons htok' hpack' _ ih =>
    rw [List.append_assoc]
    exact .cons htok' hpack' (ih htok)

/-- A token stands for at least one byte. -/
theorem TokensAt.count_le {v : Variant} {b : List Byte} {p q : Nat} {ts : List Token}
    {bs : List Byte} (h : TokensAt v b p ts bs q) : p + ts.length ≤ q := by
  induction h with
  | nil p => exact Nat.le_refl p
  | cons htok _ _ ih =>
    have := htok.count_pos
    simp only [List.length_cons]
    omega

theorem TokensAt.length_le {v : Variant} {b : List Byte} {p q : Nat} {ts : List Token}
    {bs : List Byte} (h : TokensAt v b p ts bs q) : bs.length ≤ 4 * ts.length := by
  induction h with
  | nil p => exact Nat.le_refl 0
  | cons _ hpack _ ih =>
    have := packToken_length hpack
    simp only [List.length_append, List.length_cons]
    omega

/-- The group of such tokens is written as their flag byte and their bytes. -/
theorem TokensAt.packsTo {v : Variant} {b : List Byte} {p q : Nat} {s : State}
    {es : List ChunkEntry} {bs : List Byte}
    (h : TokensAt v b p (es.map (fun e => e.tok)) bs q) (hv : s.variant = v)
    (hx : s.dispExtra = 1) :
    PacksTo s es (flagByte (es.map (fun e => e.tok)) 0 :: bs) := by
  rw [PacksTo, hv, hx]
  have hbytes : ∃ bss : List (List Byte),
      List.Forall₂ (fun e b => packToken v 1 e.tok = .ok b) es bss ∧ bs = bss.flatten := by
    induction es generalizing p bs with
    | nil =>
      cases h
      exact ⟨[], .nil, rfl⟩
    | cons e es ih =>
      cases h with
      | cons _ hpack hrest =>
        obtain ⟨bss, hbss, rfl⟩ := ih hrest
        exact ⟨_ :: bss, .cons hpack hbss, rfl⟩
  obtain ⟨bss, hpack, rfl⟩ := hbytes
  exact ⟨bss, hpack, rfl⟩

/-- Full groups that stand for the input up to index `q`. -/
inductive GroupsAt (v : Variant) (b : List Byte) : List Byte → Nat → Prop
  | nil : GroupsAt v b [] 0
  | snoc {body bs : List Byte} {p q : Nat} {ts : List Token} (h : GroupsAt v b body p)
      (hfull : ts.length = 8) (hts : TokensAt v b p ts bs q) :
      GroupsAt v b (body ++ flagByte ts 0 :: bs) q

/-- A stream after its header: full groups, and a last group of fewer tokens where they do not
reach the input's end. -/
inductive BodyAt (v : Variant) (b : List Byte) : List Byte → Prop
  | full {body : List Byte} (h : GroupsAt v b body b.length) : BodyAt v b body
  | lastGroup {body bs : List Byte} {p : Nat} {ts : List Token} (h : GroupsAt v b body p)
      (hne : ts ≠ []) (hshort : ts.length < 8) (hts : TokensAt v b p ts bs b.length) :
      BodyAt v b (body ++ flagByte ts 0 :: bs)

/-- At most five bytes are written for an input byte. -/
theorem GroupsAt.length_le {v : Variant} {b body : List Byte} {q : Nat}
    (h : GroupsAt v b body q) : body.length ≤ 5 * q := by
  induction h with
  | nil => exact Nat.le_refl 0
  | snoc _ hfull hts ih =>
    have := hts.length_le
    have := hts.count_le
    simp only [List.length_append, List.length_cons]
    omega

theorem BodyAt.length_le {v : Variant} {b body : List Byte} (h : BodyAt v b body) :
    body.length ≤ 5 * b.length := by
  cases h with
  | full h => exact h.length_le
  | lastGroup h hne _ hts =>
    have := h.length_le
    have := hts.length_le
    have := hts.count_le
    have := List.length_pos_of_ne_nil hne
    simp only [List.length_append, List.length_cons]
    omega

/-! ## The encode loop -/

/-- An encoder in its loop: the groups written, and the chunk's tokens, stand for the input up to
POS. -/
structure Encoding (v : Variant) (b : List Byte) (s : State) : Prop where
  st : s.st = .busy .search
  queue : s.hostQ = []
  maxOut : s.config.maxOut = none
  dmin : 1 ≤ s.config.encDmin
  variant : s.variant = v
  dispExtra : s.dispExtra = 1
  inp : s.inp = b
  canonical : WindowCanonical s
  window : WindowHolds s
  count : s.ccnt = s.chunk.length
  chunkOpen : s.chunk.length < 8
  packed : ∃ body p bs, GroupsAt v b body p ∧
    TokensAt v b p (s.chunk.map (fun e => e.tok)) bs s.pos ∧
    s.out = headerBytes v b.length ++ body

/-- An encoder's output up to the padding, which is due. -/
structure Encoded (v : Variant) (b : List Byte) (s : State) : Prop where
  st : s.st = .busy .pad
  queue : s.hostQ = []
  maxOut : s.config.maxOut = none
  packed : ∃ body, BodyAt v b body ∧ s.out = headerBytes v b.length ++ body

theorem overOut_of_open {s : State} (h : s.config.maxOut = none) (n : Nat) :
    s.overOut n = false := by
  simp [State.overOut, h]

theorem step_search_alone {s : State} (hq : s.hostQ = []) (hst : s.st = .busy .search) :
    step s = searchStep s := by
  rw [step_search (engineTurn_of_nil hq) hst, countDelay_of_nil hq]

/-- The tokens of the chunk with the next one. -/
theorem Encoding.tokensAt {v : Variant} {b : List Byte} {s : State} {x : Byte} {p : Nat}
    {bs : List Byte} (h : Encoding v b s) (hx : s.inp[s.pos]? = some x)
    (hts : TokensAt v b p (s.chunk.map (fun e => e.tok)) bs s.pos) :
    ∃ new, TokensAt v b p ((noteToken (s.searchToken x) s).chunk.map (fun e => e.tok)) (bs ++ new)
      (s.pos + (s.searchToken x).count) := by
  have htok := tokenAt_searchToken h.window h.dmin hx
  rw [h.variant, h.inp] at htok
  obtain ⟨new, hpack⟩ := packToken_tokenAt htok
  refine ⟨new, ?_⟩
  rw [noteToken_chunk, List.map_append]
  exact hts.snoc htok hpack

/-- A step of the loop keeps its invariant where the chunk and the output do. -/
theorem Encoding.of_step {v : Variant} {b : List Byte} {s t : State} (h : Encoding v b s)
    (hstep : step s = .next t)
    (hframe : t.st = s.st ∧ t.hostQ = s.hostQ ∧ t.variant = s.variant ∧
      t.dispExtra = s.dispExtra ∧ t.inp = s.inp)
    (hcount : t.ccnt = t.chunk.length) (hopen : t.chunk.length < 8)
    (hpacked : ∃ body p bs, GroupsAt v b body p ∧
      TokensAt v b p (t.chunk.map (fun e => e.tok)) bs t.pos ∧
      t.out = headerBytes v b.length ++ body) : Encoding v b t := by
  obtain ⟨hst, hqueue, hvariant, hdisp, hinp⟩ := hframe
  have hconfig := step_config hstep
  exact { st := hst.trans h.st
          queue := hqueue.trans h.queue
          maxOut := by rw [hconfig, h.maxOut]
          dmin := by rw [hconfig]; exact h.dmin
          variant := hvariant.trans h.variant
          dispExtra := hdisp.trans h.dispExtra
          inp := hinp.trans h.inp
          canonical := stepKeepsWindowCanonical _ _ h.canonical hstep
          window := stepKeepsWindow _ _ h.canonical h.window hstep
          count := hcount
          chunkOpen := hopen
          packed := hpacked }

/-- A token joins a chunk that has room for an eighth. -/
theorem Encoding.step_open {v : Variant} {b : List Byte} {s : State} {x : Byte}
    (h : Encoding v b s) (hx : s.inp[s.pos]? = some x) (hopen : s.ccnt < 7) :
    ∃ t, step s = .next t ∧ Encoding v b t ∧ t.pos = s.pos + (s.searchToken x).count := by
  obtain ⟨body, p, bs, hbody, hts, hout⟩ := h.packed
  obtain ⟨new, hts'⟩ := h.tokensAt hx hts
  have hcount := h.count
  have hstep := searchStep_open hx hopen
  rw [← step_search_alone h.queue h.st] at hstep
  refine ⟨_, hstep, h.of_step hstep ⟨rfl, rfl, rfl, rfl, rfl⟩ ?_ ?_
    ⟨body, p, _, hbody, hts', hout⟩, rfl⟩
  · simp [hcount]
  · simp only [slideWindow_chunk, noteToken_chunk, List.length_append, List.length_singleton]
    omega

/-- The eighth token's group is written. -/
theorem Encoding.step_eighth {v : Variant} {b : List Byte} {s : State} {x : Byte}
    (h : Encoding v b s) (hx : s.inp[s.pos]? = some x) (hseven : s.ccnt = 7) :
    ∃ t, step s = .next t ∧ Encoding v b t ∧ t.pos = s.pos + (s.searchToken x).count := by
  obtain ⟨body, p, bs, hbody, hts, hout⟩ := h.packed
  obtain ⟨new, hts'⟩ := h.tokensAt hx hts
  have hdue : (noteToken (s.searchToken x) s).ccnt =
      (noteToken (s.searchToken x) s).chunk.length := by
    simp [h.count]
  have hfull : ((noteToken (s.searchToken x) s).chunk.map (fun e => e.tok)).length = 8 := by
    rw [List.length_map, ← hdue, noteToken_ccnt, hseven]
  have hflush := flushChunk_packs (s := noteToken (s.searchToken x) s) (by simp) hdue
    (hts'.packsTo h.variant h.dispExtra) (overOut_of_open h.maxOut _)
  have hstep := searchStep_eighth hx hseven hflush
  rw [← step_search_alone h.queue h.st] at hstep
  refine ⟨_, hstep, h.of_step hstep ⟨rfl, rfl, rfl, rfl, rfl⟩ rfl (Nat.zero_lt_succ _)
    ⟨_, _, [], .snoc hbody hfull hts', .nil _, ?_⟩, rfl⟩
  rw [← List.append_assoc, ← hout]
  rfl

/-- A turn with input left takes one token and keeps the loop's invariant. -/
theorem Encoding.step_token {v : Variant} {b : List Byte} {s : State} (h : Encoding v b s)
    (hpos : s.pos < b.length) : ∃ t, step s = .next t ∧ Encoding v b t ∧ s.pos < t.pos := by
  obtain ⟨x, hx⟩ : ∃ x, s.inp[s.pos]? = some x := by
    rw [h.inp]
    exact ⟨_, List.getElem?_eq_getElem hpos⟩
  have hadvance := (tokenAt_searchToken h.window h.dmin hx).count_pos
  have hcount := h.count
  have hchunk := h.chunkOpen
  by_cases hopen : s.ccnt < 7
  · obtain ⟨t, hstep, ht, hpos'⟩ := h.step_open hx hopen
    exact ⟨t, hstep, ht, by omega⟩
  · obtain ⟨t, hstep, ht, hpos'⟩ := h.step_eighth hx (by omega)
    exact ⟨t, hstep, ht, by omega⟩

/-- The turn at the end of the input writes what is left of the chunk. -/
theorem Encoding.step_end {v : Variant} {b : List Byte} {s : State} (h : Encoding v b s)
    (hpos : s.pos = b.length) : ∃ t, step s = .next t ∧ Encoded v b t := by
  have hend : s.inp[s.pos]? = none := by
    rw [h.inp, hpos]
    exact List.getElem?_eq_none (Nat.le_refl _)
  obtain ⟨body, p, bs, hbody, hts, hout⟩ := h.packed
  rw [hpos] at hts
  rw [step_search_alone h.queue h.st]
  by_cases hempty : s.chunk = []
  · have hflush : flushChunk s = .ok s := by
      rw [flushChunk, if_pos (by rw [h.count, hempty]; rfl)]
    rw [hempty] at hts
    cases hts
    exact ⟨_, searchStep_end hend hflush, rfl, h.queue, h.maxOut, body, .full hbody, hout⟩
  · have hflush := flushChunk_packs hempty h.count (hts.packsTo h.variant h.dispExtra)
      (overOut_of_open h.maxOut _)
    refine ⟨_, searchStep_end hend hflush, rfl, h.queue, h.maxOut, _,
      .lastGroup hbody (by simpa using hempty) (by simpa using h.chunkOpen) hts, ?_⟩
    rw [← List.append_assoc, ← hout]

/-- The loop ends, by the input left. -/
theorem Encoding.reaches_encoded {v : Variant} {b : List Byte} {s : State} (h : Encoding v b s) :
    ∃ t, Reaches s t ∧ Encoded v b t := by
  induction hn : b.length - s.pos using Nat.strongRecOn generalizing s with
  | ind n ih =>
    subst hn
    by_cases hpos : s.pos < b.length
    · obtain ⟨u, hstep, hu, hlt⟩ := h.step_token hpos
      obtain ⟨t, hut, ht⟩ := ih (b.length - u.pos) (by omega) hu rfl
      exact ⟨t, .head hstep hut, ht⟩
    · have hinside := h.window.posInside
      rw [h.inp] at hinside
      obtain ⟨t, hstep, ht⟩ := h.step_end (by omega)
      exact ⟨t, .single hstep, ht⟩

/-! ## Before the loop and after it -/

/-- An encoder gathers its whole input, at most 0xFFFFFF bytes. -/
theorem reaches_gathered {s : State} {rest : List Byte} (hs : Reading s rest)
    (hst : s.st = .busy .gather) (hsize : (s.inp ++ rest).length ≤ 0xFFFFFF) :
    ∃ t, Reaches s t ∧ Reading t [] ∧
      t = { s with inp := s.inp ++ rest, ip := t.ip, inPort := t.inPort } := by
  induction rest generalizing s with
  | nil => exact ⟨s, .refl s, hs, by rw [List.append_nil]⟩
  | cons x rest ih =>
    have hshort : s.inp.length < 0xFFFFFF := by
      simp only [List.length_append, List.length_cons] at hsize
      omega
    have hstep : step s = .next { s with
        inp := s.inp ++ [x], ip := s.ip + 1, inPort := s.inPort.drop 1 } :=
      step_alone hs.queue ((engine_gather hst).trans
        (gatherStep_byte hst (rest := rest) (by rw [hs.view]) (.inr hshort)))
    have hreading := Reading.consume (taken := [x]) hs
    rw [List.length_singleton, consume_gather 1 hst] at hreading
    obtain ⟨t, hreach, ht, heq⟩ := ih (s := { s with
      inp := s.inp ++ [x], ip := s.ip + 1, inPort := s.inPort.drop 1 }) { hreading with } hst
      (by simpa using hsize)
    refine ⟨t, .head hstep hreach, ht, ?_⟩
    rw [List.append_assoc] at heq
    exact heq

/-- An encoder's run from the start of its command to its loop. -/
theorem reaches_encoding {c : Config} {op : BitVec 4} {v : Variant} {b : List Byte}
    (hin : c.maxIn = none) (hout : c.maxOut = none) (hdmin : 1 ≤ c.encDmin)
    (hop : op ≠ opOverlay) (hencoding : (op == opEncode10 || op == opEncode11) = true)
    (hvariant : ∀ old, startVariant op old = v) (hdisp : startDispExtra op false = 1)
    (hsize : b.length ≤ 0xFFFFFF) :
    ∃ t, Reaches (loaded c op .gather b) t ∧ Encoding v b t := by
  have hreading : Reading (loaded c op .gather b) b := reading_loaded hin hout hop
  obtain ⟨u, hreach, hu, heq⟩ := reaches_gathered hreading rfl hsize
  have hst : u.st = .busy .gather := by rw [heq]; rfl
  have he : u.encoding = true := by rw [heq]; exact hencoding
  have hv : u.variant = v := by rw [heq]; exact hvariant _
  have hx : u.dispExtra = 1 := by rw [heq]; exact hdisp
  have hinp : u.inp = b := by rw [heq]; rfl
  have hwin : u.win = [] := by rw [heq]; rfl
  have hd : 1 ≤ u.config.encDmin := by rw [heq]; exact hdmin
  have hstart : step u = .next { u with
      out := headerBytes u.variant u.inp.length, pos := 0, wfill := 0, chunk := [], ccnt := 0,
      st := .busy .search } := by
    rw [← startEncode_fits (overOut_of_open hu.maxOut 4)]
    exact step_alone hu.queue ((engine_gather hst).trans
      (gatherStep_eoi_encode (by rw [hu.view]) (by rw [hu.view]) he))
  refine ⟨_, hreach.trans (.single hstart), ?_⟩
  exact { st := rfl, queue := hu.queue, maxOut := hu.maxOut, dmin := hd, variant := hv
          dispExtra := hx, inp := hinp
          canonical := by
            rw [WindowCanonical, hwin]
            exact ⟨rfl, nofun⟩
          window := windowHolds_empty rfl rfl
          count := rfl
          chunkOpen := by simp
          packed := ⟨[], 0, [], .nil, .nil 0, by rw [hv, hinp, List.append_nil]⟩ }

/-- The padding and the last line of the command. -/
theorem Encoded.endsIn {v : Variant} {b : List Byte} {s : State} (h : Encoded v b s) :
    ∃ t body pad, EndsIn s t ∧ t.st = .done ∧ BodyAt v b body ∧
      t.out = headerBytes v b.length ++ (body ++ pad) ∧ t.out.length % 4 = 0 ∧ pad.length ≤ 3 ∧
      t.result = wide32 s.freeIx t.out.length := by
  obtain ⟨body, hbody, hout⟩ := h.packed
  have hpad : step s = .next { s with
      out := s.out ++ List.replicate (padCount s.out.length).val 0xFF#8, st := .busy .finish } := by
    rw [step_pad (engineTurn_of_nil h.queue) h.st, countDelay_of_nil h.queue]
    exact execPad_fits (overOut_of_open h.maxOut _)
  have hfinish := step_finish (s := { s with
    out := s.out ++ List.replicate (padCount s.out.length).val 0xFF#8, st := .busy .finish })
    (engineTurn_of_nil h.queue) rfl
  rw [countDelay_of_nil (by exact h.queue)] at hfinish
  refine ⟨_, body, List.replicate (padCount s.out.length).val 0xFF#8,
    (Reaches.single hpad).endsIn (endsIn_of_step hfinish rfl h.queue), rfl, hbody, ?_, ?_, ?_, rfl⟩
  · rw [← List.append_assoc, ← hout]
    rfl
  · simpa using padCount_fills s.out.length
  · rw [List.length_replicate]
    exact Nat.le_of_lt_succ (padCount s.out.length).isLt

/-- The whole run of an encoder. -/
theorem encode_endsIn {c : Config} {w : Word} {b : List Byte} (hwf : c.wf = true)
    (hin : c.maxIn = none) (hout : c.maxOut = none) (hw : w = 5 ∨ w = 6)
    (hsize : b.length ≤ 0xFFFFFF) :
    ∃ v t body pad, EndsIn (commandRun c 0 w b) t ∧ t.st = .done ∧ BodyAt v b body ∧
      t.out = headerBytes v b.length ++ (body ++ pad) ∧ t.out.length % 4 = 0 ∧
      t.out.length < 4294967296 ∧ t.result = BitVec.ofNat 32 t.out.length := by
  have hdmin : 1 ≤ c.encDmin := by
    simp only [Config.wf, Bool.and_eq_true, decide_eq_true_eq] at hwf
    exact hwf.1.2
  have hloop : ∃ v u, Reaches (commandRun c 0 w b) u ∧ Encoding v b u := by
    obtain rfl | rfl := hw
    · obtain ⟨u, hu, henc⟩ := reaches_encoding (op := opEncode10) (v := .v10) hin hout hdmin
        (by decide) (by decide) (fun _ => rfl) (by decide) hsize
      exact ⟨.v10, u, (reaches_loaded_encode10 c b).trans hu, henc⟩
    · obtain ⟨u, hu, henc⟩ := reaches_encoding (op := opEncode11) (v := .v11) hin hout hdmin
        (by decide) (by decide) (fun _ => rfl) (by decide) hsize
      exact ⟨.v11, u, (reaches_loaded_encode11 c b).trans hu, henc⟩
  obtain ⟨v, u, hu, henc⟩ := hloop
  obtain ⟨s, hs, hencoded⟩ := henc.reaches_encoded
  obtain ⟨t, body, pad, ht, hdone, hbody, hbytes, hfour, hpad, hresult⟩ := hencoded.endsIn
  have hfits : t.out.length < 4294967296 := by
    have := hbody.length_le
    simp only [hbytes, List.length_append, length_headerBytes]
    omega
  exact ⟨v, t, body, pad, (hu.trans hs).endsIn ht, hdone, hbody, hbytes, hfour, hfits,
    by rw [hresult, wide32_of_lt hfits]⟩

end Sys2Proof.Machine

/-! # Decoding what an encoder wrote (44_encoder.md R227) -/

namespace Sys2Proof.Machine

/-- A decoder of the stream of `b`, in standalone mode, that holds the input up to index `p` and has
the bytes `bs` still to read. -/
structure Decoding (v : Variant) (b : List Byte) (p : Nat) (d : State) (bs : List Byte) :
    Prop where
  reading : Reading d bs
  st : d.st = .busy .tokens
  command : d.op ≠ opVerify
  variant : d.variant = v
  dispExtra : d.dispExtra = 1
  size : d.size = b.length
  out : d.out = b.take p
  total : d.total = p

/-- The slot a token is read in. -/
def tokenSlotOf (v : Variant) (tok : Token) : Slot :=
  if isMatch tok then
    match v with
    | .v10 => .match10
    | .v11 => .match11
  else .literal

/-- The flag bit selects the token's slot. -/
theorem tokenSlot_of_flag {d : State} {tok : Token} (hf : d.fcnt ≠ 0)
    (hflag : d.flags.getLsbD 7 = isMatch tok) : d.tokenSlot = tokenSlotOf d.variant tok := by
  rw [State.tokenSlot, if_neg hf, hflag]
  unfold tokenSlotOf
  cases isMatch tok <;> cases d.variant <;> rfl

/-- A packed token is read back as an instruction that emits it. -/
theorem decode_packed {v : Variant} {b : List Byte} {p : Nat} {tok : Token} {bs : List Byte}
    (htok : TokenAt v b p tok) (hpack : packToken v 1 tok = .ok bs) (rest : List Byte) :
    ∃ i n, decode (tokenSlotOf v tok) (bs ++ rest) = .ok (i, rest) ∧ TokenInstr 1 i tok n := by
  cases htok with
  | literal x _ =>
    cases hpack
    exact ⟨_, _, rfl, .lit x⟩
  | matchRef len disp h =>
    obtain ⟨hlen, hmax, hlow, hhigh, -, -, -⟩ := h
    obtain ⟨h10, h11⟩ := packedMatchesDecode State.reset len disp rest hlen
    cases v with
    | v10 =>
      obtain ⟨bs', i, hpack', -, hdecode, hmatch⟩ := h10 hmax hlow (by
        have : State.reset.dispExtra = 1 := rfl
        omega)
      cases hpack.symm.trans hpack'
      obtain ⟨n, hi⟩ := tokenInstr_of_matchOf hmatch
      exact ⟨i, n, hdecode, hi⟩
    | v11 =>
      obtain ⟨bs', i, hpack', -, hdecode, hmatch⟩ := h11 hmax hlow hhigh
      cases hpack.symm.trans hpack'
      obtain ⟨n, hi⟩ := tokenInstr_of_matchOf hmatch
      exact ⟨i, n, hdecode, hi⟩

/-- One token: the decoder then holds the input up to its end. -/
theorem Decoding.step_token {v : Variant} {b : List Byte} {p : Nat} {d : State} {tok : Token}
    {bs rest : List Byte} (h : Decoding v b p d (bs ++ rest)) (htok : TokenAt v b p tok)
    (hpack : packToken v 1 tok = .ok bs) (hf : d.fcnt ≠ 0)
    (hflag : d.flags.getLsbD 7 = isMatch tok) :
    ∃ d', step d = .next d' ∧ Decoding v b (p + tok.count) d' rest ∧ d'.fcnt = d.fcnt - 1 ∧
      d'.flags = d.flags <<< 1 := by
  obtain ⟨i, n, hdecode, hi⟩ := decode_packed htok hpack rest
  rw [← h.variant, ← tokenSlot_of_flag hf hflag] at hdecode
  rw [← h.dispExtra] at hi
  have hinside := htok.inside
  have hcount := htok.count_pos
  have hstep := step_reading_token h.reading h.st hdecode hi
    (by rw [h.total, h.size]; omega) hf
  rw [emit_tokenAt (d := consume n (takeFlagBit d)) htok h.command h.out
    (by rw [consume_size, takeFlagBit_size, h.size]; exact hinside)] at hstep
  obtain ⟨hreading, -⟩ := h.reading.afterToken hdecode hi
  exact ⟨_, hstep, { h with
    reading := { hreading with }
    out := rfl
    total := congrArg (· + tok.count) h.total }, rfl, rfl⟩

/-- The flag bits left for the tokens: the next one's on top. -/
def FlagsFor (f : BitVec 8) (ts : List Token) : Prop :=
  ∀ i, i < ts.length → f.getLsbD (7 - i) = ts[i]?.any isMatch

theorem FlagsFor.head {f : BitVec 8} {tok : Token} {ts : List Token}
    (h : FlagsFor f (tok :: ts)) : f.getLsbD 7 = isMatch tok :=
  h 0 (Nat.zero_lt_succ _)

theorem FlagsFor.tail {f : BitVec 8} {tok : Token} {ts : List Token}
    (h : FlagsFor f (tok :: ts)) (hlength : ts.length < 8) : FlagsFor (f <<< 1) ts := by
  intro i hi
  have hnext := h (i + 1) (by simpa using hi)
  rw [List.getElem?_cons_succ] at hnext
  rw [← hnext, BitVec.getLsbD_shiftLeft]
  simp only [show 7 - i < 8 by omega, show ¬ 7 - i < 1 by omega, decide_true, decide_false,
    Bool.not_false, Bool.true_and]
  rfl

theorem flagsFor_flagByte {ts : List Token} (h : ts.length ≤ 8) : FlagsFor (flagByte ts 0) ts := by
  intro i hi
  rw [flagByte_getLsbD (by omega) (by omega)]
  simp

/-- The tokens of a group, while it has flag bits for them. -/
theorem Decoding.reaches_tokens {v : Variant} {b : List Byte} {p q : Nat} {ts : List Token}
    {bs rest : List Byte} {d : State} (hts : TokensAt v b p ts bs q)
    (h : Decoding v b p d (bs ++ rest)) (hfcnt : ts.length ≤ d.fcnt) (hbound : d.fcnt ≤ 8)
    (hflags : FlagsFor d.flags ts) :
    ∃ d', Reaches d d' ∧ Decoding v b q d' rest ∧ d'.fcnt = d.fcnt - ts.length := by
  induction hts generalizing d with
  | nil p => exact ⟨d, .refl d, h, rfl⟩
  | cons htok hpack _ ih =>
    rw [List.length_cons] at hfcnt
    rw [List.append_assoc] at h
    obtain ⟨u, hstep, hu, hufcnt, huflags⟩ := h.step_token htok hpack (by omega) hflags.head
    obtain ⟨d', hreach, hd', hfcnt'⟩ := ih hu (by omega) (by omega)
      (by rw [huflags]; exact hflags.tail (by omega))
    refine ⟨d', .head hstep hreach, hd', ?_⟩
    rw [hfcnt', hufcnt, List.length_cons]
    omega

/-- A group: its flag byte, then its tokens. -/
theorem Decoding.reaches_group {v : Variant} {b : List Byte} {p q : Nat} {ts : List Token}
    {bs rest : List Byte} {d : State} (hts : TokensAt v b p ts bs q) (hne : ts ≠ [])
    (hlength : ts.length ≤ 8) (h : Decoding v b p d (flagByte ts 0 :: bs ++ rest))
    (hf : d.fcnt = 0) :
    ∃ d', Reaches d d' ∧ Decoding v b q d' rest ∧ d'.fcnt = 8 - ts.length := by
  have hbefore : d.total < d.size := by
    rw [h.total, h.size]
    cases hts with
    | nil => exact absurd rfl hne
    | cons htok _ _ =>
      have := htok.inside
      have := htok.count_pos
      omega
  have hstep := step_reading_flag h.reading h.st rfl hbefore hf
  have hreading := Reading.consume (taken := [flagByte ts 0]) h.reading
  have hflag : Decoding v b p (loadFlags (flagByte ts 0) (consume 1 d)) (bs ++ rest) :=
    { h with reading := { hreading with } }
  obtain ⟨d', hreach, hd', hfcnt⟩ := Decoding.reaches_tokens hts hflag hlength (Nat.le_refl 8)
    (flagsFor_flagByte hlength)
  exact ⟨d', .head hstep hreach, hd', hfcnt⟩

/-- Full groups leave no flag bit. -/
theorem Decoding.reaches_groups {v : Variant} {b : List Byte} {q : Nat} {body rest : List Byte}
    {d : State} (hbody : GroupsAt v b body q) (h : Decoding v b 0 d (body ++ rest))
    (hf : d.fcnt = 0) : ∃ d', Reaches d d' ∧ Decoding v b q d' rest ∧ d'.fcnt = 0 := by
  induction hbody generalizing rest with
  | nil => exact ⟨d, .refl d, h, hf⟩
  | @snoc body bs p q ts _ hfull hts ih =>
    rw [List.append_assoc] at h
    obtain ⟨u, hreach, hu, hfu⟩ := ih h
    have hne : ts ≠ [] := by
      rintro rfl
      cases hfull
    obtain ⟨d', hreach', hd', hfcnt⟩ :=
      Decoding.reaches_group hts hne (Nat.le_of_eq hfull) hu hfu
    exact ⟨d', hreach.trans hreach', hd', by rw [hfcnt, hfull]⟩

/-- The whole body gives the input back. -/
theorem Decoding.reaches_body {v : Variant} {b body rest : List Byte} {d : State}
    (hbody : BodyAt v b body) (h : Decoding v b 0 d (body ++ rest)) (hf : d.fcnt = 0) :
    ∃ d', Reaches d d' ∧ Decoding v b b.length d' rest := by
  cases hbody with
  | full hgroups =>
    obtain ⟨d', hreach, hd', -⟩ := Decoding.reaches_groups hgroups h hf
    exact ⟨d', hreach, hd'⟩
  | lastGroup hgroups hne hshort hts =>
    rw [List.append_assoc] at h
    obtain ⟨u, hreach, hu, hfu⟩ := Decoding.reaches_groups hgroups h hf
    obtain ⟨d', hreach', hd', -⟩ :=
      Decoding.reaches_group hts hne (Nat.le_of_lt hshort) hu hfu
    exact ⟨d', hreach.trans hreach', hd'⟩

/-- A decoder that holds the whole input is DONE; what follows in the port is not read. -/
theorem Decoding.done {v : Variant} {b rest : List Byte} {d : State}
    (h : Decoding v b b.length d rest) (hsize : b.length < 4294967296) :
    ∃ t, EndsIn d t ∧ t.st = .done ∧ t.out = b ∧ t.result = BitVec.ofNat 32 b.length := by
  have hout : d.out = b := h.out.trans (List.take_length)
  have hstep := step_reading_sizeReached h.reading h.st (by rw [h.size, h.total])
  rw [endTokens_decode h.command h.reading.command] at hstep
  exact ⟨_, endsIn_of_step hstep rfl h.reading.queue, rfl, hout, by
    rw [finish_result, hout, wide32_of_lt hsize]⟩

/-! ## From the header on -/

/-- An encoder's header is a header of its variant, with the input's length. -/
theorem decode_headerBytes (v : Variant) {n : Nat} (h : n ≤ 0xFFFFFF) (rest : List Byte) :
    ∃ size : BitVec 24, size.toNat = n ∧
      decode .header (headerBytes v n ++ rest) = .ok (headerInstr v size, rest) := by
  refine ⟨le24 (BitVec.ofNat 8 n) (BitVec.ofNat 8 (n / 256)) (BitVec.ofNat 8 (n / 65536)), ?_, ?_⟩
  · rw [toNat_le24, size_headerBytes h]
  · cases v <;> rfl

/-- The whole run of DECODE on an encoder's output. -/
theorem decode_endsIn {c : Config} {v : Variant} {b body pad : List Byte} (hin : c.maxIn = none)
    (hout : c.maxOut = none) (hsize : b.length ≤ 0xFFFFFF) (hbody : BodyAt v b body) :
    ∃ t, EndsIn (commandRun c 0 1 (headerBytes v b.length ++ (body ++ pad))) t ∧ t.st = .done ∧
      t.out = b ∧ t.result = BitVec.ofNat 32 b.length := by
  have hreading : Reading
      (loaded c opDecode .header (headerBytes v b.length ++ (body ++ pad)))
      (headerBytes v b.length ++ (body ++ pad)) := reading_loaded hin hout (by decide)
  obtain ⟨size, hvalue, hdecode⟩ := decode_headerBytes v hsize (body ++ pad)
  obtain ⟨hstep, hreading'⟩ := hreading.header rfl hdecode
  have hop : opDecode ≠ opVerify := by decide
  rw [acceptHeader_decode v size (by exact hop), startDecode_open hreading'] at hstep
  obtain ⟨d, hreach, hd⟩ := Decoding.reaches_body hbody (d := { headerState v size
      (loaded c opDecode .header (headerBytes v b.length ++ (body ++ pad))) with
      out := [], total := 0, fcnt := 0, fpos := none, st := .busy .tokens }) (rest := pad)
    { reading := { hreading' with }
      st := rfl
      command := hop
      variant := rfl
      dispExtra := rfl
      size := hvalue
      out := rfl
      total := rfl } rfl
  obtain ⟨t, ht, hend⟩ := hd.done (by omega)
  exact ⟨t, ((reaches_loaded_decode c _).trans ((Reaches.single hstep).trans hreach)).endsIn ht,
    hend⟩

/-- Settles O55: the encoder's loop keeps the groups standing for the input, the decoder reads them
back, and the verifier ends as the decoder does. -/
theorem encodedStreamsDecodeBack : Obligations.EncodedStreamsDecodeBack := by
  intro c w b hwf hin hout hw hsize
  obtain ⟨v, t, body, pad, ht, hdone, hbody, hbytes, hfour, hfits, hresult⟩ :=
    encode_endsIn hwf hin hout hw hsize
  obtain ⟨d, hd, hdDone, hdOut, hdResult⟩ :=
    decode_endsIn (pad := pad) hin hout hsize hbody
  rw [← hbytes] at hd
  obtain ⟨d', u, hd', hu, hend⟩ := endAlike_commandRun hin hout t.out
  obtain rfl := hd.unique hd'
  obtain ⟨-, huDone, huResult, -, huOut⟩ | ⟨herror, -⟩ := hend
  · exact ⟨t, ht, hdone, hfour, hresult, hfits, ⟨d, hd, hdDone, hdOut, hdResult⟩,
      u, hu, huDone, huOut, huResult ▸ hdResult⟩
  · rw [hdDone] at herror
    cases herror

end Sys2Proof.Machine
